-- ==== Sys2Proof/Word.lean ====
section
/-! DEFINITION. The word types that cross HUFFCORE's boundary (30_encoding.md R60, R63). -/

namespace Sys2Proof

/-- A byte: 8 bits, value 0..255 (00_scope.md R7). -/
abbrev Byte := BitVec 8

/-- A 32-bit word: the operand `arg` of a command (R60) and the `val` of a response (R63). -/
abbrev Word := BitVec 32

/-- The 40-bit command word `cw` (R60). -/
abbrev CmdWord := BitVec 40

end Sys2Proof
end

