-- ==== Sys2Proof/Syntax.lean ====
section
/-! DEFINITION. The commands of HUFFCORE (30_encoding.md R61), the raw command record (R60) and the ways a record fails to be a command. -/

namespace Sys2Proof

/-- The 17 mnemonics of the opcode map (R61). -/
inductive Mnemonic where
  | sysReset | sysStatus
  | ftInit | ftFeed | ftCount | ftTotal
  | encInit | encFeed | encEnd | encReady | encDrain | encCodeof
  | decInit | decFeed | decReady | decDrain | decCodeof
  deriving DecidableEq, Repr

/-- A decoded command, one constructor per row of the opcode table (R61). A feed carries its input bytes, whose number is
`arg` (R60); an operand that the rule ignores is not kept (R62: "any value is accepted and has no effect"). -/
inductive Instr where
  | sysReset
  | sysStatus
  | ftInit
  | ftFeed (data : List Byte)
  | ftCount (symbol : Word)
  | ftTotal
  | encInit (hint : Word)
  | encFeed (data : List Byte)
  | encEnd
  | encReady
  | encDrain (maxLen : Word)
  | encCodeof (symbol : Word)
  | decInit (hint : Word)
  | decFeed (data : List Byte)
  | decReady
  | decDrain (maxLen : Word)
  | decCodeof (symbol : Word)
  deriving DecidableEq, Repr

/-- The mnemonic of a command. -/
def Instr.mnemonic : Instr → Mnemonic
  | .sysReset => .sysReset
  | .sysStatus => .sysStatus
  | .ftInit => .ftInit
  | .ftFeed _ => .ftFeed
  | .ftCount _ => .ftCount
  | .ftTotal => .ftTotal
  | .encInit _ => .encInit
  | .encFeed _ => .encFeed
  | .encEnd => .encEnd
  | .encReady => .encReady
  | .encDrain _ => .encDrain
  | .encCodeof _ => .encCodeof
  | .decInit _ => .decInit
  | .decFeed _ => .decFeed
  | .decReady => .decReady
  | .decDrain _ => .decDrain
  | .decCodeof _ => .decCodeof

/-- The record the host sends: the 40-bit command word and the data bytes (R60). -/
structure Command where
  /-- `cw[39:32] = op`, `cw[31:0] = arg`. -/
  word : CmdWord
  /-- The input bytes: `arg` of them for the three feeds, none for every other command. -/
  data : List Byte
  deriving DecidableEq, Repr

/-- Why a record decodes to no instruction. -/
inductive Reject where
  /-- The opcode is reserved (R66). The block answers such a command with ContractViolation. -/
  | reservedOpcode (op : Byte)
  /-- The number of data bytes is not the one the command word calls for: the record is not a command (R60, D18). -/
  | dataLength (m : Mnemonic)
  deriving DecidableEq, Repr

end Sys2Proof
end

