-- ==== Sys2Proof/WellFormed.lean ====
section
/-! DEFINITION. Which decoded commands have an encoding: a feed's data bytes are counted by a 32-bit `arg` (30_encoding.md R60, R62). -/

namespace Sys2Proof

/-- The data bytes of a feed number at most 2^32 - 1, the largest `arg` (R60, R62). -/
def dataFits (data : List Byte) : Bool := decide (data.length < 4294967296)

/-- The command has an encoding. The operands `symbol`, `hint` and `maxLen` are any 32-bit number (R62): a value out of the
legal range is a command too, answered with ContractViolation. -/
def Instr.wellFormed : Instr → Bool
  | .sysReset => true
  | .sysStatus => true
  | .ftInit => true
  | .ftFeed data => dataFits data
  | .ftCount _ => true
  | .ftTotal => true
  | .encInit _ => true
  | .encFeed data => dataFits data
  | .encEnd => true
  | .encReady => true
  | .encDrain _ => true
  | .encCodeof _ => true
  | .decInit _ => true
  | .decFeed data => dataFits data
  | .decReady => true
  | .decDrain _ => true
  | .decCodeof _ => true

end Sys2Proof
end

