-- ==== Sys2Proof/Decode.lean ====
section
/-! DEFINITION. Decoding of the command record and, after it, the encoder (30_encoding.md R60 to R62, R66, R67). -/

namespace Sys2Proof

/-- `cw[39:32]`, the opcode (R60). -/
def opcodeField (cw : CmdWord) : Byte := cw.extractLsb' 32 8

/-- `cw[31:0]`, the operand (R60, R62: taken whole, unsigned). -/
def argField (cw : CmdWord) : Word := cw.extractLsb' 0 32

/-- The opcode map, row by row (R61). -/
def opcodeMap : List (Byte × Mnemonic) :=
  [(0x01, .sysReset), (0x02, .sysStatus),
   (0x10, .ftInit), (0x11, .ftFeed), (0x12, .ftCount), (0x13, .ftTotal),
   (0x20, .encInit), (0x21, .encFeed), (0x22, .encEnd), (0x23, .encReady), (0x24, .encDrain), (0x25, .encCodeof),
   (0x30, .decInit), (0x31, .decFeed), (0x33, .decReady), (0x34, .decDrain), (0x35, .decCodeof)]

/-- Feeds are followed by `arg` bytes of data, all others by none (R60, R67). -/
def Mnemonic.isFeed : Mnemonic → Bool
  | .ftFeed => true
  | .encFeed => true
  | .decFeed => true
  | .sysReset | .sysStatus | .ftInit | .ftCount | .ftTotal => false
  | .encInit | .encEnd | .encReady | .encDrain | .encCodeof => false
  | .decInit | .decReady | .decDrain | .decCodeof => false

/-- The number of data bytes a command word calls for: told from the opcode and `arg` alone (R67). -/
def Mnemonic.extent (m : Mnemonic) (arg : Word) : Nat := if m.isFeed then arg.toNat else 0

/-- The command of a mnemonic, its operand and its data, by the operand readings of R61 and R62. -/
def Mnemonic.toInstr (m : Mnemonic) (arg : Word) (data : List Byte) : Instr :=
  match m with
  | .sysReset => .sysReset
  | .sysStatus => .sysStatus
  | .ftInit => .ftInit
  | .ftFeed => .ftFeed data
  | .ftCount => .ftCount arg
  | .ftTotal => .ftTotal
  | .encInit => .encInit arg
  | .encFeed => .encFeed data
  | .encEnd => .encEnd
  | .encReady => .encReady
  | .encDrain => .encDrain arg
  | .encCodeof => .encCodeof arg
  | .decInit => .decInit arg
  | .decFeed => .decFeed data
  | .decReady => .decReady
  | .decDrain => .decDrain arg
  | .decCodeof => .decCodeof arg

/-- The mnemonic of a command word, none for a reserved opcode (R61, R66). -/
def mnemonicOf (cw : CmdWord) : Option Mnemonic := opcodeMap.lookup (opcodeField cw)

/-- Decoding of a command record: total, rejecting by name (R60, R61, R66, R67). -/
def decode (c : Command) : Except Reject Instr :=
  match mnemonicOf c.word with
  | none => .error (.reservedOpcode (opcodeField c.word))
  | some m =>
    if c.data.length = m.extent (argField c.word) then .ok (m.toInstr (argField c.word) c.data)
    else .error (.dataLength m)

/-- The opcode of a mnemonic (R61). -/
def Mnemonic.opcode : Mnemonic → Byte
  | .sysReset => 0x01
  | .sysStatus => 0x02
  | .ftInit => 0x10
  | .ftFeed => 0x11
  | .ftCount => 0x12
  | .ftTotal => 0x13
  | .encInit => 0x20
  | .encFeed => 0x21
  | .encEnd => 0x22
  | .encReady => 0x23
  | .encDrain => 0x24
  | .encCodeof => 0x25
  | .decInit => 0x30
  | .decFeed => 0x31
  | .decReady => 0x33
  | .decDrain => 0x34
  | .decCodeof => 0x35

/-- The operand word of a command: its operand, the number of data bytes of a feed, 0 where the operand is ignored
(R60, R62: "the canonical encoding has `arg = 0`"). -/
def Instr.arg : Instr → Word
  | .sysReset => 0
  | .sysStatus => 0
  | .ftInit => 0
  | .ftFeed data => BitVec.ofNat 32 data.length
  | .ftCount symbol => symbol
  | .ftTotal => 0
  | .encInit hint => hint
  | .encFeed data => BitVec.ofNat 32 data.length
  | .encEnd => 0
  | .encReady => 0
  | .encDrain maxLen => maxLen
  | .encCodeof symbol => symbol
  | .decInit hint => hint
  | .decFeed data => BitVec.ofNat 32 data.length
  | .decReady => 0
  | .decDrain maxLen => maxLen
  | .decCodeof symbol => symbol

/-- The data bytes of a command (R60). -/
def Instr.data : Instr → List Byte
  | .ftFeed data => data
  | .encFeed data => data
  | .decFeed data => data
  | .sysReset | .sysStatus | .ftInit | .ftCount _ | .ftTotal => []
  | .encInit _ | .encEnd | .encReady | .encDrain _ | .encCodeof _ => []
  | .decInit _ | .decReady | .decDrain _ | .decCodeof _ => []

/-- The command record of a well-formed command (R60, R61). -/
def encode (i : Instr) : Command where
  word := i.mnemonic.opcode ++ i.arg
  data := i.data

/-- The record whose command word is the low `nbits` (at most 40) bits of `w`, followed by the zero bytes that word calls
for. The table numbers the command word as R60 does, bit 0 the least significant bit of `arg`; the word is a number and
has no byte order (R44; log entry 12). -/
def tableCommand (nbits w : Nat) : Command :=
  let word : CmdWord := BitVec.ofNat 40 (w % 2 ^ nbits)
  { word := word
    data := List.replicate ((mnemonicOf word).elim 0 fun m => m.extent (argField word)) 0 }

/-- What the decoder reads from an instruction whose bits are `w`, numbered as the opcode table numbers them. -/
def decodeTableWord (nbits w : Nat) : Option Instr :=
  match decode (tableCommand nbits w) with
  | .ok i => some i
  | .error _ => none

end Sys2Proof
end

