-- ==== Sys2Proof/Config.lean ====
section
/-! DEFINITION. The parameters of HUFFCORE (00_scope.md R6) and the one free value, GROW_GRANT (92_eei_decisions.md D8).

The constants the spec fixes stand as numerals in the rules' own places: NSYM = 257, NLIT = 256, EOF = 256,
EOF_WEIGHT = 1, NNODE = 513 (root 512, internal nodes 257..512), CW = 32, CB = 4, HDR_SIZE = 1024. -/

namespace Sys2Proof

/-- The parameters a model may take as arguments (R6; 92_eei_decisions.md D4, D7, D11). -/
structure Params where
  /-- CMAX, the largest value `total` may take. -/
  cmax : Nat
  /-- BUF_MAX, the largest encoder buffer capacity in bytes. -/
  bufMax : Nat
  /-- DEC_BUF_MAX, the largest decoder output-buffer capacity in bytes. -/
  decBufMax : Nat
  deriving DecidableEq, Repr

/-- The values the spec takes: 2^31 - 1 each (R6). -/
def Params.standard : Params where
  cmax := 2147483647
  bufMax := 2147483647
  decBufMax := 2147483647

/-- The ranges R6 and the table of open parameters (92_eei_decisions.md) allow: 1 .. 2^31 - 1 each. -/
abbrev Params.legal (p : Params) : Prop :=
  (1 ≤ p.cmax ∧ p.cmax ≤ 2147483647) ∧ (1 ≤ p.bufMax ∧ p.bufMax ≤ 2147483647) ∧
    (1 ≤ p.decBufMax ∧ p.decBufMax ≤ 2147483647)

/-- GROW_GRANT as a free value: the answer to growth request number `n` when the host has queued no answer
(R6, R131, D8, U5; log entry 3). It has no body here: nothing can be proved about its value. -/
opaque Config.growGrant : Nat → Bool

end Sys2Proof
end

