-- ==== Sys2Proof/Machine/State.lean ====
section
/-! DEFINITION. The architectural state of HUFFCORE as plain data, its reset value, and the reasons a step can stop (10_state.md). -/

namespace Sys2Proof.Machine

/-- The seven statuses a response can carry (30_encoding.md R64). -/
inductive Status where
  | success | outOfMemory | tooMuchData | overflow | contractViolation | done | outputFull
  deriving DecidableEq, Repr

/-- A response: status, 32-bit value, output bytes (R63). -/
structure Response where
  status : Status
  val : Word
  data : List Byte
  deriving DecidableEq, Repr

/-- The 256 counters of a frequency table, indexed by literal (10_state.md R11, R21, R29). -/
abbrev CountTable := Vector Nat 256

/-- The tree record (R17). Entry `j` of `left`, `right` is that of internal node `257 + j`; `parent` and `weight` are
indexed by node. -/
structure Tree where
  left : Vector Nat 256
  right : Vector Nat 256
  parent : Vector Nat 512
  weight : Vector Nat 513
  deriving DecidableEq, Repr

/-- `enc.phase` (R20). -/
inductive EncPhase where
  | idle | active | ended
  deriving DecidableEq, Repr

/-- `dec.phase` (R28). -/
inductive DecPhase where
  | idle | header | payload | done | fault
  deriving DecidableEq, Repr

/-- FT unit: the live frequency table (R11, R12). -/
structure Ft where
  count : CountTable
  total : Nat
  deriving DecidableEq, Repr

/-- The defined part of `enc.buf` with its bit cursor (R24, R25; log entries 6, 7): `bytes` are `enc.buf[0..nbytes-1]`,
oldest first, so `enc.nbytes` is their number; `part` is the partial byte `enc.buf[nbytes]`; `nbits` is `enc.nbits`. -/
structure BitBuf where
  bytes : List Byte
  part : Byte
  nbits : Fin 8
  deriving DecidableEq, Repr

/-- ENC unit (R20 to R25). -/
structure Enc where
  phase : EncPhase
  count : CountTable
  tree : Tree
  hdrRem : Fin 1025
  cap : Nat
  buf : BitBuf
  deriving DecidableEq, Repr

/-- DEC unit (R28 to R33). `out` holds `dec.out[0..nout-1]`, oldest first, so `dec.nout` is its length (log entry 7). -/
structure Dec where
  phase : DecPhase
  count : CountTable
  hdrRem : Fin 1025
  tree : Tree
  cursor : Nat
  cur : Byte
  bitsLeft : Fin 9
  cap : Nat
  out : List Byte
  pend : Byte
  pendValid : Bool
  deriving DecidableEq, Repr

/-- What the host can do to the block between two commands: issue a command record (R10, R60) or raise the reset event in
its power-on or pin form (70_reset_and_hazards.md R200; log entry 13). -/
inductive HostEvent where
  | issue (c : Command)
  | reset
  deriving DecidableEq, Repr

/-- The state: the three units, the parameters, and the host's side of the port (log entries 1 to 4). -/
structure State where
  /-- The parameters (R6, R35): no command writes them. -/
  params : Params
  ft : Ft
  enc : Enc
  dec : Dec
  /-- The host's pending events, oldest first. -/
  inbox : List HostEvent
  /-- The host's answers to the next growth requests (GROW_GRANT, D8). -/
  grants : List Bool
  /-- How many growth requests have been asked: what the free value `Config.growGrant` is applied to. -/
  growAsked : Nat
  /-- Every response returned so far, oldest first (R63). -/
  responses : List Response
  deriving DecidableEq, Repr

/-- `enc.nbytes` (R25). -/
def BitBuf.nbytes (b : BitBuf) : Nat := b.bytes.length

/-- `dec.nout` (R32). -/
def Dec.nout (d : Dec) : Nat := d.out.length

/-- Why the machine is stuck: a loop of the rules that does not end. Both are safe (the model stops), and no state that
keeps `State.Inv` raises one (log entry 9). -/
inductive Fault where
  /-- Raised by ENC_FEED, ENC_END, ENC_CODEOF, DEC_CODEOF on a record that is no tree: the climb of R114 does not reach the root. -/
  | codeWalkStuck
  /-- Raised by ENC_FEED and ENC_END in phase ACTIVE with `enc.cap = 0`: the doubling loop of R131 does not end. -/
  | growthStuck
  deriving DecidableEq, Repr

/-- Why a step has no meaning. All are safe (the model stops). -/
inductive Refusal where
  /-- Raised by `exec` for an instruction without a meaning (none in this model). -/
  | notModelled (mnemonic : String)
  /-- Raised by `step` on a record whose data length is not the one its word calls for: it is not a command (R60, D18; log entry 11). -/
  | notACommand
  /-- Raised by DEC_FEED in a state that breaks the decoder's invariant (R29, R30): the cursor is no internal node, or the
  header is complete in phase HEADER. 93_implementation_defined.md U2: "If a model's state ever breaks the invariant,
  **refuse**." (log entry 10). -/
  | offInvariant
  deriving DecidableEq, Repr

/-- A tree record never written: every entry 0 (R36 unspecified; log entry 5). -/
def Tree.unwritten : Tree where
  left := Vector.replicate 256 0
  right := Vector.replicate 256 0
  parent := Vector.replicate 512 0
  weight := Vector.replicate 513 0

/-- FT after reset: as after FT_INIT (R36). -/
def Ft.reset : Ft where
  count := Vector.replicate 256 0
  total := 1

/-- ENC after reset: phase IDLE and `enc.nbits = 0` by R36; every other field is unspecified there, the value here is log
entry 5's. -/
def Enc.reset : Enc where
  phase := .idle
  count := Vector.replicate 256 0
  tree := Tree.unwritten
  hdrRem := 0
  cap := 0
  buf := { bytes := [], part := 0, nbits := 0 }

/-- DEC after reset: phase IDLE, `dec.pend_valid = 0`, `dec.bits_left = 0` by R36; every other field is unspecified there,
the value here is log entry 5's. -/
def Dec.reset : Dec where
  phase := .idle
  count := Vector.replicate 256 0
  hdrRem := 0
  tree := Tree.unwritten
  cursor := 0
  cur := 0
  bitsLeft := 0
  cap := 0
  out := []
  pend := 0
  pendValid := false

/-- The machine right after reset (R36, R200), with the spec's parameter values and nothing at the host's side of the port. -/
def State.reset : State where
  params := Params.standard
  ft := Ft.reset
  enc := Enc.reset
  dec := Dec.reset
  inbox := []
  grants := []
  growAsked := 0
  responses := []

end Sys2Proof.Machine
end

