-- ==== Sys2Proof/Machine/Flags.lean ====
section
/-! DEFINITION. The codes of phases and statuses, the STATUS word, and the flag `dec.pend_valid` (10_state.md R15, R16, R20, R28, R33; 30_encoding.md R64). -/

namespace Sys2Proof.Machine

/-- The status codes (R64). -/
def Status.code : Status → Byte
  | .success => 0
  | .outOfMemory => 1
  | .tooMuchData => 2
  | .overflow => 3
  | .contractViolation => 4
  | .done => 5
  | .outputFull => 6

/-- The values of `enc.phase` (R20). -/
def EncPhase.code : EncPhase → Nat
  | .idle => 0
  | .active => 1
  | .ended => 2

/-- The values of `dec.phase` (R28). -/
def DecPhase.code : DecPhase → Nat
  | .idle => 0
  | .header => 1
  | .payload => 2
  | .done => 3
  | .fault => 4

/-- The STATUS word (R16, 45_system_commands.md R171). -/
def statusWord (s : State) : Nat :=
  s.enc.phase.code + 16 * s.dec.phase.code + 256 * s.dec.pendValid.toNat + 4096 * s.dec.bitsLeft.val +
    65536 * s.enc.buf.nbits.val

/-- Hold a decoded literal in the pending register: `dec.pend <- r; dec.pend_valid <- 1` (R33, 44_stream_decoder.md R154). -/
def Dec.hold (d : Dec) (r : Byte) : Dec := { d with pend := r, pendValid := true }

/-- Clear the flag (R155). -/
def Dec.clearPending (d : Dec) : Dec := { d with pendValid := false }

end Sys2Proof.Machine
end

