-- ==== Sys2Proof/Machine/Operands.lean ====
section
/-! DEFINITION. The operand readings of 30_encoding.md R62: hint, symbol, maxLen. (A feed's length is the number of its data bytes; an ignored operand is not kept.) -/

namespace Sys2Proof.Machine

/-- `arg` taken whole as an unsigned number (R62). -/
def operand (arg : Word) : Nat := arg.toNat

/-- **hint**: the legal range 1..limit, the limit being BUF_MAX or DEC_BUF_MAX (R62, R130, R150). -/
def hintLegal (limit : Nat) (arg : Word) : Bool := decide (1 ≤ operand arg) && decide (operand arg ≤ limit)

/-- **symbol** of FT_COUNT: the legal range 0..255 (R62, R92). -/
def literalLegal (arg : Word) : Bool := decide (operand arg ≤ 255)

/-- **symbol** of ENC_CODEOF and DEC_CODEOF: the legal range 0..256 (R62, R118, R119). -/
def symbolLegal (arg : Word) : Bool := decide (operand arg ≤ 256)

end Sys2Proof.Machine
end

