-- ==== Sys2Proof/Machine/Queue.lean ====
section
/-! DEFINITION. The OrderedQueue (41_ordered_queue.md R100 to R103): QInsert, QRemoveMin, QSize, and the equivalent formulation of R103. -/

namespace Sys2Proof.Machine

/-- A queue entry: an item (a node index) and its weight (41_ordered_queue.md, preamble). -/
structure QItem where
  node : Nat
  weight : Nat
  deriving DecidableEq, Repr

/-- QInsert (R100): immediately before the first entry whose weight is at least the new weight, else at the back. -/
def qInsert (x : QItem) : List QItem → List QItem
  | [] => [x]
  | y :: q => if x.weight ≤ y.weight then x :: y :: q else y :: qInsert x q

/-- QRemoveMin (R101): the front entry and the rest; not defined on an empty queue (U3). -/
def qRemoveMin : List QItem → Option (QItem × List QItem)
  | [] => none
  | x :: q => some (x, q)

/-- QSize (R102). -/
def qSize (q : List QItem) : Nat := q.length

/-- An operation on a queue. -/
inductive QOp where
  | insert (x : QItem)
  | removeMin
  deriving DecidableEq, Repr

/-- The entries that a list of operations removes, in order, from the ordered sequence of R100 and R101; none where an
operation removes from an empty queue, which R101 leaves undefined (U3: "**refuse** outside `BuildTree`"; log entry 20). -/
def qRun : List QItem → List QOp → Option (List QItem)
  | _, [] => some []
  | q, .insert x :: ops => qRun (qInsert x q) ops
  | q, .removeMin :: ops =>
    match qRemoveMin q with
    | none => none
    | some (x, q') => (qRun q' ops).map (x :: ·)

/-- R103's order: `x` leaves before `y` when its weight is smaller, or equal with a larger sequence number. -/
def heapBefore (x y : QItem × Nat) : Bool :=
  decide (x.1.weight < y.1.weight) || (decide (x.1.weight = y.1.weight) && decide (y.2 < x.2))

/-- The entry that leaves first among a non-empty unordered collection (R103). -/
def heapMin (x : QItem × Nat) : List (QItem × Nat) → QItem × Nat
  | [] => x
  | y :: h => if heapBefore y x then heapMin y h else heapMin x h

/-- The entries that a list of operations removes, in order, in R103's formulation: an unordered collection in which every
insertion carries its sequence number `n`, `n + 1`, …; none where an operation removes from an empty collection (log entry
20). -/
def heapRun : Nat → List (QItem × Nat) → List QOp → Option (List QItem)
  | _, _, [] => some []
  | n, h, .insert x :: ops => heapRun (n + 1) ((x, n) :: h) ops
  | _, [], .removeMin :: _ => none
  | n, e :: h, .removeMin :: ops =>
    (heapRun n ((e :: h).erase (heapMin e h)) ops).map ((heapMin e h).1 :: ·)

end Sys2Proof.Machine
end

