-- ==== Sys2Proof/Machine/Tree.lean ====
section
/-! DEFINITION. The HuffmanTree: BuildTree, CodeOf, DecodeStep (42_huffman_tree.md R110, R114, R116). -/

namespace Sys2Proof.Machine

/-- The count of a literal, read out of a table. -/
def countOf (count : CountTable) (s : Nat) : Nat := count[s]?.getD 0

/-- The weight of leaf `s`: `count[s]` for a literal, the constant 1 for EOF (R110: "a constant, not a table read"). -/
def leafWeight (count : CountTable) (s : Nat) : Nat := if s < 256 then countOf count s else 1

/-- The total of a table: `1 + Σ count[s]` (10_state.md R12). -/
def tableTotal (count : CountTable) : Nat := 1 + count.toList.sum

/-- The weights of the 257 leaves in ascending symbol order: the counts, then the EOF leaf's constant 1 (R110). -/
def leafWeights (count : CountTable) : List Nat := count.toList ++ [1]

/-- QInsert for leaves `s`, `s + 1`, … of the weights listed (R110: "insert all into an OrderedQueue in that same symbol
order"). -/
def insertLeaves : List Nat → (s : Nat) → List QItem → List QItem
  | [], _, q => q
  | w :: ws, s, q => insertLeaves ws (s + 1) (qInsert { node := s, weight := w } q)

/-- The queue after the 257 leaf insertions (R110). -/
def leafQueue (count : CountTable) : List QItem := insertLeaves (leafWeights count) 0 []

/-- What one pass of R110's loop records for the internal node it creates. -/
structure Merge where
  left : Nat
  right : Nat
  weight : Nat
  deriving DecidableEq, Repr

/-- The loop of R110, `while QSize(q) > 1`: `next` is the node the pass creates; the list holds one entry per pass, in
order. `fuel` bounds the passes (R110: "the loop body runs exactly 256 times"). -/
def mergeLoop : (fuel : Nat) → List QItem → (next : Nat) → List Merge
  | 0, _, _ => []
  | fuel + 1, q, next =>
    match qRemoveMin q with
    | none => []
    | some (a, q1) =>
      match qRemoveMin q1 with
      | none => []
      | some (b, q2) =>
        { left := a.node, right := b.node, weight := a.weight + b.weight } ::
          mergeLoop fuel (qInsert { node := next, weight := a.weight + b.weight } q2) (next + 1)

/-- The passes of BuildTree on a table (R110). -/
def mergesOf (count : CountTable) : List Merge := mergeLoop 256 (leafQueue count) 257

/-- The entry of internal node `257 + j`. -/
def mergeAt (ms : List Merge) (j : Nat) : Merge := ms[j]?.getD { left := 0, right := 0, weight := 0 }

/-- The internal node whose pass removed node `n`: `T.parent[n]` (R110). -/
def parentIn (ms : List Merge) (n : Nat) : Nat := 257 + ms.findIdx fun m => m.left == n || m.right == n

/-- The array of `n` entries whose entry `i` is `f i`. -/
def tabulate {α : Type} (n : Nat) (f : Nat → α) : Vector α n := ⟨⟨(List.range n).map f⟩, by simp⟩

/-- The record that the passes `ms` leave (R110): for every node, what the pass that created or removed it wrote (log entry 17). -/
def treeOf (count : CountTable) (ms : List Merge) : Tree where
  left := tabulate 256 fun j => (mergeAt ms j).left
  right := tabulate 256 fun j => (mergeAt ms j).right
  parent := tabulate 512 fun n => parentIn ms n
  weight := tabulate 513 fun n => if n ≤ 256 then leafWeight count n else (mergeAt ms (n - 257)).weight

/-- BuildTree (R110). -/
def buildTree (count : CountTable) : Tree := treeOf count (mergesOf count)

/-- `T.left[n]`, for an internal node `n`. -/
def Tree.leftOf (t : Tree) (n : Nat) : Nat := t.left[n - 257]?.getD 0

/-- `T.right[n]`, for an internal node `n`. -/
def Tree.rightOf (t : Tree) (n : Nat) : Nat := t.right[n - 257]?.getD 0

/-- `T.parent[n]`. -/
def Tree.parentOf (t : Tree) (n : Nat) : Nat := t.parent[n]?.getD 0

/-- `T.weight[n]`. -/
def Tree.weightOf (t : Tree) (n : Nat) : Nat := t.weight[n]?.getD 0

/-- The climb of R114 from node `n` to the root, the bit of each move put in front of those below it (which reverses the
leaf-first order). `fuel` bounds the moves; none where the root is not reached. -/
def climb (t : Tree) : (fuel : Nat) → (n : Nat) → List Bool → Option (List Bool)
  | 0, n, bits => if n = 512 then some bits else none
  | fuel + 1, n, bits =>
    if n = 512 then some bits
    else climb t fuel (t.parentOf n) ((t.rightOf (t.parentOf n) == n) :: bits)

/-- CodeOf (R114): the root-first branch bits of symbol `s`, left 0 and right 1. The depth of a leaf is at most 256
(10_state.md R18); on a record that is no tree the climb does not end (log entry 9). -/
def codeOf (t : Tree) (s : Nat) : Option (List Bool) := climb t 256 s []

/-- DecodeStep (R116): the new cursor and the symbol, if a leaf is reached. Defined only for an internal cursor (U2). -/
def decodeStep (t : Tree) (cursor : Nat) (bit : Bool) : Option (Nat × Option Nat) :=
  if 257 ≤ cursor ∧ cursor ≤ 512 then
    let n := if bit then t.rightOf cursor else t.leftOf cursor
    if n ≤ 256 then some (512, some n) else some (n, none)
  else none

end Sys2Proof.Machine
end

