-- ==== Sys2Proof/Machine/Ops.lean ====
section
/-! DEFINITION. The shared operations: the response, the refusal by response, the reset event, the bit packer, growth, the header bytes, and the decoder's internal steps. -/

namespace Sys2Proof.Machine

/-! ## Responses and the reset event -/

/-- End a command with its response `(status, val, data)` (30_encoding.md R63). `val` is a 32-bit word (log entry 14). -/
def State.answer (s : State) (status : Status) (val : Nat) (data : List Byte) : State :=
  { s with responses := s.responses ++ [{ status := status, val := BitVec.ofNat 32 val, data := data }] }

/-- ContractViolation, the block's one exception-like refusal (60_exceptions.md R182, R189): `val = 0`, no data, no state
change; nothing is saved and control goes nowhere (R189, R190), so there is no return to model. -/
def State.refuse (s : State) : State := s.answer .contractViolation 0 []

/-- The reset event on the units (70_reset_and_hazards.md R200, 10_state.md R36). The parameters and the host's side of the
port are no part of the units (log entries 4, 13). -/
def State.resetUnits (s : State) : State := { s with ft := Ft.reset, enc := Enc.reset, dec := Dec.reset }

/-- The outcome of a record that decodes to no instruction: a reserved opcode is answered with ContractViolation (R66,
45_system_commands.md R172); a record of a wrong data length is not a command (R60, D18). -/
def rejectCommand (r : Reject) (s : State) : Host.Outcome State Fault Refusal :=
  match r with
  | .reservedOpcode _ => .next s.refuse
  | .dataLength _ => .refused .notACommand

/-- Take the oldest pending event out of the inbox. -/
def State.popInbox (s : State) : State := { s with inbox := s.inbox.tail }

/-! ## The bit packer: low bit first (20_memory.md R43, 43_stream_encoder.md R132) -/

/-- `ceil8(n) = (n + 7) div 8` (00_scope.md R7). -/
def ceil8 (n : Nat) : Nat := (n + 7) / 8

/-- A buffer with no bit in it. -/
def BitBuf.empty : BitBuf where
  bytes := []
  part := 0
  nbits := 0

/-- One pass of EncAppend's loop (R132). When the byte is full it joins `bytes`; `part` is then no defined byte and stands at 0
(log entry 6). -/
def BitBuf.push (b : BitBuf) (bit : Bool) : BitBuf :=
  let fresh : Byte := if b.nbits.val = 0 then 0 else b.part
  let part : Byte := fresh + BitVec.ofNat 8 (bit.toNat * 2 ^ b.nbits.val)
  if h : b.nbits.val = 7 then { bytes := b.bytes ++ [part], part := 0, nbits := 0 }
  else { bytes := b.bytes, part := part, nbits := ⟨b.nbits.val + 1, by omega⟩ }

/-- EncAppend (R132): the bits of a code, root-first. -/
def BitBuf.append (b : BitBuf) (c : List Bool) : BitBuf := c.foldl BitBuf.push b

/-- Complete a partial byte with zero bits (43_stream_encoder.md R134; 42_huffman_tree.md R118). -/
def BitBuf.pad (b : BitBuf) : BitBuf :=
  if 0 < b.nbits.val then { bytes := b.bytes ++ [b.part], part := 0, nbits := 0 } else b

/-- A code packed for a response, exactly like payload (30_encoding.md R74, R118). -/
def packCode (c : List Bool) : List Byte := ((BitBuf.empty.append c).pad).bytes

/-- The bytes occupied after `l` more bits: `need` of R131. -/
def BitBuf.need (b : BitBuf) (l : Nat) : Nat := ceil8 (8 * b.nbytes + b.nbits.val + l)

/-- Remove `d` bytes from the front of the buffer; the partial byte moves with them (20_memory.md R55). -/
def BitBuf.dropFront (b : BitBuf) (d : Nat) : BitBuf := { b with bytes := b.bytes.drop d }

/-! ## Growth of the encoder's buffer (R131) -/

/-- How the doubling loop of R131 ends. -/
inductive Growth where
  /-- A capacity that suffices. -/
  | fits (cap : Nat)
  /-- The size-cap guard: a doubling would pass BUF_MAX. -/
  | pastGuard
  /-- The loop does not end (capacity 0). -/
  | stuck
  deriving DecidableEq, Repr

/-- The doubling loop of R131. From a capacity of at least 1, `need` passes suffice. -/
def growCap (bufMax need : Nat) : (fuel : Nat) → (newcap : Nat) → Growth
  | 0, newcap => if newcap < need then .stuck else .fits newcap
  | fuel + 1, newcap =>
    if newcap < need then
      if bufMax < 2 * newcap then .pastGuard else growCap bufMax need fuel (2 * newcap)
    else .fits newcap

/-- GROW_GRANT's answer: the host's next queued one, else the free value (D8, R131; log entry 3). -/
def State.grantAnswer (s : State) : Bool := s.grants.head?.getD (Config.growGrant s.growAsked)

/-- A growth request has been asked and answered. -/
def State.afterGrant (s : State) : State := { s with grants := s.grants.tail, growAsked := s.growAsked + 1 }

/-- How an internal procedure of the encoder ends. -/
inductive EncStep where
  | ok (s : State)
  | fail (status : Status) (s : State)
  | stuck (f : Fault)
  deriving DecidableEq, Repr

/-- EncReserve (R131): the size guard before GROW_GRANT, GROW_GRANT asked at most once. -/
def encReserve (l : Nat) (s : State) : EncStep :=
  match growCap s.params.bufMax (s.enc.buf.need l) (s.enc.buf.need l) s.enc.cap with
  | .stuck => .stuck .growthStuck
  | .pastGuard => .fail .tooMuchData s
  | .fits newcap =>
    if newcap = s.enc.cap then .ok s
    else if s.grantAnswer then .ok { s.afterGrant with enc := { s.enc with cap := newcap } }
    else .fail .outOfMemory s.afterGrant

/-- EncAppend on the state (R132). -/
def encAppend (c : List Bool) (s : State) : State :=
  { s with enc := { s.enc with buf := s.enc.buf.append c } }

/-- One symbol through CodeOf, EncReserve and EncAppend, as R133 and R134 do in this order. -/
def encSymbol (sym : Nat) (s : State) : EncStep :=
  match codeOf s.enc.tree sym with
  | none => .stuck .codeWalkStuck
  | some c =>
    match encReserve c.length s with
    | .ok t => .ok (encAppend c t)
    | .fail status t => .fail status t
    | .stuck f => .stuck f

/-! ## The header (30_encoding.md R71, R72) -/

/-- HeaderByte (R71): bits `8·(h mod 4)+7 .. 8·(h mod 4)` of the counter of symbol `h div 4`. -/
def headerByte (count : CountTable) (h : Nat) : Byte := BitVec.ofNat 8 (countOf count (h / 4) / 2 ^ (8 * (h % 4)) % 256)

/-- `n` header bytes from position `h` on (43_stream_encoder.md R136). -/
def headerBytes (count : CountTable) (h n : Nat) : List Byte := (List.range n).map fun j => headerByte count (h + j)

/-- Merge the wire byte `b` at header position `h` (R72). -/
def mergeHeaderByte (count : CountTable) (h : Nat) (b : Byte) : CountTable :=
  count.setIfInBounds (h / 4) (countOf count (h / 4) + b.toNat * 2 ^ (8 * (h % 4)))

/-! ## The decoder's internal steps (44_stream_decoder.md R151 to R155) -/

/-- How an internal step of the decoder ends: go on, end the command with a status, or off the invariant (U2). -/
inductive Walk where
  | go (d : Dec)
  | stop (status : Status) (d : Dec)
  | off
  deriving DecidableEq, Repr

/-- BufAppend (20_memory.md R55). -/
def Dec.bufAppend (d : Dec) (b : Byte) : Dec := { d with out := d.out ++ [b] }

/-- The output buffer has room: `dec.nout < dec.cap` (R32, R154). -/
def Dec.hasRoom (d : Dec) : Bool := decide (d.nout < d.cap)

/-- A table is valid only if every count and the total are at most CMAX (R72, R153). -/
def tableValid (cmax : Nat) (count : CountTable) : Bool :=
  count.toList.all (fun c => decide (c ≤ cmax)) && decide (tableTotal count ≤ cmax)

/-- AbsorbHeaderByte (R151), while a header byte is left. -/
def absorbHeaderByte (b : Byte) (d : Dec) : Option Dec :=
  if d.hdrRem.val = 0 then none
  else some { d with
    count := mergeHeaderByte d.count (1024 - d.hdrRem.val) b
    hdrRem := ⟨d.hdrRem.val - 1, by omega⟩ }

/-- CompleteHeader (R153). -/
def completeHeader (p : Params) (d : Dec) : Walk :=
  if tableValid p.cmax d.count then
    .go { d with tree := buildTree d.count, cursor := 512, phase := .payload }
  else .stop .overflow { d with phase := .fault }

/-- What BitStep does with a symbol (R154). -/
def emitSymbol (d : Dec) (sym : Nat) : Walk :=
  if sym = 256 then .stop .done { d with bitsLeft := 0, phase := .done }
  else if d.hasRoom then .go (d.bufAppend (BitVec.ofNat 8 sym))
  else .stop .outputFull (d.hold (BitVec.ofNat 8 sym))

/-- The next bit of the latched byte: `dec.cur[8 - dec.bits_left]` (R31). -/
def Dec.nextBit (d : Dec) : Bool := d.cur.getLsbD (8 - d.bitsLeft.val)

/-- One bit of the latch is spent. -/
def Dec.spendBit (d : Dec) : Dec := { d with bitsLeft := ⟨d.bitsLeft.val - 1, by omega⟩ }

/-- BitStep (R154). -/
def bitStep (d : Dec) : Walk :=
  match decodeStep d.tree d.cursor d.nextBit with
  | none => .off
  | some (cursor, none) => .go { d.spendBit with cursor := cursor }
  | some (cursor, some sym) => emitSymbol { d.spendBit with cursor := cursor } sym

/-- BitStep for `n` latched bits in order, unless one ends the command. -/
def walkBits : (n : Nat) → Dec → Walk
  | 0, d => .go d
  | n + 1, d =>
    match bitStep d with
    | .go d' => walkBits n d'
    | .stop status d' => .stop status d'
    | .off => .off

/-- The passes of R152's loop that need no input: in phase PAYLOAD the latched bits are walked. -/
def walkLatched (d : Dec) : Walk :=
  match d.phase with
  | .payload => walkBits d.bitsLeft.val d
  | .idle | .header | .done | .fault => .go d

/-- The pass of R152's loop that takes one input byte: into the header, which it may complete, or into the latch. -/
def takeByte (p : Params) (b : Byte) (d : Dec) : Walk :=
  match d.phase with
  | .header =>
    match absorbHeaderByte b d with
    | none => .off
    | some d' => if d'.hdrRem.val = 0 then completeHeader p d' else .go d'
  | .idle | .payload | .done | .fault => .go { d with cur := b, bitsLeft := 8 }

/-- How the loop of R152 ends: the status, the consumed count and the unit. -/
inductive FeedEnd where
  | fin (status : Status) (consumed : Nat) (d : Dec)
  | off
  deriving DecidableEq, Repr

/-- The loop of R152 with the input bytes not yet consumed and the consumed count. -/
def decFeedLoop (p : Params) : List Byte → (consumed : Nat) → Dec → FeedEnd
  | [], i, d =>
    match walkLatched d with
    | .go d' => .fin .success i d'
    | .stop status d' => .fin status i d'
    | .off => .off
  | b :: bs, i, d =>
    match walkLatched d with
    | .go d' =>
      match takeByte p b d' with
      | .go d'' => decFeedLoop p bs (i + 1) d''
      | .stop status d'' => .fin status (i + 1) d''
      | .off => .off
    | .stop status d' => .fin status i d'
    | .off => .off

/-- FlushPending (R155), the first action of a DEC_FEED in phase PAYLOAD: none where there is still no room. -/
def flushPending (d : Dec) : Option Dec :=
  match d.phase with
  | .payload =>
    if d.pendValid then
      if d.hasRoom then some (d.bufAppend d.pend).clearPending else none
    else some d
  | .idle | .header | .done | .fault => some d

end Sys2Proof.Machine
end

