-- ==== Sys2Proof/Machine/FrequencyTable.lean ====
section
/-! DEFINITION. The FrequencyTable commands FT_INIT, FT_FEED, FT_COUNT, FT_TOTAL (40_frequency_table.md R90 to R93). -/

namespace Sys2Proof.Machine

/-- FT_INIT (R90). -/
def execFtInit (s : State) : Host.Outcome State Fault Refusal :=
  .next ({ s with ft := { count := Vector.replicate 256 0, total := 1 } }.answer .success 0 [])

/-- `ft.count[b] <- ft.count[b] + 1` (R91). -/
def countByte (count : CountTable) (b : Byte) : CountTable :=
  count.setIfInBounds b.toNat (countOf count b.toNat + 1)

/-- FT_FEED (R91): all or nothing. -/
def execFtFeed (data : List Byte) (s : State) : Host.Outcome State Fault Refusal :=
  if s.params.cmax < s.ft.total + data.length then .next (s.answer .overflow 0 [])
  else
    .next ({ s with ft := { count := data.foldl countByte s.ft.count, total := s.ft.total + data.length } }.answer
      .success data.length [])

/-- FT_COUNT (R92). -/
def execFtCount (symbol : Word) (s : State) : Host.Outcome State Fault Refusal :=
  if literalLegal symbol then .next (s.answer .success (countOf s.ft.count (operand symbol)) [])
  else .next s.refuse

/-- FT_TOTAL (R93). -/
def execFtTotal (s : State) : Host.Outcome State Fault Refusal :=
  .next (s.answer .success s.ft.total [])

end Sys2Proof.Machine
end

