-- ==== Sys2Proof/Machine/StreamDecoder.lean ====
section
/-! DEFINITION. The StreamDecoder commands DEC_INIT, DEC_FEED, DEC_READY, DEC_DRAIN (44_stream_decoder.md R150 to R157) and DEC_CODEOF (42_huffman_tree.md R119). -/

namespace Sys2Proof.Machine

/-- DEC_INIT (R150): accepted in every phase. `dec.tree`, `dec.cursor`, `dec.cur` and `dec.pend`, which it does not write, keep
what they held (log entry 5). -/
def execDecInit (hint : Word) (s : State) : Host.Outcome State Fault Refusal :=
  if hintLegal s.params.decBufMax hint then
    .next ({ s with dec := { s.dec with
                              phase := .header
                              count := Vector.replicate 256 0
                              hdrRem := 1024
                              cap := operand hint
                              out := []
                              pendValid := false
                              bitsLeft := 0 } }.answer .success 0 [])
  else .next s.refuse

/-- The response of a DEC_FEED whose loop has ended (R152). -/
def decFeedAnswer (s : State) : FeedEnd → Host.Outcome State Fault Refusal
  | .fin status i d => .next ({ s with dec := d }.answer status i [])
  | .off => .refused .offInvariant

/-- DEC_FEED (R152). -/
def execDecFeed (data : List Byte) (s : State) : Host.Outcome State Fault Refusal :=
  match s.dec.phase with
  | .header | .payload =>
    match flushPending s.dec with
    | none => .next (s.answer .outputFull 0 [])
    | some d => decFeedAnswer s (decFeedLoop s.params data 0 d)
  | .idle | .done | .fault => .next s.refuse

/-- DEC_READY (R156). -/
def execDecReady (s : State) : Host.Outcome State Fault Refusal :=
  match s.dec.phase with
  | .header | .payload | .done | .fault => .next (s.answer .success s.dec.nout [])
  | .idle => .next s.refuse

/-- Remove `k` bytes from the front of the output buffer (20_memory.md R55). -/
def Dec.dropFront (d : Dec) (k : Nat) : Dec := { d with out := d.out.drop k }

/-- DEC_DRAIN (R157). -/
def execDecDrain (maxLen : Word) (s : State) : Host.Outcome State Fault Refusal :=
  match s.dec.phase with
  | .header | .payload | .done | .fault =>
    let k := min (operand maxLen) s.dec.nout
    .next ({ s with dec := s.dec.dropFront k }.answer .success k (s.dec.out.take k))
  | .idle => .next s.refuse

/-- DEC_CODEOF (R119). -/
def execDecCodeof (symbol : Word) (s : State) : Host.Outcome State Fault Refusal :=
  match s.dec.phase with
  | .payload | .done =>
    if symbolLegal symbol then
      match codeOf s.dec.tree (operand symbol) with
      | some c => .next (s.answer .success c.length (packCode c))
      | none => .fault .codeWalkStuck
    else .next s.refuse
  | .idle | .header | .fault => .next s.refuse

end Sys2Proof.Machine
end

