-- ==== Sys2Proof/Machine/StreamEncoder.lean ====
section
/-! DEFINITION. The StreamEncoder commands ENC_INIT, ENC_FEED, ENC_END, ENC_READY, ENC_DRAIN (43_stream_encoder.md R130 to R136) and ENC_CODEOF (42_huffman_tree.md R118). -/

namespace Sys2Proof.Machine

/-- ENC_INIT (R130): accepted in every phase. -/
def execEncInit (hint : Word) (s : State) : Host.Outcome State Fault Refusal :=
  if hintLegal s.params.bufMax hint then
    .next ({ s with enc := { phase := .active
                             count := s.ft.count
                             tree := buildTree s.ft.count
                             hdrRem := 1024
                             cap := operand hint
                             buf := BitBuf.empty } }.answer .success 0 [])
  else .next s.refuse

/-- The loop of R133 with the bytes still to encode and the number encoded. -/
def encFeedLoop : List Byte → (encoded : Nat) → State → Host.Outcome State Fault Refusal
  | [], i, s => .next (s.answer .success i [])
  | b :: bs, i, s =>
    match encSymbol b.toNat s with
    | .ok t => encFeedLoop bs (i + 1) t
    | .fail status t => .next (t.answer status i [])
    | .stuck f => .fault f

/-- ENC_FEED (R133). -/
def execEncFeed (data : List Byte) (s : State) : Host.Outcome State Fault Refusal :=
  match s.enc.phase with
  | .active => encFeedLoop data 0 s
  | .idle | .ended => .next s.refuse

/-- The end of R134 after the EOF code: pad the partial byte, phase ENDED. -/
def encFinish (s : State) : State :=
  { s with enc := { s.enc with buf := s.enc.buf.pad, phase := .ended } }

/-- ENC_END (R134). -/
def execEncEnd (s : State) : Host.Outcome State Fault Refusal :=
  match s.enc.phase with
  | .active =>
    match encSymbol 256 s with
    | .ok t => .next ((encFinish t).answer .success 0 [])
    | .fail status t => .next (t.answer status 0 [])
    | .stuck f => .fault f
  | .idle | .ended => .next s.refuse

/-- The bytes ready to drain: `enc.hdr_rem + enc.nbytes` (R135). -/
def Enc.ready (e : Enc) : Nat := e.hdrRem.val + e.buf.nbytes

/-- ENC_READY (R135). -/
def execEncReady (s : State) : Host.Outcome State Fault Refusal :=
  match s.enc.phase with
  | .active | .ended => .next (s.answer .success s.enc.ready [])
  | .idle => .next s.refuse

/-- The bytes that a drain of `h` header bytes and `d` payload bytes returns (R136). -/
def Enc.drained (e : Enc) (h d : Nat) : List Byte :=
  headerBytes e.count (1024 - e.hdrRem.val) h ++ e.buf.bytes.take d

/-- The unit after a drain of `h` header bytes and `d` payload bytes (R136, 20_memory.md R55). -/
def Enc.afterDrain (e : Enc) (h d : Nat) : Enc :=
  { e with hdrRem := ⟨e.hdrRem.val - h, by omega⟩, buf := e.buf.dropFront d }

/-- ENC_DRAIN (R136). -/
def execEncDrain (maxLen : Word) (s : State) : Host.Outcome State Fault Refusal :=
  match s.enc.phase with
  | .active | .ended =>
    let k := min (operand maxLen) s.enc.ready
    let h := min k s.enc.hdrRem.val
    .next ({ s with enc := s.enc.afterDrain h (k - h) }.answer .success k (s.enc.drained h (k - h)))
  | .idle => .next s.refuse

/-- ENC_CODEOF (R118). -/
def execEncCodeof (symbol : Word) (s : State) : Host.Outcome State Fault Refusal :=
  match s.enc.phase with
  | .active | .ended =>
    if symbolLegal symbol then
      match codeOf s.enc.tree (operand symbol) with
      | some c => .next (s.answer .success c.length (packCode c))
      | none => .fault .codeWalkStuck
    else .next s.refuse
  | .idle => .next s.refuse

end Sys2Proof.Machine
end

