-- ==== Sys2Proof/Machine/System.lean ====
section
/-! DEFINITION. The system commands SYS_RESET and SYS_STATUS (45_system_commands.md R170, R171). -/

namespace Sys2Proof.Machine

/-- SYS_RESET (R170): the command form of the reset event. -/
def execSysReset (s : State) : Host.Outcome State Fault Refusal :=
  .next (s.resetUnits.answer .success 0 [])

/-- SYS_STATUS (R171). -/
def execSysStatus (s : State) : Host.Outcome State Fault Refusal :=
  .next (s.answer .success (statusWord s) [])

end Sys2Proof.Machine
end

