-- ==== Sys2Proof/Machine/Dispatch.lean ====
section
/-! DEFINITION. One arm per command: the meaning of every instruction of the opcode table (30_encoding.md R61). -/

namespace Sys2Proof.Machine

def exec (i : Instr) (s : State) : Host.Outcome State Fault Refusal :=
  match i with
  | .sysReset => Sys2Proof.Machine.execSysReset s
  | .sysStatus => Sys2Proof.Machine.execSysStatus s
  | .ftInit => Sys2Proof.Machine.execFtInit s
  | .ftFeed data => Sys2Proof.Machine.execFtFeed data s
  | .ftCount symbol => Sys2Proof.Machine.execFtCount symbol s
  | .ftTotal => Sys2Proof.Machine.execFtTotal s
  | .encInit hint => Sys2Proof.Machine.execEncInit hint s
  | .encFeed data => Sys2Proof.Machine.execEncFeed data s
  | .encEnd => Sys2Proof.Machine.execEncEnd s
  | .encReady => Sys2Proof.Machine.execEncReady s
  | .encDrain maxLen => Sys2Proof.Machine.execEncDrain maxLen s
  | .encCodeof symbol => Sys2Proof.Machine.execEncCodeof symbol s
  | .decInit hint => Sys2Proof.Machine.execDecInit hint s
  | .decFeed data => Sys2Proof.Machine.execDecFeed data s
  | .decReady => Sys2Proof.Machine.execDecReady s
  | .decDrain maxLen => Sys2Proof.Machine.execDecDrain maxLen s
  | .decCodeof symbol => Sys2Proof.Machine.execDecCodeof symbol s

end Sys2Proof.Machine
end

