-- ==== Sys2Proof/Machine/Step.lean ====
section
/-! DEFINITION. One step of the machine: one host event (10_state.md R10, R14; log entry 1). -/

namespace Sys2Proof.Machine

/-- One step. With no event pending the block is idle with all state retained (60_exceptions.md R193); the reset event acts
on the units (70_reset_and_hazards.md R200); a command record is decoded and run to its response (R10, R60). -/
def step (s : State) : Host.Outcome State Fault Refusal :=
  match s.inbox with
  | [] => .next s
  | .reset :: _ => .next s.popInbox.resetUnits
  | .issue c :: _ =>
    match decode c with
    | .ok i => exec i s.popInbox
    | .error r => rejectCommand r s.popInbox

/-- The state with the command of the table word `w` at the head of the inbox, so that the very next step runs it (log
entry 1). -/
def State.withFetchWord (s : State) (nbits w : Nat) : State :=
  { s with inbox := .issue (tableCommand nbits w) :: s.inbox }

end Sys2Proof.Machine
end

