-- ==== Sys2Proof/Safety.lean ====
section
/-! DEFINITION. What claims about HUFFCORE are stated in: the machine invariant, well-driven runs, the bit views of the buffers, whole-stream runs (30_encoding.md R78) and the agreement of two states on everything that has been written (10_state.md R37). -/

namespace Sys2Proof.Machine

/-! ## The machine invariant -/

/-- R12: `ft.total = 1 + Σ ft.count[s]` and `ft.total ≤ CMAX`. -/
structure Ft.Inv (p : Params) (f : Ft) : Prop where
  total_eq : f.total = tableTotal f.count
  total_le : f.total ≤ p.cmax

/-- An encoder has been constructed (R22, R24, R25; 43_stream_encoder.md R139). -/
structure Enc.Session (p : Params) (e : Enc) : Prop where
  tree_eq : e.tree = buildTree e.count
  total_le : tableTotal e.count ≤ p.cmax
  cap_pos : 1 ≤ e.cap
  cap_le : e.cap ≤ p.bufMax
  room : e.buf.nbytes + (if 0 < e.buf.nbits.val then 1 else 0) ≤ e.cap

/-- The encoder's invariant (R20 to R25). `part_lt` says that the bits above `nbits - 1` of the partial byte are 0 (43_stream_encoder.md R132). -/
structure Enc.Inv (p : Params) (e : Enc) : Prop where
  part_lt : e.buf.part.toNat < 2 ^ e.buf.nbits.val
  idle_nbits : e.phase = .idle → e.buf.nbits = 0
  ended_nbits : e.phase = .ended → e.buf.nbits = 0
  session : e.phase ≠ .idle → e.Session p

/-- The decoder's invariant (R28 to R33; 44_stream_decoder.md R152). -/
structure Dec.Inv (p : Params) (d : Dec) : Prop where
  idle : d.phase = .idle → d.bitsLeft = 0 ∧ d.pendValid = false
  session : d.phase ≠ .idle → 1 ≤ d.cap ∧ d.cap ≤ p.decBufMax ∧ d.nout ≤ d.cap
  header : d.phase = .header → 0 < d.hdrRem.val ∧ d.bitsLeft = 0 ∧ d.pendValid = false ∧ d.out = []
  absorbed : d.phase = .header ∨ d.phase = .fault →
    ∀ s < 256, countOf d.count s < 256 ^ min 4 (1024 - d.hdrRem.val - 4 * s)
  fault : d.phase = .fault →
    d.hdrRem = 0 ∧ d.bitsLeft = 0 ∧ d.pendValid = false ∧ d.out = [] ∧ tableValid p.cmax d.count = false
  built : d.phase = .payload ∨ d.phase = .done →
    d.hdrRem = 0 ∧ d.tree = buildTree d.count ∧ tableTotal d.count ≤ p.cmax
  cursor : d.phase = .payload → 257 ≤ d.cursor ∧ d.cursor ≤ 512
  latch : d.phase = .payload → d.bitsLeft.val ≤ 7 ∧ (0 < d.bitsLeft.val → d.pendValid = true)
  pending : d.pendValid = true → d.phase = .payload ∧ d.cursor = 512
  done : d.phase = .done → d.bitsLeft = 0

/-- What every step keeps: legal parameters and the invariants of the three units. -/
structure State.Inv (s : State) : Prop where
  params : s.params.legal
  ft : s.ft.Inv s.params
  enc : s.enc.Inv s.params
  dec : s.dec.Inv s.params

/-! ## Well-driven runs -/

/-- No command of the run broke the contract: "A model should treat every ContractViolation as a **refusal**: the host broke
the contract" (60_exceptions.md R182, R187, 93_implementation_defined.md U1, U8; log entry 8). Claims about sessions take
this as a premise. -/
def State.wellDriven (s : State) : Prop := ∀ r ∈ s.responses, r.status ≠ .contractViolation

/-! ## How outcomes and decoding sessions are classed (R187) -/

/-- The classes of R187. -/
inductive OutcomeClass where
  /-- ContractViolation: the run is misdriven. -/
  | refusal
  /-- A defined result of a total function, the state after it fully specified; not a fault, and final for no decoding session. -/
  | ordinary
  /-- Overflow at DEC_FEED: a fault of the session. -/
  | sessionFault
  /-- OutputFull: no enabled progress until another command lifts the hold. -/
  | hold
  /-- Done: "the only final outcome of a decoding session". -/
  | final
  deriving DecidableEq, Repr

/-- The class of a command's outcome, by its status (R187). Overflow at any command but DEC_FEED is FT_FEED's (R181). -/
def outcomeClass (i : Instr) (status : Status) : OutcomeClass :=
  match status with
  | .contractViolation => .refusal
  | .success | .outOfMemory | .tooMuchData => .ordinary
  | .overflow => if i.mnemonic = .decFeed then .sessionFault else .ordinary
  | .outputFull => .hold
  | .done => .final

/-- How a decoding session stands between two commands. -/
inductive Standing where
  /-- No decoder has been constructed. -/
  | none
  /-- A symbol is pending and the buffer is full: stuck until a DEC_DRAIN (R155, R187, U12). -/
  | held
  /-- In HEADER or PAYLOAD with progress enabled by more input or by a DEC_FEED: stuck if the host stops here (U11). -/
  | unfinished
  /-- Phase FAULT: "never final for a decoding claim" (R187). -/
  | faulted
  /-- Done has been returned: the only final outcome (R187). -/
  | finished
  deriving DecidableEq, Repr

/-- The standing of the decoder (R187). -/
def Dec.standing (d : Dec) : Standing :=
  match d.phase with
  | .idle => .none
  | .header => .unfinished
  | .payload => if d.pendValid && !d.hasRoom then .held else .unfinished
  | .done => .finished
  | .fault => .faulted

/-- Nothing has gone wrong so far: neither misdriven nor faulted. The session may still be held or unfinished. -/
def State.soundSession (s : State) : Prop := s.wellDriven ∧ s.dec.standing ≠ .faulted

/-- A decoding session that has its final outcome: well driven, and Done has been returned (R187). -/
def State.finishedSession (s : State) : Prop := s.wellDriven ∧ s.dec.standing = .finished

/-- A well-driven run that ends here is stuck, not finished: held by a full buffer (R187, U12) or short of input (U11). -/
def State.stuckSession (s : State) : Prop :=
  s.wellDriven ∧ (s.dec.standing = .held ∨ s.dec.standing = .unfinished)

/-- The last response returned. -/
def State.lastResponse (s : State) : Option Response := s.responses.getLast?

/-- A list of commands issued in order, each run to its response. -/
def issueAll : List Instr → State → Host.Outcome State Fault Refusal
  | [], s => .next s
  | i :: is, s =>
    match exec i s with
    | .next t => issueAll is t
    | .fault f => .fault f
    | .refused r => .refused r

/-- An encoding session in one piece: the table of `counted`, then `data` encoded under it and drained. The two may differ
(43_stream_encoder.md R138). -/
def encodeSession (hint : Word) (counted data : List Byte) : List Instr :=
  [.ftInit, .ftFeed counted, .encInit hint, .encFeed data, .encEnd, .encDrain 0xFFFFFFFF]

/-- The commands that ENCODE_ALL expands to (R78): data encoded under its own table. -/
def encodeAll (hint : Word) (data : List Byte) : List Instr := encodeSession hint data data

/-- The loop of DECODE_ALL (R78): DEC_FEED, and while it returns OutputFull, DEC_DRAIN and DEC_FEED of the unconsumed suffix;
then a final DEC_DRAIN. The result is the concatenation of all drained bytes and the status of the last DEC_FEED, which says
whether the session is finished: only with Done (R187). Success is a session short of input, Overflow a faulted one. There is
none where a command does not answer so, and none after `fuel` feeds, the session then being held. -/
def decodeLoop : (fuel : Nat) → List Byte → State → Option (List Byte × Status)
  | 0, _, _ => none
  | fuel + 1, wire, s =>
    match exec (.decFeed wire) s with
    | .next t =>
      match exec (.decDrain 0xFFFFFFFF) t, t.lastResponse with
      | .next u, some r =>
        let drained := (u.lastResponse.map Response.data).getD []
        match r.status with
        | .outputFull => (decodeLoop fuel (wire.drop r.val.toNat) u).map fun x => (drained ++ x.1, x.2)
        | .done => some (drained, .done)
        | .success => some (drained, .success)
        | .overflow => some (drained, .overflow)
        | .outOfMemory | .tooMuchData | .contractViolation => none
      | _, _ => none
    | .fault _ => none
    | .refused _ => none

/-- DECODE_ALL (R78). -/
def decodeAll (fuel : Nat) (hint : Word) (wire : List Byte) (s : State) : Option (List Byte × Status) :=
  match exec (.decInit hint) s with
  | .next t => decodeLoop fuel wire t
  | .fault _ => none
  | .refused _ => none

/-! ## Bit views -/

/-- The bits of a byte, low bit first (20_memory.md R43). -/
def byteBits (b : Byte) : List Bool := (List.range 8).map fun k => b.getLsbD k

/-- The bits that have been placed in a buffer and not drained, in production order. -/
def BitBuf.bits (b : BitBuf) : List Bool := b.bytes.flatMap byteBits ++ (byteBits b.part).take b.nbits.val

/-- Zero bits appended until the length is a multiple of 8 (30_encoding.md R73). -/
def zeroPad (bits : List Bool) : List Bool := bits ++ List.replicate ((8 - bits.length % 8) % 8) false

/-- The codes of a byte sequence, one after another (R73); none if some symbol has no code. -/
def codesOf (t : Tree) : List Byte → Option (List Bool)
  | [] => some []
  | b :: bs =>
    match codeOf t b.toNat, codesOf t bs with
    | some c, some cs => some (c ++ cs)
    | _, _ => none

/-- The bits of the latched byte that have not been walked (10_state.md R31). -/
def Dec.latchedBits (d : Dec) : List Bool := (byteBits d.cur).drop (8 - d.bitsLeft.val)

/-- The byte held in the pending register, if one is. -/
def Dec.pendingBytes (d : Dec) : List Byte := if d.pendValid then [d.pend] else []

/-- What a bit sequence decodes to. -/
structure Decoded where
  /-- The literals before EOF. -/
  symbols : List Byte
  /-- The cursor after the last bit walked. -/
  cursor : Nat
  /-- EOF was reached. -/
  eof : Bool
  /-- The number of bits walked: up to and including the last bit of EOF, else all. -/
  used : Nat
  deriving DecidableEq, Repr

/-- Walk a bit sequence from a cursor through DecodeStep until EOF or the end of the bits (42_huffman_tree.md R116, R117). -/
def decodeBits (t : Tree) : (cursor : Nat) → List Bool → Decoded
  | cursor, [] => { symbols := [], cursor := cursor, eof := false, used := 0 }
  | cursor, bit :: bits =>
    match decodeStep t cursor bit with
    | none => { symbols := [], cursor := cursor, eof := false, used := 0 }
    | some (next, none) =>
      let r := decodeBits t next bits
      { r with used := r.used + 1 }
    | some (next, some sym) =>
      if sym = 256 then { symbols := [], cursor := next, eof := true, used := 1 }
      else
        let r := decodeBits t next bits
        { r with symbols := BitVec.ofNat 8 sym :: r.symbols, used := r.used + 1 }

/-- Room for `l` more bits in the encoder's buffer: there already, or by one granted growth within BUF_MAX (43_stream_encoder.md R131). -/
def State.roomFor (s : State) (l : Nat) : Prop :=
  s.enc.buf.need l ≤ s.enc.cap ∨
    s.grants.head? = some true ∧ ∃ k, s.enc.buf.need l ≤ s.enc.cap * 2 ^ k ∧ s.enc.cap * 2 ^ k ≤ s.params.bufMax

/-! ## Phases, statuses and causes as the whole-machine tables give them -/

/-- The statuses a command can return (60_exceptions.md R181). -/
def allowedStatuses : Instr → List Status
  | .sysReset => [.success]
  | .sysStatus => [.success]
  | .ftInit => [.success]
  | .ftFeed _ => [.success, .overflow]
  | .ftCount _ => [.success, .contractViolation]
  | .ftTotal => [.success]
  | .encInit _ => [.success, .contractViolation]
  | .encFeed _ => [.success, .outOfMemory, .tooMuchData, .contractViolation]
  | .encEnd => [.success, .outOfMemory, .tooMuchData, .contractViolation]
  | .encReady => [.success, .contractViolation]
  | .encDrain _ => [.success, .contractViolation]
  | .encCodeof _ => [.success, .contractViolation]
  | .decInit _ => [.success, .contractViolation]
  | .decFeed _ => [.success, .overflow, .contractViolation, .done, .outputFull]
  | .decReady => [.success, .contractViolation]
  | .decDrain _ => [.success, .contractViolation]
  | .decCodeof _ => [.success, .contractViolation]

/-- The causes of ContractViolation for an assigned opcode, items (2) to (9) of R182. -/
def violates (i : Instr) (s : State) : Prop :=
  match i with
  | .sysReset | .sysStatus | .ftInit | .ftFeed _ | .ftTotal => False
  | .ftCount symbol => 255 < symbol.toNat
  | .encInit hint => hint.toNat = 0 ∨ s.params.bufMax < hint.toNat
  | .encFeed _ | .encEnd => s.enc.phase ≠ .active
  | .encReady | .encDrain _ => s.enc.phase = .idle
  | .encCodeof symbol => s.enc.phase = .idle ∨ 256 < symbol.toNat
  | .decInit hint => hint.toNat = 0 ∨ s.params.decBufMax < hint.toNat
  | .decFeed _ => s.dec.phase = .idle ∨ s.dec.phase = .done ∨ s.dec.phase = .fault
  | .decReady | .decDrain _ => s.dec.phase = .idle
  | .decCodeof symbol =>
    s.dec.phase = .idle ∨ s.dec.phase = .header ∨ s.dec.phase = .fault ∨ 256 < symbol.toNat

/-- `enc.phase` after a command that returned a status (70_reset_and_hazards.md R203). -/
def encPhaseAfter (i : Instr) (status : Status) (before : EncPhase) : EncPhase :=
  match i, status with
  | .sysReset, _ => .idle
  | .encInit _, .success => .active
  | .encEnd, .success => .ended
  | _, _ => before

/-- `dec.phase` after a command that returned a status, `rem` header bytes being left (R203). -/
def decPhaseAfter (i : Instr) (status : Status) (before : DecPhase) (rem : Nat) : DecPhase :=
  match i, status with
  | .sysReset, _ => .idle
  | .decInit _, .success => .header
  | .decFeed _, .overflow => .fault
  | .decFeed _, .done => .done
  | .decFeed _, .success | .decFeed _, .outputFull => if rem = 0 then .payload else .header
  | _, _ => before

/-- The unit a command belongs to (30_encoding.md R61). -/
inductive BlockUnit where
  | system | ft | enc | dec
  deriving DecidableEq, Repr

/-- The unit of a command. -/
def unitOf : Instr → BlockUnit
  | .sysReset | .sysStatus => .system
  | .ftInit | .ftFeed _ | .ftCount _ | .ftTotal => .ft
  | .encInit _ | .encFeed _ | .encEnd | .encReady | .encDrain _ | .encCodeof _ => .enc
  | .decInit _ | .decFeed _ | .decReady | .decDrain _ | .decCodeof _ => .dec

/-- The outcome with its next state changed by `f`. -/
def onNext (f : State → State) : Host.Outcome State Fault Refusal → Host.Outcome State Fault Refusal
  | .next s => .next (f s)
  | .fault r => .fault r
  | .refused r => .refused r

/-! ## Agreement on everything that has been written (R36, R37, U7) -/

/-- Two encoders agree on everything a command may read. -/
structure Enc.Agree (a b : Enc) : Prop where
  phase : a.phase = b.phase
  nbits : a.buf.nbits = b.buf.nbits
  session : a.phase ≠ .idle → a = b

/-- Two decoders agree on everything a command may read. -/
structure Dec.Agree (a b : Dec) : Prop where
  phase : a.phase = b.phase
  pendValid : a.pendValid = b.pendValid
  bitsLeft : a.bitsLeft = b.bitsLeft
  session : a.phase ≠ .idle → a.count = b.count ∧ a.hdrRem = b.hdrRem ∧ a.cap = b.cap ∧ a.out = b.out
  built : a.phase = .payload ∨ a.phase = .done → a.tree = b.tree
  cursor : a.phase = .payload → a.cursor = b.cursor
  latch : 0 < a.bitsLeft.val → a.cur = b.cur
  pending : a.pendValid = true → a.pend = b.pend

/-- Two states agree on everything that has been written: they may differ only in what R36 and R37 leave unspecified. -/
structure State.Agree (s t : State) : Prop where
  params : s.params = t.params
  ft : s.ft = t.ft
  enc : s.enc.Agree t.enc
  dec : s.dec.Agree t.dec
  inbox : s.inbox = t.inbox
  grants : s.grants = t.grants
  growAsked : s.growAsked = t.growAsked
  responses : s.responses = t.responses

/-- Two outcomes agree: both next with agreeing states, or the same stop. -/
def outcomesAgree (a b : Host.Outcome State Fault Refusal) : Prop :=
  match a, b with
  | .next s, .next t => s.Agree t
  | .fault f, .fault g => f = g
  | .refused f, .refused g => f = g
  | _, _ => False

end Sys2Proof.Machine
end

