-- ==== Sys2Proof/Certificates/Slice0/Obligations.lean ====
section
/-! DEFINITION. The statements for the provers, one `def Obligations.<Name> : Prop` each, in the order of OBLIGATIONS.json. -/

open Sys2Proof Sys2Proof.Machine

/-! ## Encodings (30_encoding.md) -/

/-- Command words written out from R60, R61 and R77 decode to what they stand for; a feed takes its data bytes; a reserved
opcode and a record of a wrong data length are rejected by name. -/
def Obligations.WrittenWordsDecode : Prop :=
  decode { word := 0x2000000010, data := [] } = .ok (.encInit 16) ∧
  decode { word := 0x1100000004, data := [0x41, 0x41, 0x41, 0x42] } = .ok (.ftFeed [0x41, 0x41, 0x41, 0x42]) ∧
  decode { word := 0x1200000041, data := [] } = .ok (.ftCount 65) ∧
  decode { word := 0x01DEADBEEF, data := [] } = .ok .sysReset ∧
  decode { word := 0x3500000042, data := [] } = .ok (.decCodeof 66) ∧
  decode { word := 0x3400000001, data := [] } = .ok (.decDrain 1) ∧
  decode { word := 0x3200000000, data := [] } = .error (.reservedOpcode 0x32) ∧
  decode { word := 0x2100000002, data := [0x00] } = .error (.dataLength .encFeed)

/-- Decode and encode agree: every well-formed command, with every operand and every data sequence its encoding admits. -/
def Obligations.DecodeOfEncode : Prop := ∀ i : Instr, i.wellFormed = true → decode (encode i) = .ok i

/-- Every command record that decodes has a canonical record with the same opcode and data, and the same operand unless the
operand is one R61 lists as ignored; no bit of a read operand is dropped. -/
def Obligations.EncodeOfDecode : Prop :=
  ∀ (c : Command) (i : Instr), decode c = .ok i →
    i.wellFormed = true ∧ (encode i).data = c.data ∧ (encode i).word.extractLsb' 32 8 = c.word.extractLsb' 32 8 ∧
      (i ∈ [.sysReset, .sysStatus, .ftInit, .ftTotal, .encEnd, .encReady, .decReady] ∨ (encode i).word = c.word)

/-- R66, R172: a command whose opcode is none of the 17 assigned ones is answered (ContractViolation, 0, empty); nothing else
changes but that the command has been taken from the host. -/
def Obligations.ReservedOpcodeRefused : Prop :=
  ∀ (s : State) (c : Command) (rest : List HostEvent), s.inbox = .issue c :: rest →
    (let op := (c.word.extractLsb' 32 8).toNat
     op = 0x00 ∨ (0x03 ≤ op ∧ op ≤ 0x0F) ∨ (0x14 ≤ op ∧ op ≤ 0x1F) ∨ (0x26 ≤ op ∧ op ≤ 0x2F) ∨ op = 0x32 ∨
       (0x36 ≤ op ∧ op ≤ 0xFF)) →
    step s = .next { s with
      inbox := rest
      responses := s.responses ++ [{ status := .contractViolation, val := 0, data := [] }] }

/-! ## The step and the reset event -/

/-- A step runs the decoded command: the model's own reading of R10 and R14 (log entry 1). -/
def Obligations.StepRunsDecodedCommand : Prop :=
  ∀ (s : State) (c : Command) (i : Instr) (rest : List HostEvent), s.inbox = .issue c :: rest → decode c = .ok i →
    step s = exec i { s with inbox := rest }

/-- With nothing pending the block is idle with all state retained (R193); the reset event has the same effect on the units
as SYS_RESET (R200). -/
def Obligations.IdleAndResetEvent : Prop :=
  (∀ s : State, s.inbox = [] → step s = .next s) ∧
  ∀ (s : State) (rest : List HostEvent), s.inbox = .reset :: rest →
    ∃ t u : State, step s = .next t ∧ exec .sysReset s = .next u ∧
      t.ft = u.ft ∧ t.enc = u.enc ∧ t.dec = u.dec ∧ t.responses = s.responses ∧ t.inbox = rest ∧
      t.params = s.params ∧ t.grants = s.grants ∧ t.growAsked = s.growAsked

/-- R36: the values the spec gives after reset, and STATUS. -/
def Obligations.ResetValues : Prop :=
  (∀ i, (h : i < 256) → State.reset.ft.count[i] = 0) ∧ State.reset.ft.total = 1 ∧
  State.reset.enc.phase = .idle ∧ State.reset.enc.buf.nbits = 0 ∧
  State.reset.dec.phase = .idle ∧ State.reset.dec.pendValid = false ∧ State.reset.dec.bitsLeft = 0 ∧
  statusWord State.reset = 0

/-- R170: SYS_RESET in every state. (What the other fields of ENC and DEC hold is unspecified there.) -/
def Obligations.SysResetResets : Prop :=
  ∀ s : State, ∃ t : State, exec .sysReset s = .next t ∧
    (∀ i, (h : i < 256) → t.ft.count[i] = 0) ∧ t.ft.total = 1 ∧
    t.enc.phase = .idle ∧ t.enc.buf.nbits = 0 ∧
    t.dec.phase = .idle ∧ t.dec.pendValid = false ∧ t.dec.bitsLeft = 0 ∧
    t.responses = s.responses ++ [{ status := .success, val := 0, data := [] }] ∧
    t.params = s.params ∧ t.inbox = s.inbox ∧ t.grants = s.grants ∧ t.growAsked = s.growAsked

/-- R16, R171: SYS_STATUS returns the STATUS word, every field at its place and every other bit 0, and changes nothing. -/
def Obligations.SysStatusFields : Prop :=
  ∀ s : State, ∃ v : Word,
    exec .sysStatus s = .next { s with responses := s.responses ++ [{ status := .success, val := v, data := [] }] } ∧
    v.extractLsb' 0 2 = BitVec.ofNat 2 s.enc.phase.code ∧ v.extractLsb' 2 2 = 0 ∧
    v.extractLsb' 4 3 = BitVec.ofNat 3 s.dec.phase.code ∧ v.extractLsb' 7 1 = 0 ∧
    v.extractLsb' 8 1 = BitVec.ofBool s.dec.pendValid ∧ v.extractLsb' 9 3 = 0 ∧
    v.extractLsb' 12 4 = BitVec.ofNat 4 s.dec.bitsLeft.val ∧
    v.extractLsb' 16 3 = BitVec.ofNat 3 s.enc.buf.nbits.val ∧ v.extractLsb' 19 13 = 0

/-! ## Whole-machine rules -/

/-- Every step keeps the invariant, from every state that has it. -/
def Obligations.StepKeepsInvariant : Prop := ∀ s t : State, s.Inv → step s = .next t → t.Inv

/-- The state after reset has the invariant. -/
def Obligations.ResetHasInvariant : Prop := State.reset.Inv

/-- From a state with the invariant no command stops the machine: every command is answered. -/
def Obligations.EveryCommandAnswered : Prop :=
  ∀ (i : Instr) (s : State), s.Inv → ∃ t r, exec i s = .next t ∧ t.responses = s.responses ++ [r]

/-- R36, R37, U7: what the spec leaves unspecified cannot be observed. Two states that agree on everything written stay so
and give the same responses. -/
def Obligations.UnwrittenStateUnobservable : Prop :=
  ∀ s t : State, s.Agree t → outcomesAgree (step s) (step t)

/-- R38: the three units are independent. An FT command neither reads nor writes ENC or DEC; a DEC command neither reads nor
writes FT or ENC; an ENC command neither reads nor writes DEC and does not write FT, which only ENC_INIT reads. -/
def Obligations.UnitsIndependent : Prop :=
  ∀ (i : Instr) (s : State) (f : Ft) (e : Enc) (d : Dec),
    (unitOf i = .ft → exec i { s with enc := e, dec := d } = onNext (fun t => { t with enc := e, dec := d }) (exec i s)) ∧
    (unitOf i = .dec → exec i { s with ft := f, enc := e } = onNext (fun t => { t with ft := f, enc := e }) (exec i s)) ∧
    (unitOf i = .enc → exec i { s with dec := d } = onNext (fun t => { t with dec := d }) (exec i s)) ∧
    (unitOf i = .enc → (∀ hint, i ≠ .encInit hint) →
      exec i { s with ft := f } = onNext (fun t => { t with ft := f }) (exec i s)) ∧
    (∀ t, exec i s = .next t →
      (unitOf i = .ft → t.enc = s.enc ∧ t.dec = s.dec) ∧ (unitOf i = .enc → t.ft = s.ft ∧ t.dec = s.dec) ∧
      (unitOf i = .dec → t.ft = s.ft ∧ t.enc = s.enc))

/-- The frame of every command: the parameters and the host's pending events are unchanged, earlier responses are kept and
exactly one is added (R63); only ENC_FEED and ENC_END ask for growth; a read command and SYS_STATUS change no unit (R47). -/
def Obligations.CommandFrame : Prop :=
  ∀ (i : Instr) (s t : State), exec i s = .next t →
    t.params = s.params ∧ t.inbox = s.inbox ∧ (∃ r, t.responses = s.responses ++ [r]) ∧
    (i ≠ .encEnd → (∀ data, i ≠ .encFeed data) → t.grants = s.grants ∧ t.growAsked = s.growAsked) ∧
    (i.mnemonic ∈ [.sysStatus, .ftCount, .ftTotal, .encReady, .encCodeof, .decReady, .decCodeof] →
      t.ft = s.ft ∧ t.enc = s.enc ∧ t.dec = s.dec)

/-- R181: no command returns a status outside its row of the table. -/
def Obligations.StatusesOfCommands : Prop :=
  ∀ (i : Instr) (s t : State), exec i s = .next t →
    ∃ r, t.responses = s.responses ++ [r] ∧ r.status ∈ allowedStatuses i

/-- R182: ContractViolation is returned exactly for the causes listed, with `val = 0`, no data and no state change whatever. -/
def Obligations.ContractViolationExactly : Prop :=
  (∀ (i : Instr) (s : State), violates i s →
    exec i s = .next { s with
      responses := s.responses ++ [{ status := .contractViolation, val := 0, data := [] }] }) ∧
  ∀ (i : Instr) (s t : State) (r : Response), exec i s = .next t → t.responses = s.responses ++ [r] →
    r.status = .contractViolation → violates i s

/-- R203: the phase transition table, with every command and outcome not listed leaving the phases unchanged. -/
def Obligations.PhaseTransitions : Prop :=
  ∀ (i : Instr) (s t : State) (r : Response), s.Inv → exec i s = .next t → t.responses = s.responses ++ [r] →
    t.enc.phase = encPhaseAfter i r.status s.enc.phase ∧
    t.dec.phase = decPhaseAfter i r.status s.dec.phase t.dec.hdrRem.val

/-- R14, R112 and the widths of 10_state.md: under the invariant every stored number fits its register, so none ever wraps:
counts, totals and weights 32 bits, the capacities and byte counts 31 bits, the cursor 10 bits. -/
def Obligations.StoredNumbersFit : Prop :=
  ∀ s : State, s.Inv →
    s.ft.total < 2 ^ 32 ∧ (∀ i, (h : i < 256) → s.ft.count[i] + 1 ≤ s.params.cmax) ∧
    (s.enc.phase ≠ .idle →
      (∀ i, (h : i < 256) → s.enc.count[i] + 1 ≤ s.params.cmax) ∧ (∀ n ≤ 512, s.enc.tree.weightOf n ≤ s.params.cmax) ∧
        s.enc.buf.nbytes ≤ s.enc.cap ∧ s.enc.cap < 2 ^ 31) ∧
    (s.dec.phase ≠ .idle → (∀ i, (h : i < 256) → s.dec.count[i] < 2 ^ 32) ∧ s.dec.nout ≤ s.dec.cap ∧ s.dec.cap < 2 ^ 31) ∧
    (s.dec.phase = .payload → s.dec.cursor < 2 ^ 10 ∧ ∀ n ≤ 512, s.dec.tree.weightOf n ≤ s.params.cmax)

/-! ## FrequencyTable (40_frequency_table.md) -/

/-- R90: FT_INIT in every state. -/
def Obligations.FtInitClears : Prop :=
  ∀ s : State, ∃ f : Ft, (∀ i, (h : i < 256) → f.count[i] = 0) ∧ f.total = 1 ∧
    exec .ftInit s = .next { s with
      ft := f, responses := s.responses ++ [{ status := .success, val := 0, data := [] }] }

/-- R91: FT_FEED counts every byte, or on Overflow leaves the table exactly as it was; the invariant of R12 holds in both
outcomes; the order of the bytes and the way they are cut into feeds do not matter. -/
def Obligations.FtFeedCounts : Prop :=
  ∀ (s : State) (data : List Byte), data.length < 2 ^ 32 →
    (s.params.cmax < s.ft.total + data.length →
      exec (.ftFeed data) s = .next { s with
        responses := s.responses ++ [{ status := .overflow, val := 0, data := [] }] }) ∧
    (s.ft.total + data.length ≤ s.params.cmax →
      ∃ f : Ft, f.total = s.ft.total + data.length ∧
        (∀ b : Byte, f.count[b.toNat]'b.isLt = s.ft.count[b.toNat]'b.isLt + data.count b) ∧
        exec (.ftFeed data) s = .next { s with
          ft := f
          responses := s.responses ++ [{ status := .success, val := BitVec.ofNat 32 data.length, data := [] }] } ∧
        (s.ft.total = tableTotal s.ft.count → f.total = tableTotal f.count))

/-- R91: "The order of the bytes within one feed, and the way a sequence is cut into feeds, do not affect the resulting table". -/
def Obligations.FtFeedOrderAndCuts : Prop :=
  ∀ (s : State) (data perm a b : List Byte), data.Perm perm → data = a ++ b → s.ft.total + data.length ≤ s.params.cmax →
    ∃ t u v w : State, exec (.ftFeed data) s = .next t ∧ exec (.ftFeed perm) s = .next u ∧
      exec (.ftFeed a) s = .next v ∧ exec (.ftFeed b) v = .next w ∧ u.ft = t.ft ∧ w.ft = t.ft

/-- R92: FT_COUNT; the largest value it returns in a state with the invariant is CMAX - 1. -/
def Obligations.FtCountReads : Prop :=
  ∀ (s : State) (symbol : Word),
    (∀ h : symbol.toNat < 256, exec (.ftCount symbol) s = .next { s with
      responses := s.responses ++
        [{ status := .success, val := BitVec.ofNat 32 s.ft.count[symbol.toNat], data := [] }] } ∧
      (s.Inv → s.ft.count[symbol.toNat] + 1 ≤ s.params.cmax)) ∧
    (255 < symbol.toNat → exec (.ftCount symbol) s = .next { s with
      responses := s.responses ++ [{ status := .contractViolation, val := 0, data := [] }] })

/-- R93: FT_TOTAL returns the total, which in every state with the invariant is 1 plus the sum of the counts, between 1 and CMAX. -/
def Obligations.FtTotalReads : Prop :=
  ∀ s : State,
    exec .ftTotal s = .next { s with
      responses := s.responses ++ [{ status := .success, val := BitVec.ofNat 32 s.ft.total, data := [] }] } ∧
    (s.Inv → s.ft.total = 1 + s.ft.count.toList.sum ∧ 1 ≤ s.ft.total ∧ s.ft.total ≤ s.params.cmax ∧
      (BitVec.ofNat 32 s.ft.total).toNat = s.ft.total)

/-! ## OrderedQueue (41_ordered_queue.md) -/

/-- R100: the new entry stands immediately before the first entry whose weight is at least its own, else at the back; a queue
sorted by weight stays sorted. -/
def Obligations.QInsertPlace : Prop :=
  ∀ (x : QItem) (q : List QItem),
    qInsert x q = q.takeWhile (fun y => decide (y.weight < x.weight)) ++ x ::
      q.dropWhile (fun y => decide (y.weight < x.weight)) ∧
    (q.Pairwise (fun y z => y.weight ≤ z.weight) → (qInsert x q).Pairwise fun y z => y.weight ≤ z.weight)

/-- R103: the ordered sequence and the collection with sequence numbers remove the same entries for every interleaving of
inserts and removals, and either has no result exactly where the other has none (removal from an empty queue). That last
clause is the model's choice (log entry 20), not R103's: R101 and U3 leave such a removal undefined. -/
def Obligations.QueueFormulationsAgree : Prop := ∀ ops : List QOp, qRun [] ops = heapRun 0 [] ops

/-! ## HuffmanTree (42_huffman_tree.md) -/

/-- R18: what holds of every built tree. -/
def Obligations.BuiltTreeShape : Prop :=
  ∀ count : CountTable,
    let t := buildTree count
    (∀ n < 512, n < t.parentOf n ∧ 257 ≤ t.parentOf n ∧ t.parentOf n ≤ 512 ∧
      (t.leftOf (t.parentOf n) = n ∨ t.rightOf (t.parentOf n) = n)) ∧
    (∀ n, 257 ≤ n → n ≤ 512 →
      t.leftOf n < n ∧ t.rightOf n < n ∧ t.leftOf n ≠ t.rightOf n ∧
      t.parentOf (t.leftOf n) = n ∧ t.parentOf (t.rightOf n) = n ∧
      t.weightOf n = t.weightOf (t.leftOf n) + t.weightOf (t.rightOf n)) ∧
    (∀ s, (h : s < 256) → t.weightOf s = count[s]) ∧ t.weightOf 256 = 1 ∧ t.weightOf 512 = 1 + count.toList.sum

/-- R112: no weight passes the root's, which is `1 + Σ count[s]`; where that is at most CMAX, 32 bits hold every weight. -/
def Obligations.WeightsBounded : Prop :=
  ∀ (p : Params) (count : CountTable), p.legal →
    (buildTree count).weightOf 512 = 1 + count.toList.sum ∧
    (∀ n ≤ 512, (buildTree count).weightOf n ≤ (buildTree count).weightOf 512) ∧
    (1 + count.toList.sum ≤ p.cmax → ∀ n ≤ 512, (buildTree count).weightOf n < 2 ^ 32)

/-- R18, R74, R115(a): every symbol has a code of 1 to 256 bits, and no symbol's code is a prefix of another's. -/
def Obligations.CodesPrefixFree : Prop :=
  ∀ count : CountTable,
    (∀ s ≤ 256, ∃ c, codeOf (buildTree count) s = some c ∧ 1 ≤ c.length ∧ c.length ≤ 256) ∧
    ∀ s ≤ 256, ∀ u ≤ 256, ∀ c d, codeOf (buildTree count) s = some c → codeOf (buildTree count) u = some d →
      c <+: d → s = u

/-- R115(b): a larger count never has a longer code. -/
def Obligations.MonotonicCodeLength : Prop :=
  ∀ (count : CountTable) (s u : Nat) (c d : List Bool), s ≤ 256 → u ≤ 256 →
    codeOf (buildTree count) s = some c → codeOf (buildTree count) u = some d →
    leafWeight count u < leafWeight count s → c.length ≤ d.length

/-- R115(c): the Kraft sum over the 257 symbols is exactly 1 (every term multiplied by 2^256). -/
def Obligations.KraftEquality : Prop :=
  ∀ count : CountTable,
    ((List.range 257).map fun s => 2 ^ (256 - ((codeOf (buildTree count) s).getD []).length)).sum = 2 ^ 256

/-- R115(d): the payload length of the table's own data is the sum of the weights of the 256 internal nodes. -/
def Obligations.PayloadLengthIsInternalWeight : Prop :=
  ∀ count : CountTable,
    ((List.range 257).map fun s => leafWeight count s * ((codeOf (buildTree count) s).getD []).length).sum =
      ((List.range 256).map fun j => (buildTree count).weightOf (257 + j)).sum

/-- R117: the bits of a symbol's code, walked from the root, give no symbol before the last bit and that symbol at it, the
cursor back at the root; walking the codes of some bytes and then the EOF code gives exactly those bytes and EOF. -/
def Obligations.DecodeStepInvertsCodeOf : Prop :=
  ∀ count : CountTable,
    (∀ s ≤ 256, ∃ (c : List Bool) (bit : Bool) (cursor : Nat), codeOf (buildTree count) s = some (c ++ [bit]) ∧
      c.foldlM (fun n b => (decodeStep (buildTree count) n b).bind fun r => if r.2 = none then some r.1 else none) 512 =
        some cursor ∧
      decodeStep (buildTree count) cursor bit = some (512, some s)) ∧
    ∀ (data : List Byte) (padding : List Bool), ∃ codes eof : List Bool,
      codesOf (buildTree count) data = some codes ∧ codeOf (buildTree count) 256 = some eof ∧
      decodeBits (buildTree count) 512 (codes ++ eof ++ padding) =
        { symbols := data, cursor := 512, eof := true, used := (codes ++ eof).length }

/-- R113(c): the codes of the all-zero table. -/
def Obligations.EmptyTableCodes : Prop :=
  codeOf (buildTree (Vector.replicate 256 0)) 256 = some [true] ∧
  (∀ s ≤ 254, codeOf (buildTree (Vector.replicate 256 0)) s = some (List.replicate (s + 1) false ++ [true])) ∧
  codeOf (buildTree (Vector.replicate 256 0)) 255 = some (List.replicate 256 false)

/-- R118 and R119: ENC_CODEOF and DEC_CODEOF return a symbol's code, its length in `val` and bit `k` of the code at bit
`k mod 8` of byte `k div 8`, unused bits 0; nothing else changes. -/
def Obligations.CodeofReturnsCode : Prop :=
  ∀ (s : State) (symbol : Word), s.Inv → symbol.toNat ≤ 256 →
    (s.enc.phase ≠ .idle → ∃ (code : List Bool) (out : List Byte), codeOf s.enc.tree symbol.toNat = some code ∧
      out.length = (code.length + 7) / 8 ∧
      (∀ k < 8 * out.length, (out[k / 8]?.getD 0).getLsbD (k % 8) = code[k]?.getD false) ∧
      exec (.encCodeof symbol) s = .next { s with
        responses := s.responses ++ [{ status := .success, val := BitVec.ofNat 32 code.length, data := out }] }) ∧
    (s.dec.phase = .payload ∨ s.dec.phase = .done → ∃ (code : List Bool) (out : List Byte),
      codeOf s.dec.tree symbol.toNat = some code ∧ out.length = (code.length + 7) / 8 ∧
      (∀ k < 8 * out.length, (out[k / 8]?.getD 0).getLsbD (k % 8) = code[k]?.getD false) ∧
      exec (.decCodeof symbol) s = .next { s with
        responses := s.responses ++ [{ status := .success, val := BitVec.ofNat 32 code.length, data := out }] })

/-! ## StreamEncoder (43_stream_encoder.md) -/

/-- R130: ENC_INIT, in every phase. -/
def Obligations.EncInitConstructs : Prop :=
  ∀ (s : State) (hint : Word),
    (1 ≤ hint.toNat → hint.toNat ≤ s.params.bufMax → ∃ e : Enc,
      e.phase = .active ∧ e.count = s.ft.count ∧ e.tree = buildTree s.ft.count ∧ e.hdrRem.val = 1024 ∧
      e.cap = hint.toNat ∧ e.buf.nbytes = 0 ∧ e.buf.nbits = 0 ∧
      exec (.encInit hint) s = .next { s with
        enc := e, responses := s.responses ++ [{ status := .success, val := 0, data := [] }] }) ∧
    (hint.toNat = 0 ∨ s.params.bufMax < hint.toNat → exec (.encInit hint) s = .next { s with
      responses := s.responses ++ [{ status := .contractViolation, val := 0, data := [] }] })

/-- R131: EncReserve in closed form. With `k` the least number of doublings that suffice: no growth and no request when
`k = 0`; TooMuchData, with nothing changed, when the capacity after `k` doublings would pass BUF_MAX; else one request, whose
answer decides between that capacity and OutOfMemory with the capacity unchanged. -/
def Obligations.EncReserveOutcome : Prop :=
  ∀ (s : State) (l k : Nat), 1 ≤ s.enc.cap →
    8 * s.enc.buf.nbytes + s.enc.buf.nbits.val + l ≤ 8 * (s.enc.cap * 2 ^ k) →
    (∀ j < k, 8 * (s.enc.cap * 2 ^ j) < 8 * s.enc.buf.nbytes + s.enc.buf.nbits.val + l) →
    (k = 0 → encReserve l s = .ok s) ∧
    (0 < k → s.params.bufMax < s.enc.cap * 2 ^ k → encReserve l s = .fail .tooMuchData s) ∧
    (0 < k → s.enc.cap * 2 ^ k ≤ s.params.bufMax →
      (s.grantAnswer = true → encReserve l s = .ok { s with
        enc := { s.enc with cap := s.enc.cap * 2 ^ k }, grants := s.grants.tail, growAsked := s.growAsked + 1 }) ∧
      (s.grantAnswer = false → encReserve l s = .fail .outOfMemory { s with
        grants := s.grants.tail, growAsked := s.growAsked + 1 }))

/-- R132, R133: an ENC_FEED in phase ACTIVE, whatever becomes of it, appends exactly the codes of the bytes it reports
consumed, in order; a short count comes with TooMuchData or OutOfMemory; nothing else changes but the capacity and the
growth answers used up. -/
def Obligations.EncFeedAppendsCodes : Prop :=
  ∀ (s : State) (data : List Byte), s.Inv → s.enc.phase = .active → data.length < 2 ^ 32 →
    ∃ (t : State) (status : Status) (k : Nat) (codes : List Bool), exec (.encFeed data) s = .next t ∧
      t.responses = s.responses ++ [{ status := status, val := BitVec.ofNat 32 k, data := [] }] ∧
      ((status = .success ∧ k = data.length) ∨ ((status = .tooMuchData ∨ status = .outOfMemory) ∧ k < data.length)) ∧
      codesOf s.enc.tree (data.take k) = some codes ∧ t.enc.buf.bits = s.enc.buf.bits ++ codes ∧
      t.enc = { s.enc with cap := t.enc.cap, buf := t.enc.buf } ∧
      t = { s with enc := t.enc, grants := t.grants, growAsked := t.growAsked, responses := t.responses }

/-- R131, R133: where the buffer has room for the codes of all the bytes, ENC_FEED consumes them all with no growth request. -/
def Obligations.EncFeedCompletes : Prop :=
  ∀ (s : State) (data : List Byte) (codes : List Bool), s.Inv → s.enc.phase = .active → data.length < 2 ^ 32 →
    codesOf s.enc.tree data = some codes → s.enc.buf.need codes.length ≤ s.enc.cap →
    ∃ b : BitBuf, b.bits = s.enc.buf.bits ++ codes ∧
      exec (.encFeed data) s = .next { s with
        enc := { s.enc with buf := b }
        responses := s.responses ++ [{ status := .success, val := BitVec.ofNat 32 data.length, data := [] }] }

/-- R133, R184, R185: when room for the first byte's code cannot be made, ENC_FEED returns that status with count 0; no bit of
the code is in the buffer and the encoder is as it was. -/
def Obligations.EncFeedStopsAtFailure : Prop :=
  ∀ (s t : State) (b : Byte) (rest : List Byte) (c : List Bool) (status : Status), s.enc.phase = .active →
    codeOf s.enc.tree b.toNat = some c → encReserve c.length s = .fail status t →
    (status = .tooMuchData ∨ status = .outOfMemory) ∧ t.enc = s.enc ∧ t.ft = s.ft ∧ t.dec = s.dec ∧
      exec (.encFeed (b :: rest)) s = .next { t with
        responses := s.responses ++ [{ status := status, val := 0, data := [] }] }

/-- R134: with room for the EOF code, ENC_END appends it, pads with zero bits to a whole byte, and sets phase ENDED. -/
def Obligations.EncEndCompletes : Prop :=
  ∀ (s : State) (c : List Bool), s.Inv → s.enc.phase = .active → codeOf s.enc.tree 256 = some c → s.roomFor c.length →
    ∃ t : State, exec .encEnd s = .next t ∧
      t.responses = s.responses ++ [{ status := .success, val := 0, data := [] }] ∧
      t.enc.phase = .ended ∧ t.enc.buf.nbits = 0 ∧ t.enc.buf.bits = zeroPad (s.enc.buf.bits ++ c) ∧
      t.enc = { s.enc with phase := .ended, cap := t.enc.cap, buf := t.enc.buf } ∧
      t = { s with enc := t.enc, grants := t.grants, growAsked := t.growAsked, responses := t.responses }

/-- R134, R184, R185: where room for the EOF code cannot be made, ENC_END reports it and leaves the encoder as it was, still
ACTIVE. -/
def Obligations.EncEndFailureChangesNothing : Prop :=
  ∀ s t : State, s.enc.phase = .active → exec .encEnd s = .next t →
    (∃ v d, t.responses = s.responses ++ [{ status := .success, val := v, data := d }]) ∨
    (∃ status, (status = .tooMuchData ∨ status = .outOfMemory) ∧
      t.responses = s.responses ++ [{ status := status, val := 0, data := [] }] ∧
      t.enc = s.enc ∧ t.ft = s.ft ∧ t.dec = s.dec)

/-- R139: `enc.cap` changes only by doubling and never exceeds BUF_MAX, whatever command runs but ENC_INIT and SYS_RESET. -/
def Obligations.CapacityOnlyDoubles : Prop :=
  ∀ (i : Instr) (s t : State), s.Inv → s.enc.phase ≠ .idle → i ≠ .sysReset → (∀ hint, i ≠ .encInit hint) →
    exec i s = .next t → ∃ k, t.enc.cap = s.enc.cap * 2 ^ k ∧ t.enc.cap ≤ s.params.bufMax

/-- R135: ENC_READY returns the number of header bytes left plus fully packed payload bytes; it is refused in phase IDLE. -/
def Obligations.EncReadyCounts : Prop :=
  ∀ s : State, s.Inv →
    (s.enc.phase ≠ .idle → ∃ v : Word, v.toNat = s.enc.hdrRem.val + s.enc.buf.nbytes ∧
      exec .encReady s = .next { s with responses := s.responses ++ [{ status := .success, val := v, data := [] }] }) ∧
    (s.enc.phase = .idle → exec .encReady s = .next { s with
      responses := s.responses ++ [{ status := .contractViolation, val := 0, data := [] }] })

/-- R136: ENC_DRAIN returns the first bytes, at most `maxLen`, of the header bytes left followed by the packed payload bytes,
and removes exactly those; the partial byte, the capacity and everything else stay; it is refused in phase IDLE. -/
def Obligations.EncDrainTakesPrefix : Prop :=
  ∀ (s : State) (maxLen : Word), s.Inv →
    (s.enc.phase ≠ .idle → ∃ (k : Nat) (e : Enc), k = min maxLen.toNat (s.enc.hdrRem.val + s.enc.buf.nbytes) ∧
      exec (.encDrain maxLen) s = .next { s with
        enc := e
        responses := s.responses ++ [{
          status := .success
          val := BitVec.ofNat 32 k
          data := (headerBytes s.enc.count (1024 - s.enc.hdrRem.val) s.enc.hdrRem.val ++ s.enc.buf.bytes).take k }] } ∧
      headerBytes e.count (1024 - e.hdrRem.val) e.hdrRem.val ++ e.buf.bytes =
        (headerBytes s.enc.count (1024 - s.enc.hdrRem.val) s.enc.hdrRem.val ++ s.enc.buf.bytes).drop k ∧
      e.hdrRem.val = s.enc.hdrRem.val - k ∧
      e = { s.enc with hdrRem := e.hdrRem, buf := { s.enc.buf with bytes := e.buf.bytes } }) ∧
    (s.enc.phase = .idle → exec (.encDrain maxLen) s = .next { s with
      responses := s.responses ++ [{ status := .contractViolation, val := 0, data := [] }] })

/-- R56: an ENC_FEED that consumed all of `a`, followed by one of `b`, is one ENC_FEED of `a ++ b`: same units, same answers
used up, same status, and the counts add. -/
def Obligations.EncFeedCutsDoNotMatter : Prop :=
  ∀ (s t u : State) (a b : List Byte) (r : Response), (a ++ b).length < 2 ^ 32 →
    exec (.encFeed a) s = .next t →
    t.responses = s.responses ++ [{ status := .success, val := BitVec.ofNat 32 a.length, data := [] }] →
    exec (.encFeed b) t = .next u → u.responses = t.responses ++ [r] →
    exec (.encFeed (a ++ b)) s = .next { u with
      responses := s.responses ++ [{ r with val := BitVec.ofNat 32 a.length + r.val }] }

/-- R56: two drains of the encoder are one drain of the sum, and so for the decoder. -/
def Obligations.DrainCutsDoNotMatter : Prop :=
  ∀ (s : State) (m n : Word), s.Inv → m.toNat + n.toNat < 2 ^ 32 →
    (s.enc.phase ≠ .idle → ∃ (t u v : State) (x y : Response), exec (.encDrain m) s = .next t ∧
      exec (.encDrain n) t = .next u ∧ exec (.encDrain (m + n)) s = .next v ∧
      u.responses = s.responses ++ [x, y] ∧
      v = { u with responses := s.responses ++ [{ status := .success, val := x.val + y.val, data := x.data ++ y.data }] }) ∧
    (s.dec.phase ≠ .idle → ∃ (t u v : State) (x y : Response), exec (.decDrain m) s = .next t ∧
      exec (.decDrain n) t = .next u ∧ exec (.decDrain (m + n)) s = .next v ∧
      u.responses = s.responses ++ [x, y] ∧
      v = { u with responses := s.responses ++ [{ status := .success, val := x.val + y.val, data := x.data ++ y.data }] })

/-- R71, R72: absorbing the header of a table, byte by byte from an empty table, gives back that table. -/
def Obligations.HeaderReproducesTable : Prop :=
  ∀ count : CountTable, (∀ i, (h : i < 256) → count[i] < 2 ^ 32) →
    (headerBytes count 0 1024).zipIdx.foldl (fun c (x : Byte × Nat) => mergeHeaderByte c x.2 x.1) (Vector.replicate 256 0) =
      count

/-- R70, R73, R137: ENCODE_ALL, when every step returned Success with full counts, returns the header of the data's table
followed by the codes of the data and the EOF code, packed low bit first and padded with zero bits. -/
def Obligations.EncodeAllOutput : Prop :=
  ∀ (s t : State) (hint : Word) (data wire : List Byte) (k : Nat), s.Inv → data.length < 2 ^ 32 → k < 2 ^ 32 →
    issueAll (encodeAll hint data) s = .next t →
    t.responses = s.responses ++
      [{ status := .success, val := 0, data := [] }, { status := .success, val := BitVec.ofNat 32 data.length, data := [] },
       { status := .success, val := 0, data := [] }, { status := .success, val := BitVec.ofNat 32 data.length, data := [] },
       { status := .success, val := 0, data := [] }, { status := .success, val := BitVec.ofNat 32 k, data := wire }] →
    ∃ (count : CountTable) (codes eof : List Bool) (bytes : List Byte),
      (∀ b : Byte, count[b.toNat]'b.isLt = data.count b) ∧
      codesOf (buildTree count) data = some codes ∧ codeOf (buildTree count) 256 = some eof ∧
      bytes.flatMap byteBits = zeroPad (codes ++ eof) ∧
      wire = headerBytes count 0 1024 ++ bytes ∧ k = 1024 + (codes.length + eof.length + 7) / 8

/-! ## StreamDecoder (44_stream_decoder.md) -/

/-- R150: DEC_INIT, in every phase. That `dec.tree`, `dec.cursor`, `dec.cur` and `dec.pend`, which R150 does not write and
R30 calls unwritten, keep the values they held is the model's choice (log entry 5), not the rule's. -/
def Obligations.DecInitConstructs : Prop :=
  ∀ (s : State) (hint : Word),
    (1 ≤ hint.toNat → hint.toNat ≤ s.params.decBufMax → ∃ d : Dec,
      d.phase = .header ∧ (∀ i, (h : i < 256) → d.count[i] = 0) ∧ d.hdrRem.val = 1024 ∧ d.cap = hint.toNat ∧
      d.out = [] ∧ d.pendValid = false ∧ d.bitsLeft = 0 ∧
      d.tree = s.dec.tree ∧ d.cursor = s.dec.cursor ∧ d.cur = s.dec.cur ∧ d.pend = s.dec.pend ∧
      exec (.decInit hint) s = .next { s with
        dec := d, responses := s.responses ++ [{ status := .success, val := 0, data := [] }] }) ∧
    (hint.toNat = 0 ∨ s.params.decBufMax < hint.toNat → exec (.decInit hint) s = .next { s with
      responses := s.responses ++ [{ status := .contractViolation, val := 0, data := [] }] })

/-- R151: a DEC_FEED that ends within the header consumes every byte, merging each at its header position. -/
def Obligations.DecFeedWithinHeader : Prop :=
  ∀ (s : State) (data : List Byte), s.dec.phase = .header → data.length < s.dec.hdrRem.val →
    ∃ d : Dec, d.hdrRem.val = s.dec.hdrRem.val - data.length ∧
      d.count = (data.zipIdx (1024 - s.dec.hdrRem.val)).foldl
        (fun c (x : Byte × Nat) => mergeHeaderByte c x.2 x.1) s.dec.count ∧
      d = { s.dec with hdrRem := d.hdrRem, count := d.count } ∧
      exec (.decFeed data) s = .next { s with
        dec := d
        responses := s.responses ++ [{ status := .success, val := BitVec.ofNat 32 data.length, data := [] }] }

/-- R153: a DEC_FEED that brings exactly the rest of the header completes it in the same command: a valid table builds the
tree, puts the cursor at the root and enters PAYLOAD with Success; an invalid one enters FAULT with Overflow, the last header
byte being the last one consumed, whatever follows it. -/
def Obligations.DecFeedCompletesHeader : Prop :=
  ∀ (s : State) (data : List Byte) (count : CountTable), s.Inv → s.dec.phase = .header →
    data.length = s.dec.hdrRem.val →
    count = (data.zipIdx (1024 - s.dec.hdrRem.val)).foldl
      (fun c (x : Byte × Nat) => mergeHeaderByte c x.2 x.1) s.dec.count →
    ((∀ i, (h : i < 256) → count[i] ≤ s.params.cmax) ∧ 1 + count.toList.sum ≤ s.params.cmax →
      exec (.decFeed data) s = .next { s with
        dec := { s.dec with
          hdrRem := 0, count := count, tree := buildTree count, cursor := 512, phase := .payload }
        responses := s.responses ++ [{ status := .success, val := BitVec.ofNat 32 data.length, data := [] }] }) ∧
    (¬((∀ i, (h : i < 256) → count[i] ≤ s.params.cmax) ∧ 1 + count.toList.sum ≤ s.params.cmax) →
      ∀ rest : List Byte, exec (.decFeed (data ++ rest)) s = .next { s with
        dec := { s.dec with hdrRem := 0, count := count, phase := .fault }
        responses := s.responses ++ [{ status := .overflow, val := BitVec.ofNat 32 data.length, data := [] }] })

/-- R155, R187: while a symbol is pending and the buffer is full, every DEC_FEED returns (OutputFull, 0) and changes nothing;
the session is held, and no command but DEC_DRAIN, DEC_INIT and SYS_RESET changes the decoder. -/
def Obligations.DecFeedHeld : Prop :=
  ∀ (s : State) (data : List Byte), s.dec.phase = .payload → s.dec.pendValid = true → s.dec.cap ≤ s.dec.nout →
    exec (.decFeed data) s = .next { s with
      responses := s.responses ++ [{ status := .outputFull, val := 0, data := [] }] } ∧
    s.dec.standing = .held ∧
    ∀ (i : Instr) (t : State), i.mnemonic ∉ [.decDrain, .decInit, .sysReset] → exec i s = .next t → t.dec = s.dec

/-- R152, R154, R155: a DEC_FEED in phase PAYLOAD whose decoded literals all fit (a pending one first). Walking the bits left
in the latch and then those of the input, it appends exactly the literals decoded; without EOF it returns (Success, n); with
EOF it returns Done, counting the byte of EOF's last bit, and enters DONE with the rest of that byte discarded. -/
def Obligations.DecFeedDecodes : Prop :=
  ∀ (s : State) (data : List Byte) (r : Decoded), s.Inv → s.dec.phase = .payload → data.length < 2 ^ 32 →
    r = decodeBits s.dec.tree s.dec.cursor (s.dec.latchedBits ++ data.flatMap byteBits) →
    (s.dec.out ++ s.dec.pendingBytes ++ r.symbols).length ≤ s.dec.cap →
    ∃ d : Dec, d.out = s.dec.out ++ s.dec.pendingBytes ++ r.symbols ∧ d.pendValid = false ∧ d.bitsLeft = 0 ∧
      d.cursor = r.cursor ∧
      d = { s.dec with
        phase := d.phase, cursor := d.cursor, cur := d.cur, bitsLeft := d.bitsLeft, out := d.out, pendValid := d.pendValid } ∧
      (r.eof = false → d.phase = .payload ∧ exec (.decFeed data) s = .next { s with
        dec := d
        responses := s.responses ++ [{ status := .success, val := BitVec.ofNat 32 data.length, data := [] }] }) ∧
      (r.eof = true → d.phase = .done ∧ d.cursor = 512 ∧ exec (.decFeed data) s = .next { s with
        dec := d
        responses := s.responses ++
          [{ status := .done, val := BitVec.ofNat 32 ((r.used - s.dec.bitsLeft.val + 7) / 8), data := [] }] })

/-- R152, R154, R189: a DEC_FEED in phase PAYLOAD that meets a full buffer pauses with OutputFull, holding the literal that
found no room; no decoded byte is lost, reordered or duplicated: the buffer, the pending literal and what the latch and the
unconsumed suffix still decode to are exactly what was to be decoded. -/
def Obligations.DecFeedPausesWithoutLoss : Prop :=
  ∀ (s : State) (data : List Byte) (r : Decoded), s.Inv → s.dec.phase = .payload → data.length < 2 ^ 32 →
    (s.dec.pendValid = true → s.dec.nout < s.dec.cap) →
    r = decodeBits s.dec.tree s.dec.cursor (s.dec.latchedBits ++ data.flatMap byteBits) →
    s.dec.cap < (s.dec.out ++ s.dec.pendingBytes ++ r.symbols).length →
    ∃ (d : Dec) (k : Nat), k ≤ data.length ∧
      exec (.decFeed data) s = .next { s with
        dec := d
        responses := s.responses ++ [{ status := .outputFull, val := BitVec.ofNat 32 k, data := [] }] } ∧
      d.phase = .payload ∧ d.pendValid = true ∧ d.nout = d.cap ∧ d.cap = s.dec.cap ∧ d.cursor = 512 ∧
      d.count = s.dec.count ∧ d.tree = s.dec.tree ∧ d.hdrRem = s.dec.hdrRem ∧
      d.out ++ [d.pend] ++ (decodeBits d.tree d.cursor (d.latchedBits ++ (data.drop k).flatMap byteBits)).symbols =
        s.dec.out ++ s.dec.pendingBytes ++ r.symbols

/-- R56: a DEC_FEED that consumed all of `a` with Success, followed by one of `b`, is one DEC_FEED of `a ++ b`. -/
def Obligations.DecFeedCutsDoNotMatter : Prop :=
  ∀ (s t u : State) (a b : List Byte) (r : Response), s.Inv → (a ++ b).length < 2 ^ 32 →
    exec (.decFeed a) s = .next t →
    t.responses = s.responses ++ [{ status := .success, val := BitVec.ofNat 32 a.length, data := [] }] →
    exec (.decFeed b) t = .next u → u.responses = t.responses ++ [r] →
    exec (.decFeed (a ++ b)) s = .next { u with
      responses := s.responses ++ [{ r with val := BitVec.ofNat 32 a.length + r.val }] }

/-- R159: a DEC_FEED in phase HEADER or PAYLOAD consumes a byte or changes the unit, unless it has no input with nothing
latched and nothing pending, or a symbol is pending and the buffer is full. -/
def Obligations.DecFeedProgress : Prop :=
  ∀ (s t : State) (data : List Byte) (r : Response), s.Inv → s.dec.phase = .header ∨ s.dec.phase = .payload →
    data.length < 2 ^ 32 → exec (.decFeed data) s = .next t → t.responses = s.responses ++ [r] →
    0 < r.val.toNat ∨ t.dec ≠ s.dec ∨ (data = [] ∧ s.dec.bitsLeft = 0 ∧ s.dec.pendValid = false) ∨
      (s.dec.pendValid = true ∧ s.dec.cap ≤ s.dec.nout)

/-- R156: DEC_READY returns the number of bytes in the output buffer; a pending symbol is not counted; refused in phase IDLE. -/
def Obligations.DecReadyCounts : Prop :=
  ∀ s : State, s.Inv →
    (s.dec.phase ≠ .idle → ∃ v : Word, v.toNat = s.dec.out.length ∧
      (s.dec.phase = .header ∨ s.dec.phase = .fault → v = 0) ∧
      exec .decReady s = .next { s with responses := s.responses ++ [{ status := .success, val := v, data := [] }] }) ∧
    (s.dec.phase = .idle → exec .decReady s = .next { s with
      responses := s.responses ++ [{ status := .contractViolation, val := 0, data := [] }] })

/-- R157: DEC_DRAIN returns the oldest bytes, at most `maxLen`, and removes exactly those; a pending symbol stays pending;
refused in phase IDLE. -/
def Obligations.DecDrainTakesPrefix : Prop :=
  ∀ (s : State) (maxLen : Word), s.Inv →
    (s.dec.phase ≠ .idle → ∃ k : Nat, k = min maxLen.toNat s.dec.nout ∧
      exec (.decDrain maxLen) s = .next { s with
        dec := { s.dec with out := s.dec.out.drop k }
        responses := s.responses ++
          [{ status := .success, val := BitVec.ofNat 32 k, data := s.dec.out.take k }] }) ∧
    (s.dec.phase = .idle → exec (.decDrain maxLen) s = .next { s with
      responses := s.responses ++ [{ status := .contractViolation, val := 0, data := [] }] })

/-- R158, R187: the round trip through the commands. Whatever one encoding session returned for some data under the table of
any bytes counted (its own data, as in ENCODE_ALL, or others, R138), from any state, DECODE_ALL returns that data and ends with
Done, from any state, with an output buffer of any legal capacity: with one byte of room it pauses after every literal. -/
def Obligations.RoundTrip : Prop :=
  ∀ (s t d : State) (hint dhint : Word) (counted data wire : List Byte) (k : Nat), s.Inv → d.Inv →
    counted.length < 2 ^ 32 → data.length < 2 ^ 32 →
    issueAll (encodeSession hint counted data) s = .next t →
    t.responses = s.responses ++
      [{ status := .success, val := 0, data := [] }, { status := .success, val := BitVec.ofNat 32 counted.length, data := [] },
       { status := .success, val := 0, data := [] }, { status := .success, val := BitVec.ofNat 32 data.length, data := [] },
       { status := .success, val := 0, data := [] }, { status := .success, val := BitVec.ofNat 32 k, data := wire }] →
    1 + counted.length ≤ d.params.cmax → 1 ≤ dhint.toNat → dhint.toNat ≤ d.params.decBufMax →
    decodeAll (data.length + 1) dhint wire d = some (data, .done)
end

