-- ==== Sys2Proof/Laws/State.lean ====
section
/-! SUPPORT. One lemma per field per update of the state and of the units: no later proof unfolds a record update. -/

namespace Sys2Proof.Machine

variable (s : State) (e : Enc) (d : Dec)


/-! ## The response -/

@[simp] theorem State.answer_params (st : Status) (v : Nat) (b : List Byte) :
    (s.answer st v b).params = s.params := rfl
@[simp] theorem State.answer_ft (st : Status) (v : Nat) (b : List Byte) : (s.answer st v b).ft = s.ft := rfl
@[simp] theorem State.answer_enc (st : Status) (v : Nat) (b : List Byte) : (s.answer st v b).enc = s.enc := rfl
@[simp] theorem State.answer_dec (st : Status) (v : Nat) (b : List Byte) : (s.answer st v b).dec = s.dec := rfl
@[simp] theorem State.answer_inbox (st : Status) (v : Nat) (b : List Byte) : (s.answer st v b).inbox = s.inbox := rfl
@[simp] theorem State.answer_grants (st : Status) (v : Nat) (b : List Byte) :
    (s.answer st v b).grants = s.grants := rfl
@[simp] theorem State.answer_growAsked (st : Status) (v : Nat) (b : List Byte) :
    (s.answer st v b).growAsked = s.growAsked := rfl
@[simp] theorem State.answer_responses (st : Status) (v : Nat) (b : List Byte) :
    (s.answer st v b).responses = s.responses ++ [⟨st, BitVec.ofNat 32 v, b⟩] := rfl
@[simp] theorem State.refuse_params : s.refuse.params = s.params := rfl
@[simp] theorem State.refuse_ft : s.refuse.ft = s.ft := rfl
@[simp] theorem State.refuse_enc : s.refuse.enc = s.enc := rfl
@[simp] theorem State.refuse_dec : s.refuse.dec = s.dec := rfl
@[simp] theorem State.refuse_inbox : s.refuse.inbox = s.inbox := rfl
@[simp] theorem State.refuse_grants : s.refuse.grants = s.grants := rfl
@[simp] theorem State.refuse_growAsked : s.refuse.growAsked = s.growAsked := rfl
@[simp] theorem State.refuse_responses : s.refuse.responses = s.responses ++ [⟨.contractViolation, 0, []⟩] := rfl

/-! ## The reset event -/

@[simp] theorem State.resetUnits_params : s.resetUnits.params = s.params := rfl
@[simp] theorem State.resetUnits_ft : s.resetUnits.ft = Ft.reset := rfl
@[simp] theorem State.resetUnits_enc : s.resetUnits.enc = Enc.reset := rfl
@[simp] theorem State.resetUnits_dec : s.resetUnits.dec = Dec.reset := rfl
@[simp] theorem State.resetUnits_inbox : s.resetUnits.inbox = s.inbox := rfl
@[simp] theorem State.resetUnits_grants : s.resetUnits.grants = s.grants := rfl
@[simp] theorem State.resetUnits_growAsked : s.resetUnits.growAsked = s.growAsked := rfl
@[simp] theorem State.resetUnits_responses : s.resetUnits.responses = s.responses := rfl

/-! ## The inbox -/

@[simp] theorem State.popInbox_params : s.popInbox.params = s.params := rfl
@[simp] theorem State.popInbox_ft : s.popInbox.ft = s.ft := rfl
@[simp] theorem State.popInbox_enc : s.popInbox.enc = s.enc := rfl
@[simp] theorem State.popInbox_dec : s.popInbox.dec = s.dec := rfl
@[simp] theorem State.popInbox_inbox : s.popInbox.inbox = s.inbox.tail := rfl
@[simp] theorem State.popInbox_grants : s.popInbox.grants = s.grants := rfl
@[simp] theorem State.popInbox_growAsked : s.popInbox.growAsked = s.growAsked := rfl
@[simp] theorem State.popInbox_responses : s.popInbox.responses = s.responses := rfl
@[simp] theorem State.withFetchWord_params (nbits w : Nat) : (s.withFetchWord nbits w).params = s.params := rfl
@[simp] theorem State.withFetchWord_ft (nbits w : Nat) : (s.withFetchWord nbits w).ft = s.ft := rfl
@[simp] theorem State.withFetchWord_enc (nbits w : Nat) : (s.withFetchWord nbits w).enc = s.enc := rfl
@[simp] theorem State.withFetchWord_dec (nbits w : Nat) : (s.withFetchWord nbits w).dec = s.dec := rfl
@[simp] theorem State.withFetchWord_inbox (nbits w : Nat) :
    (s.withFetchWord nbits w).inbox = .issue (tableCommand nbits w) :: s.inbox := rfl
@[simp] theorem State.withFetchWord_grants (nbits w : Nat) : (s.withFetchWord nbits w).grants = s.grants := rfl
@[simp] theorem State.withFetchWord_growAsked (nbits w : Nat) :
    (s.withFetchWord nbits w).growAsked = s.growAsked := rfl
@[simp] theorem State.withFetchWord_responses (nbits w : Nat) :
    (s.withFetchWord nbits w).responses = s.responses := rfl

/-! ## Growth requests -/

@[simp] theorem State.afterGrant_params : s.afterGrant.params = s.params := rfl
@[simp] theorem State.afterGrant_ft : s.afterGrant.ft = s.ft := rfl
@[simp] theorem State.afterGrant_enc : s.afterGrant.enc = s.enc := rfl
@[simp] theorem State.afterGrant_dec : s.afterGrant.dec = s.dec := rfl
@[simp] theorem State.afterGrant_inbox : s.afterGrant.inbox = s.inbox := rfl
@[simp] theorem State.afterGrant_grants : s.afterGrant.grants = s.grants.tail := rfl
@[simp] theorem State.afterGrant_growAsked : s.afterGrant.growAsked = s.growAsked + 1 := rfl
@[simp] theorem State.afterGrant_responses : s.afterGrant.responses = s.responses := rfl

/-! ## The encoder -/

@[simp] theorem encAppend_params (c : List Bool) : (encAppend c s).params = s.params := rfl
@[simp] theorem encAppend_ft (c : List Bool) : (encAppend c s).ft = s.ft := rfl
@[simp] theorem encAppend_enc (c : List Bool) : (encAppend c s).enc = { s.enc with buf := s.enc.buf.append c } := rfl
@[simp] theorem encAppend_dec (c : List Bool) : (encAppend c s).dec = s.dec := rfl
@[simp] theorem encAppend_inbox (c : List Bool) : (encAppend c s).inbox = s.inbox := rfl
@[simp] theorem encAppend_grants (c : List Bool) : (encAppend c s).grants = s.grants := rfl
@[simp] theorem encAppend_growAsked (c : List Bool) : (encAppend c s).growAsked = s.growAsked := rfl
@[simp] theorem encAppend_responses (c : List Bool) : (encAppend c s).responses = s.responses := rfl
@[simp] theorem encFinish_params : (encFinish s).params = s.params := rfl
@[simp] theorem encFinish_ft : (encFinish s).ft = s.ft := rfl
@[simp] theorem encFinish_enc : (encFinish s).enc = { s.enc with buf := s.enc.buf.pad, phase := .ended } := rfl
@[simp] theorem encFinish_dec : (encFinish s).dec = s.dec := rfl
@[simp] theorem encFinish_inbox : (encFinish s).inbox = s.inbox := rfl
@[simp] theorem encFinish_grants : (encFinish s).grants = s.grants := rfl
@[simp] theorem encFinish_growAsked : (encFinish s).growAsked = s.growAsked := rfl
@[simp] theorem encFinish_responses : (encFinish s).responses = s.responses := rfl
@[simp] theorem Enc.afterDrain_phase (h k : Nat) : (e.afterDrain h k).phase = e.phase := rfl
@[simp] theorem Enc.afterDrain_count (h k : Nat) : (e.afterDrain h k).count = e.count := rfl
@[simp] theorem Enc.afterDrain_tree (h k : Nat) : (e.afterDrain h k).tree = e.tree := rfl
@[simp] theorem Enc.afterDrain_hdrRem_val (h k : Nat) : (e.afterDrain h k).hdrRem.val = e.hdrRem.val - h := rfl
@[simp] theorem Enc.afterDrain_cap (h k : Nat) : (e.afterDrain h k).cap = e.cap := rfl
@[simp] theorem Enc.afterDrain_buf (h k : Nat) : (e.afterDrain h k).buf = e.buf.dropFront k := rfl
@[simp] theorem BitBuf.dropFront_bytes (b : BitBuf) (k : Nat) : (b.dropFront k).bytes = b.bytes.drop k := rfl
@[simp] theorem BitBuf.dropFront_part (b : BitBuf) (k : Nat) : (b.dropFront k).part = b.part := rfl
@[simp] theorem BitBuf.dropFront_nbits (b : BitBuf) (k : Nat) : (b.dropFront k).nbits = b.nbits := rfl

/-! ## The decoder -/

@[simp] theorem Dec.bufAppend_phase (b : Byte) : (d.bufAppend b).phase = d.phase := rfl
@[simp] theorem Dec.bufAppend_count (b : Byte) : (d.bufAppend b).count = d.count := rfl
@[simp] theorem Dec.bufAppend_hdrRem (b : Byte) : (d.bufAppend b).hdrRem = d.hdrRem := rfl
@[simp] theorem Dec.bufAppend_tree (b : Byte) : (d.bufAppend b).tree = d.tree := rfl
@[simp] theorem Dec.bufAppend_cursor (b : Byte) : (d.bufAppend b).cursor = d.cursor := rfl
@[simp] theorem Dec.bufAppend_cur (b : Byte) : (d.bufAppend b).cur = d.cur := rfl
@[simp] theorem Dec.bufAppend_bitsLeft (b : Byte) : (d.bufAppend b).bitsLeft = d.bitsLeft := rfl
@[simp] theorem Dec.bufAppend_cap (b : Byte) : (d.bufAppend b).cap = d.cap := rfl
@[simp] theorem Dec.bufAppend_out (b : Byte) : (d.bufAppend b).out = d.out ++ [b] := rfl
@[simp] theorem Dec.bufAppend_pend (b : Byte) : (d.bufAppend b).pend = d.pend := rfl
@[simp] theorem Dec.bufAppend_pendValid (b : Byte) : (d.bufAppend b).pendValid = d.pendValid := rfl
@[simp] theorem Dec.hold_phase (b : Byte) : (d.hold b).phase = d.phase := rfl
@[simp] theorem Dec.hold_count (b : Byte) : (d.hold b).count = d.count := rfl
@[simp] theorem Dec.hold_hdrRem (b : Byte) : (d.hold b).hdrRem = d.hdrRem := rfl
@[simp] theorem Dec.hold_tree (b : Byte) : (d.hold b).tree = d.tree := rfl
@[simp] theorem Dec.hold_cursor (b : Byte) : (d.hold b).cursor = d.cursor := rfl
@[simp] theorem Dec.hold_cur (b : Byte) : (d.hold b).cur = d.cur := rfl
@[simp] theorem Dec.hold_bitsLeft (b : Byte) : (d.hold b).bitsLeft = d.bitsLeft := rfl
@[simp] theorem Dec.hold_cap (b : Byte) : (d.hold b).cap = d.cap := rfl
@[simp] theorem Dec.hold_out (b : Byte) : (d.hold b).out = d.out := rfl
@[simp] theorem Dec.hold_pend (b : Byte) : (d.hold b).pend = b := rfl
@[simp] theorem Dec.hold_pendValid (b : Byte) : (d.hold b).pendValid = true := rfl
@[simp] theorem Dec.clearPending_phase : d.clearPending.phase = d.phase := rfl
@[simp] theorem Dec.clearPending_count : d.clearPending.count = d.count := rfl
@[simp] theorem Dec.clearPending_hdrRem : d.clearPending.hdrRem = d.hdrRem := rfl
@[simp] theorem Dec.clearPending_tree : d.clearPending.tree = d.tree := rfl
@[simp] theorem Dec.clearPending_cursor : d.clearPending.cursor = d.cursor := rfl
@[simp] theorem Dec.clearPending_cur : d.clearPending.cur = d.cur := rfl
@[simp] theorem Dec.clearPending_bitsLeft : d.clearPending.bitsLeft = d.bitsLeft := rfl
@[simp] theorem Dec.clearPending_cap : d.clearPending.cap = d.cap := rfl
@[simp] theorem Dec.clearPending_out : d.clearPending.out = d.out := rfl
@[simp] theorem Dec.clearPending_pend : d.clearPending.pend = d.pend := rfl
@[simp] theorem Dec.clearPending_pendValid : d.clearPending.pendValid = false := rfl
@[simp] theorem Dec.dropFront_phase (k : Nat) : (d.dropFront k).phase = d.phase := rfl
@[simp] theorem Dec.dropFront_count (k : Nat) : (d.dropFront k).count = d.count := rfl
@[simp] theorem Dec.dropFront_hdrRem (k : Nat) : (d.dropFront k).hdrRem = d.hdrRem := rfl
@[simp] theorem Dec.dropFront_tree (k : Nat) : (d.dropFront k).tree = d.tree := rfl
@[simp] theorem Dec.dropFront_cursor (k : Nat) : (d.dropFront k).cursor = d.cursor := rfl
@[simp] theorem Dec.dropFront_cur (k : Nat) : (d.dropFront k).cur = d.cur := rfl
@[simp] theorem Dec.dropFront_bitsLeft (k : Nat) : (d.dropFront k).bitsLeft = d.bitsLeft := rfl
@[simp] theorem Dec.dropFront_cap (k : Nat) : (d.dropFront k).cap = d.cap := rfl
@[simp] theorem Dec.dropFront_out (k : Nat) : (d.dropFront k).out = d.out.drop k := rfl
@[simp] theorem Dec.dropFront_pend (k : Nat) : (d.dropFront k).pend = d.pend := rfl
@[simp] theorem Dec.dropFront_pendValid (k : Nat) : (d.dropFront k).pendValid = d.pendValid := rfl
@[simp] theorem Dec.spendBit_phase : d.spendBit.phase = d.phase := rfl
@[simp] theorem Dec.spendBit_count : d.spendBit.count = d.count := rfl
@[simp] theorem Dec.spendBit_hdrRem : d.spendBit.hdrRem = d.hdrRem := rfl
@[simp] theorem Dec.spendBit_tree : d.spendBit.tree = d.tree := rfl
@[simp] theorem Dec.spendBit_cursor : d.spendBit.cursor = d.cursor := rfl
@[simp] theorem Dec.spendBit_cur : d.spendBit.cur = d.cur := rfl
@[simp] theorem Dec.spendBit_cap : d.spendBit.cap = d.cap := rfl
@[simp] theorem Dec.spendBit_out : d.spendBit.out = d.out := rfl
@[simp] theorem Dec.spendBit_pend : d.spendBit.pend = d.pend := rfl
@[simp] theorem Dec.spendBit_pendValid : d.spendBit.pendValid = d.pendValid := rfl
@[simp] theorem Dec.spendBit_bitsLeft_val : d.spendBit.bitsLeft.val = d.bitsLeft.val - 1 := rfl

end Sys2Proof.Machine
end

