-- ==== Sys2Proof/Laws/Ops.lean ====
section
/-! SUPPORT. One lemma per shared operation that says what it can do; the provers cite these instead of unfolding the operations. -/

namespace Sys2Proof.Machine

/-! ## Tables and queues -/

@[simp] theorem getElem?_tabulate {α : Type} (n : Nat) (f : Nat → α) (i : Nat) :
    (tabulate n f)[i]? = if i < n then some (f i) else none := by
  by_cases h : i < n <;> simp [tabulate, h]

/-- A literal's count is the table's entry. -/
theorem countOf_eq (count : CountTable) (s : Nat) (h : s < 256) : countOf count s = count[s] := by
  simp [countOf, h]

/-- QInsert adds exactly the new entry. -/
theorem qInsert_perm (x : QItem) (q : List QItem) : (qInsert x q).Perm (x :: q) := by
  induction q with
  | nil => simp [qInsert]
  | cons y q ih =>
    simp only [qInsert]
    split
    · exact .refl _
    · exact (ih.cons y).trans (.swap x y q)

@[simp] theorem qInsert_length (x : QItem) (q : List QItem) : (qInsert x q).length = q.length + 1 :=
  (qInsert_perm x q).length_eq

@[simp] theorem insertLeaves_length (ws : List Nat) (s : Nat) (q : List QItem) :
    (insertLeaves ws s q).length = q.length + ws.length := by
  induction ws generalizing s q with
  | nil => simp [insertLeaves]
  | cons w ws ih => simp [insertLeaves, ih]; omega

/-- R110: "the queue starts with 257 items". -/
@[simp] theorem leafQueue_length (count : CountTable) : (leafQueue count).length = 257 := by
  simp [leafQueue, leafWeights]

/-- Each pass of R110's loop removes two entries and inserts one, so `fuel` passes run from `fuel + 1` entries. -/
theorem mergeLoop_length (fuel : Nat) (q : List QItem) (next : Nat) (h : q.length = fuel + 1) :
    (mergeLoop fuel q next).length = fuel := by
  induction fuel generalizing q next with
  | zero => rfl
  | succ fuel ih =>
    obtain ⟨a, b, q, rfl⟩ : ∃ a b q', q = a :: b :: q' := by
      match q, h with
      | a :: b :: q, _ => exact ⟨a, b, q, rfl⟩
    simp only [mergeLoop, qRemoveMin, List.length_cons]
    rw [ih]
    simpa using h

/-- R110: "the loop body runs exactly 256 times". -/
@[simp] theorem mergesOf_length (count : CountTable) : (mergesOf count).length = 256 :=
  mergeLoop_length _ _ _ (by simp)

/-! ## The bit packer -/

@[simp] theorem byteBits_length (b : Byte) : (byteBits b).length = 8 := by simp [byteBits]

/-- The number of bits placed in a buffer: `8·nbytes + nbits` (R25). -/
@[simp] theorem BitBuf.bits_length (b : BitBuf) : b.bits.length = 8 * b.nbytes + b.nbits.val := by
  have h : (b.bytes.flatMap byteBits).length = 8 * b.bytes.length := by
    induction b.bytes with
    | nil => rfl
    | cons x xs ih => simp only [List.flatMap_cons, List.length_append, byteBits_length, ih, List.length_cons]; omega
  have := b.nbits.isLt
  simp only [BitBuf.bits, BitBuf.nbytes, List.length_append, List.length_take, byteBits_length, h]
  omega

/-- One more bit in a partial byte whose unused bits are 0, for the eight cursor positions. -/
theorem push_part_cases : ∀ (part : Byte) (n : Fin 8) (bit : Bool), part.toNat < 2 ^ n.val →
    let part' : Byte := (if n.val = 0 then 0 else part) + BitVec.ofNat 8 (bit.toNat * 2 ^ n.val)
    (byteBits part').take (n.val + 1) = (byteBits part).take n.val ++ [bit] ∧ part'.toNat < 2 ^ (n.val + 1) := by
  decide +kernel

/-- EncAppend's pass puts one bit after the bits already there, at the lowest unused position (R132, R43). -/
theorem BitBuf.push_bits (b : BitBuf) (bit : Bool) (h : b.part.toNat < 2 ^ b.nbits.val) :
    (b.push bit).bits = b.bits ++ [bit] ∧ (b.push bit).part.toNat < 2 ^ (b.push bit).nbits.val := by
  have key := push_part_cases b.part b.nbits bit h
  unfold BitBuf.push
  by_cases h7 : b.nbits.val = 7
  · rw [dif_pos h7]
    simp only [h7] at key
    refine ⟨?_, by simp⟩
    have := key.1
    rw [List.take_of_length_le (by simp)] at this
    simp_all [BitBuf.bits, List.flatMap_append]
  · rw [dif_neg h7]
    refine ⟨?_, key.2⟩
    simp only [BitBuf.bits, List.append_assoc]
    exact congrArg _ key.1

/-- EncAppend puts a code's bits after the bits already there (R132). -/
theorem BitBuf.append_bits (c : List Bool) (b : BitBuf) (h : b.part.toNat < 2 ^ b.nbits.val) :
    (b.append c).bits = b.bits ++ c ∧ (b.append c).part.toNat < 2 ^ (b.append c).nbits.val := by
  induction c generalizing b with
  | nil => simpa [BitBuf.append] using h
  | cons bit c ih =>
    have hp := b.push_bits bit h
    have := ih (b.push bit) hp.2
    simpa [BitBuf.append, hp.1] using this

/-- The unused bits of a partial byte are 0, for the eight cursor positions. -/
theorem pad_part_cases : ∀ (part : Byte) (n : Fin 8), part.toNat < 2 ^ n.val →
    byteBits part = (byteBits part).take n.val ++ List.replicate (8 - n.val) false := by
  decide +kernel

/-- Completing the partial byte appends zero bits up to a whole byte (R134). -/
theorem BitBuf.pad_bits (b : BitBuf) (h : b.part.toNat < 2 ^ b.nbits.val) :
    b.pad.bits = zeroPad b.bits ∧ b.pad.nbits = 0 := by
  have hl := b.bits_length
  have hn := b.nbits.isLt
  unfold BitBuf.pad
  split
  · next h0 =>
    refine ⟨?_, rfl⟩
    have e : (8 - b.bits.length % 8) % 8 = 8 - b.nbits.val := by omega
    rw [zeroPad, e]
    simp only [BitBuf.bits, List.flatMap_append, List.flatMap_cons, List.flatMap_nil, List.append_nil, Fin.val_zero,
      List.take_zero, List.append_assoc]
    exact congrArg _ (pad_part_cases b.part b.nbits h)
  · next h0 =>
    have z : b.nbits.val = 0 := by omega
    have e : (8 - b.bits.length % 8) % 8 = 0 := by omega
    exact ⟨by simp only [zeroPad, e, List.replicate_zero, List.append_nil], Fin.ext z⟩

/-! ## Growth and the encoder's symbol step -/

/-- The doubling loop ends at a capacity that suffices and is the first one times a power of two, within BUF_MAX unless it
did not double. -/
theorem growCap_fits {bufMax need fuel cap cap' : Nat} (h : growCap bufMax need fuel cap = .fits cap') :
    need ≤ cap' ∧ ∃ k, cap' = cap * 2 ^ k ∧ (k = 0 ∨ cap' ≤ bufMax) := by
  induction fuel generalizing cap with
  | zero =>
    simp only [growCap] at h
    split at h
    · cases h
    · cases h; exact ⟨by omega, 0, by simp, .inl rfl⟩
  | succ fuel ih =>
    simp only [growCap] at h
    split at h
    · split at h
      · cases h
      · next hb =>
        obtain ⟨hn, k, hk, hm⟩ := ih h
        refine ⟨hn, k + 1, by rw [hk]; ring, .inr ?_⟩
        rcases hm with rfl | hm
        · simp only [pow_zero, mul_one] at hk; omega
        · exact hm
    · cases h; exact ⟨by omega, 0, by simp, .inl rfl⟩

/-- Everything EncReserve can do (R131): nothing, one granted growth by doublings, or one of the two failures with the
encoder unchanged, or the loop that does not end. -/
theorem encReserve_cases (l : Nat) (s : State) :
    (encReserve l s = .ok s ∧ s.enc.buf.need l ≤ s.enc.cap) ∨
    (∃ k, s.grantAnswer = true ∧ s.enc.buf.need l ≤ s.enc.cap * 2 ^ k ∧ s.enc.cap * 2 ^ k ≤ s.params.bufMax ∧
      encReserve l s = .ok { s.afterGrant with enc := { s.enc with cap := s.enc.cap * 2 ^ k } }) ∨
    (s.grantAnswer = false ∧ encReserve l s = .fail .outOfMemory s.afterGrant) ∨
    encReserve l s = .fail .tooMuchData s ∨ encReserve l s = .stuck .growthStuck := by
  unfold encReserve
  split
  · simp
  · simp
  · next newcap hg =>
    obtain ⟨hn, k, hk, hm⟩ := growCap_fits hg
    by_cases he : newcap = s.enc.cap
    · exact .inl ⟨by simp [he], he ▸ hn⟩
    · have hk0 : k ≠ 0 := by rintro rfl; simp at hk; exact he hk
      cases ha : s.grantAnswer
      · simp [he]
      · refine .inr (.inl ⟨k, rfl, hk ▸ hn, ?_, by rw [if_neg he, if_pos rfl, hk]⟩)
        rcases hm with h | h
        · exact absurd h hk0
        · exact hk ▸ h

/-- Everything one symbol can do: CodeOf, EncReserve, EncAppend, in this order (R133). -/
theorem encSymbol_cases (sym : Nat) (s : State) :
    (codeOf s.enc.tree sym = none ∧ encSymbol sym s = .stuck .codeWalkStuck) ∨
    ∃ c, codeOf s.enc.tree sym = some c ∧
      ((∃ t, encReserve c.length s = .ok t ∧ encSymbol sym s = .ok (encAppend c t)) ∨
       (∃ status t, encReserve c.length s = .fail status t ∧ encSymbol sym s = .fail status t) ∨
       (∃ f, encReserve c.length s = .stuck f ∧ encSymbol sym s = .stuck f)) := by
  unfold encSymbol
  cases codeOf s.enc.tree sym with
  | none => exact .inl ⟨rfl, rfl⟩
  | some c =>
    refine .inr ⟨c, rfl, ?_⟩
    cases hr : encReserve c.length s <;> simp [hr]

/-! ## The decoder's internal steps -/

/-- DecodeStep is defined exactly for an internal cursor (R116, U2), and then either reaches a leaf, with the cursor back at
the root, or moves to an internal node. -/
theorem decodeStep_cases (t : Tree) (cursor : Nat) (bit : Bool) :
    (¬(257 ≤ cursor ∧ cursor ≤ 512) ∧ decodeStep t cursor bit = none) ∨
    (∃ n, n ≤ 256 ∧ n = (if bit then t.rightOf cursor else t.leftOf cursor) ∧ (257 ≤ cursor ∧ cursor ≤ 512) ∧
      decodeStep t cursor bit = some (512, some n)) ∨
    (∃ n, 256 < n ∧ n = (if bit then t.rightOf cursor else t.leftOf cursor) ∧ (257 ≤ cursor ∧ cursor ≤ 512) ∧
      decodeStep t cursor bit = some (n, none)) := by
  unfold decodeStep
  by_cases hc : 257 ≤ cursor ∧ cursor ≤ 512
  · by_cases hn : (if bit then t.rightOf cursor else t.leftOf cursor) ≤ 256
    · exact .inr (.inl ⟨_, hn, rfl, hc, by simp [hc, hn]⟩)
    · exact .inr (.inr ⟨_, by omega, rfl, hc, by simp [hc, hn]⟩)
  · exact .inl ⟨hc, by simp [hc]⟩

/-- Everything BitStep can do (R154): off the invariant; move the cursor; append a literal; end with Done; or hold a literal
and end with OutputFull. -/
theorem bitStep_cases (d : Dec) :
    (decodeStep d.tree d.cursor d.nextBit = none ∧ bitStep d = .off) ∨
    (∃ n, decodeStep d.tree d.cursor d.nextBit = some (n, none) ∧ bitStep d = .go { d.spendBit with cursor := n }) ∨
    (∃ n, decodeStep d.tree d.cursor d.nextBit = some (n, some 256) ∧
      bitStep d = .stop .done { d.spendBit with cursor := n, bitsLeft := 0, phase := .done }) ∨
    (∃ n sym, sym ≠ 256 ∧ decodeStep d.tree d.cursor d.nextBit = some (n, some sym) ∧
      ((d.nout < d.cap ∧ bitStep d = .go { d.spendBit with cursor := n, out := d.out ++ [BitVec.ofNat 8 sym] }) ∨
       (d.cap ≤ d.nout ∧ bitStep d = .stop .outputFull
          { d.spendBit with cursor := n, pend := BitVec.ofNat 8 sym, pendValid := true }))) := by
  unfold bitStep
  cases h : decodeStep d.tree d.cursor d.nextBit with
  | none => exact .inl ⟨rfl, rfl⟩
  | some r =>
    obtain ⟨n, o⟩ := r
    cases o with
    | none => exact .inr (.inl ⟨n, rfl, rfl⟩)
    | some sym =>
      by_cases h256 : sym = 256
      · subst h256; exact .inr (.inr (.inl ⟨n, rfl, by simp [emitSymbol]⟩))
      · refine .inr (.inr (.inr ⟨n, sym, h256, rfl, ?_⟩))
        by_cases hr : d.nout < d.cap
        · exact .inl ⟨hr, (if_neg h256).trans (if_pos (decide_eq_true hr))⟩
        · exact .inr ⟨by omega, (if_neg h256).trans (if_neg (show ¬decide (d.nout < d.cap) = true by simpa using hr))⟩

/-- What no step of a DEC_FEED changes: the capacity. -/
def Walk.keepsCap (d : Dec) : Walk → Prop
  | .go d' => d'.cap = d.cap
  | .stop _ d' => d'.cap = d.cap
  | .off => True

theorem bitStep_keepsCap (d : Dec) : (bitStep d).keepsCap d := by
  rcases bitStep_cases d with ⟨_, h⟩ | ⟨n, _, h⟩ | ⟨n, _, h⟩ | ⟨n, sym, _, _, ⟨_, h⟩ | ⟨_, h⟩⟩ <;>
    simp [h, Walk.keepsCap]

theorem walkBits_keepsCap (n : Nat) (d : Dec) : (walkBits n d).keepsCap d := by
  induction n generalizing d with
  | zero => rfl
  | succ n ih =>
    have hb := bitStep_keepsCap d
    simp only [walkBits]
    cases h : bitStep d with
    | go d' =>
      have := ih d'
      rw [h] at hb
      simp only [Walk.keepsCap] at hb
      cases hw : walkBits n d' <;> simp_all [Walk.keepsCap]
    | stop status d' => rw [h] at hb; exact hb
    | off => trivial

/-- Everything FlushPending can do (R155). -/
theorem flushPending_cases (d : Dec) :
    (¬(d.phase = .payload ∧ d.pendValid = true) ∧ flushPending d = some d) ∨
    (d.phase = .payload ∧ d.pendValid = true ∧ d.nout < d.cap ∧
      flushPending d = some { d with out := d.out ++ [d.pend], pendValid := false }) ∨
    (d.phase = .payload ∧ d.pendValid = true ∧ d.cap ≤ d.nout ∧ flushPending d = none) := by
  by_cases hp : d.phase = .payload
  · by_cases hv : d.pendValid = true
    · by_cases hr : d.nout < d.cap
      · refine .inr (.inl ⟨hp, hv, hr, ?_⟩)
        simp [flushPending, hp, hv, Dec.hasRoom, hr, Dec.bufAppend, Dec.clearPending]
      · refine .inr (.inr ⟨hp, hv, by omega, ?_⟩)
        simp [flushPending, hp, hv, Dec.hasRoom, hr]
    · exact .inl ⟨by simp [hv], by simp [flushPending, hp, hv]⟩
  · refine .inl ⟨by simp [hp], ?_⟩
    cases h : d.phase <;> simp_all [flushPending]

/-- Everything the pass that takes one input byte can do (R151, R152, R153). -/
theorem takeByte_cases (p : Params) (b : Byte) (d : Dec) :
    (d.phase ≠ .header ∧ takeByte p b d = .go { d with cur := b, bitsLeft := 8 }) ∨
    (d.phase = .header ∧ d.hdrRem.val = 0 ∧ takeByte p b d = .off) ∨
    (d.phase = .header ∧ 0 < d.hdrRem.val ∧ ∃ d', absorbHeaderByte b d = some d' ∧
      ((0 < d'.hdrRem.val ∧ takeByte p b d = .go d') ∨
       (d'.hdrRem.val = 0 ∧ takeByte p b d = completeHeader p d'))) := by
  by_cases hp : d.phase = .header
  · by_cases h0 : d.hdrRem.val = 0
    · exact .inr (.inl ⟨hp, h0, by simp [takeByte, hp, absorbHeaderByte, h0]⟩)
    · refine .inr (.inr ⟨hp, by omega, ?_⟩)
      cases ha : absorbHeaderByte b d with
      | none => simp [absorbHeaderByte, h0] at ha
      | some d' =>
        refine ⟨d', rfl, ?_⟩
        by_cases hz : d'.hdrRem.val = 0
        · exact .inr ⟨hz, by simp [takeByte, hp, ha, hz]⟩
        · exact .inl ⟨by omega, by simp [takeByte, hp, ha, hz]⟩
  · refine .inl ⟨hp, ?_⟩
    cases h : d.phase <;> simp_all [takeByte]

/-! ## How a decoding session stands after a DEC_FEED (R187) -/

/-- The standing of the decoder that each status of an accepted DEC_FEED leaves. -/
def standsAfter : Status → Dec → Prop
  | .success, d => d.standing = .unfinished
  | .outputFull, d => d.standing = .held
  | .done, d => d.standing = .finished
  | .overflow, d => d.standing = .faulted
  | .outOfMemory, _ | .tooMuchData, _ | .contractViolation, _ => False

/-- A step that goes on has `P`; one that ends the command leaves the standing of its status. -/
def Walk.stands (P : Dec → Prop) : Walk → Prop
  | .go d => P d
  | .stop status d => standsAfter status d
  | .off => True

/-- In PAYLOAD with nothing pending. -/
def Dec.walking (d : Dec) : Prop := d.phase = .payload ∧ d.pendValid = false

/-- In HEADER or PAYLOAD with nothing pending. -/
def Dec.feeding (d : Dec) : Prop := (d.phase = .header ∨ d.phase = .payload) ∧ d.pendValid = false

theorem Dec.feeding.standing {d : Dec} (h : d.feeding) : d.standing = .unfinished := by
  obtain ⟨h | h, hv⟩ := h <;> simp [Dec.standing, h, hv]

theorem bitStep_stands {d : Dec} (h : d.walking) : (bitStep d).stands Dec.walking := by
  obtain ⟨hp, hv⟩ := h
  rcases bitStep_cases d with ⟨_, e⟩ | ⟨n, _, e⟩ | ⟨n, _, e⟩ | ⟨n, sym, _, _, ⟨_, e⟩ | ⟨hr, e⟩⟩ <;> rw [e]
  · trivial
  · exact ⟨hp, hv⟩
  · rfl
  · exact ⟨hp, hv⟩
  · have hr' : ¬ d.spendBit.nout < d.spendBit.cap := Nat.not_lt.mpr hr
    simp [Walk.stands, standsAfter, Dec.standing, Dec.hasRoom, Dec.nout, Dec.spendBit, hp] at hr' ⊢
    exact hr'

theorem walkBits_stands (n : Nat) {d : Dec} (h : d.walking) : (walkBits n d).stands Dec.walking := by
  induction n generalizing d with
  | zero => exact h
  | succ n ih =>
    have hb := bitStep_stands h
    simp only [walkBits]
    cases hs : bitStep d with
    | go d' => rw [hs] at hb; exact ih hb
    | stop status d' => rw [hs] at hb; exact hb
    | off => trivial

theorem walkLatched_stands {d : Dec} (h : d.feeding) : (walkLatched d).stands Dec.feeding := by
  obtain ⟨hp | hp, hv⟩ := h
  · simp only [walkLatched, hp]; exact ⟨.inl hp, hv⟩
  · have hw := walkBits_stands d.bitsLeft.val ⟨hp, hv⟩
    simp only [walkLatched, hp]
    cases hs : walkBits d.bitsLeft.val d with
    | go d' => rw [hs] at hw; exact ⟨.inr hw.1, hw.2⟩
    | stop status d' => rw [hs] at hw; exact hw
    | off => trivial

theorem takeByte_stands (p : Params) (b : Byte) {d : Dec} (h : d.feeding) : (takeByte p b d).stands Dec.feeding := by
  obtain ⟨hp, hv⟩ := h
  rcases takeByte_cases p b d with ⟨_, e⟩ | ⟨_, _, e⟩ | ⟨hh, h0, d', ha, ⟨_, e⟩ | ⟨_, e⟩⟩ <;> rw [e]
  · exact ⟨hp, hv⟩
  · trivial
  all_goals
    simp only [absorbHeaderByte, if_neg (Nat.ne_of_gt h0), Option.some.injEq] at ha
    subst ha
  · exact ⟨.inl hh, hv⟩
  · unfold completeHeader
    split
    · exact ⟨.inr rfl, hv⟩
    · rfl

/-- What a loop of DEC_FEED that ends leaves. -/
def FeedEnd.stands : FeedEnd → Prop
  | .fin status _ d => standsAfter status d
  | .off => True

theorem decFeedLoop_stands (p : Params) (bs : List Byte) (i : Nat) {d : Dec} (h : d.feeding) :
    (decFeedLoop p bs i d).stands := by
  induction bs generalizing i d with
  | nil =>
    have hw := walkLatched_stands h
    simp only [decFeedLoop]
    cases hs : walkLatched d with
    | go d' => rw [hs] at hw; exact Dec.feeding.standing hw
    | stop status d' => rw [hs] at hw; exact hw
    | off => trivial
  | cons b bs ih =>
    have hw := walkLatched_stands h
    simp only [decFeedLoop]
    cases hs : walkLatched d with
    | go d' =>
      rw [hs] at hw
      have ht := takeByte_stands p b hw
      dsimp only
      cases hb : takeByte p b d' with
      | go d'' => rw [hb] at ht; exact ih (i + 1) ht
      | stop status d'' => rw [hb] at ht; exact ht
      | off => trivial
    | stop status d' => rw [hs] at hw; exact hw
    | off => trivial

/-- R187: an accepted DEC_FEED leaves the session finished with Done, held with OutputFull, faulted with Overflow, and
unfinished with Success. -/
theorem decFeed_stands {s t : State} {data : List Byte} (hi : s.Inv)
    (hp : s.dec.phase = .header ∨ s.dec.phase = .payload) (h : exec (.decFeed data) s = .next t) :
    ∃ r, t.responses = s.responses ++ [r] ∧ standsAfter r.status t.dec := by
  have main : ∀ d : Dec, d.feeding → decFeedAnswer s (decFeedLoop s.params data 0 d) = .next t →
      ∃ r, t.responses = s.responses ++ [r] ∧ standsAfter r.status t.dec := by
    intro d hd he
    have hl := decFeedLoop_stands s.params data 0 hd
    cases hs : decFeedLoop s.params data 0 d with
    | off => rw [hs] at he; cases he
    | fin status i d' => rw [hs] at hl he; cases he; exact ⟨_, rfl, hl⟩
  rcases hp with hp | hp
  · have hf : flushPending s.dec = some s.dec := by simp [flushPending, hp]
    simp only [exec, execDecFeed, hp, hf] at h
    exact main _ ⟨.inl hp, (hi.dec.header hp).2.2.1⟩ h
  · rcases flushPending_cases s.dec with ⟨hn, hf⟩ | ⟨_, _, _, hf⟩ | ⟨_, hv, hr, hf⟩ <;>
      simp only [exec, execDecFeed, hp, hf] at h
    · exact main _ ⟨.inr hp, by simpa [hp] using hn⟩ h
    · exact main _ (by exact ⟨.inr rfl, rfl⟩) h
    · cases h
      refine ⟨_, rfl, ?_⟩
      have hf : s.dec.hasRoom = false := decide_eq_false (Nat.not_lt.mpr hr)
      simp [standsAfter, State.answer, Dec.standing, hp, hv, hf]

/-- R187: a finished session is not stuck, and neither is held, unfinished or faulted. -/
theorem State.finishedSession.not_stuck {s : State} (h : s.finishedSession) : ¬ s.stuckSession ∧ s.soundSession := by
  obtain ⟨hw, hs⟩ := h
  simp [State.stuckSession, State.soundSession, hs, hw]

/-! ## The step -/

/-- Everything a step can do: stay idle, reset the units, run a decoded command, or answer or refuse a record that is no
instruction. -/
theorem step_cases (s : State) :
    (s.inbox = [] ∧ step s = .next s) ∨
    (∃ rest, s.inbox = .reset :: rest ∧ step s = .next s.popInbox.resetUnits) ∨
    (∃ c rest i, s.inbox = .issue c :: rest ∧ decode c = .ok i ∧ step s = exec i s.popInbox) ∨
    (∃ c rest r, s.inbox = .issue c :: rest ∧ decode c = .error r ∧ step s = rejectCommand r s.popInbox) := by
  unfold step
  rcases hi : s.inbox with _ | ⟨_ | _, rest⟩
  · exact .inl ⟨rfl, rfl⟩
  · rename_i c
    cases hd : decode c with
    | ok i => exact .inr (.inr (.inl ⟨c, rest, i, rfl, hd, by simp [hd]⟩))
    | error r => exact .inr (.inr (.inr ⟨c, rest, r, rfl, hd, by simp [hd]⟩))
  · exact .inr (.inl ⟨rest, rfl, rfl⟩)

end Sys2Proof.Machine
end

