-- ==== Sys2Proof/Laws/PerInstr.lean ====
section
/-! SUPPORT. The family Extent, per constructor of Instr: the encoded record carries as many data bytes as its own word's mnemonic and operand call for (30_encoding.md R60, R67). -/

namespace Sys2Proof.Laws.Extent

/-- A well-formed command's record carries the number of data bytes that its mnemonic and operand call for (R67). -/
def Statement (i : Instr) : Prop := i.wellFormed = true → (encode i).data.length = i.mnemonic.extent i.arg

/-- The length of data that fits survives the 32-bit operand (R60). -/
theorem length_of_dataFits (data : List Byte) (h : dataFits data = true) :
    data.length = (BitVec.ofNat 32 data.length).toNat := by
  have h' : data.length < 4294967296 := by simpa [dataFits] using h
  simp [BitVec.toNat_ofNat, Nat.mod_eq_of_lt h']

theorem sysReset : Statement .sysReset := fun _ => rfl
theorem sysStatus : Statement .sysStatus := fun _ => rfl
theorem ftInit : Statement .ftInit := fun _ => rfl
theorem ftFeed (data : List Byte) : Statement (.ftFeed data) := length_of_dataFits data
theorem ftCount (symbol : Word) : Statement (.ftCount symbol) := fun _ => rfl
theorem ftTotal : Statement .ftTotal := fun _ => rfl
theorem encInit (hint : Word) : Statement (.encInit hint) := fun _ => rfl
theorem encFeed (data : List Byte) : Statement (.encFeed data) := length_of_dataFits data
theorem encEnd : Statement .encEnd := fun _ => rfl
theorem encReady : Statement .encReady := fun _ => rfl
theorem encDrain (maxLen : Word) : Statement (.encDrain maxLen) := fun _ => rfl
theorem encCodeof (symbol : Word) : Statement (.encCodeof symbol) := fun _ => rfl
theorem decInit (hint : Word) : Statement (.decInit hint) := fun _ => rfl
theorem decFeed (data : List Byte) : Statement (.decFeed data) := length_of_dataFits data
theorem decReady : Statement .decReady := fun _ => rfl
theorem decDrain (maxLen : Word) : Statement (.decDrain maxLen) := fun _ => rfl
theorem decCodeof (symbol : Word) : Statement (.decCodeof symbol) := fun _ => rfl

end Sys2Proof.Laws.Extent
end

