-- ==== Sys2Proof/Tests/Slice0.lean ====
section
/-! SUPPORT. The model's own tests: well-formedness, decoding of written words, worked examples of the spec (95_test_vectors.md), and for every obligation with hypotheses a witness that meets them. -/

namespace Sys2Proof.Tests
open Sys2Proof Sys2Proof.Machine

/-! ## Well-formedness: an ill-formed term for each check -/

/-- Whether so many data bytes can be counted, without building them. -/
theorem dataFits_replicate (n : Nat) (b : Byte) : dataFits (List.replicate n b) = decide (n < 4294967296) := by
  simp [dataFits]

/-- A feed of 2^32 bytes has no encoding (R60, R62). -/
theorem test_wf_refuses_long_ft_feed : (Instr.ftFeed (List.replicate 4294967296 0)).wellFormed = false :=
  (dataFits_replicate _ _).trans (by decide)

theorem test_wf_refuses_long_enc_feed : (Instr.encFeed (List.replicate 4294967296 0)).wellFormed = false :=
  (dataFits_replicate _ _).trans (by decide)

theorem test_wf_refuses_long_dec_feed : (Instr.decFeed (List.replicate 4294967296 0)).wellFormed = false :=
  (dataFits_replicate _ _).trans (by decide)

/-- The longest feed has one; so has an operand out of its legal range (R62). -/
theorem test_wf_accepts_longest_feed : (Instr.ftFeed (List.replicate 4294967295 0)).wellFormed = true :=
  (dataFits_replicate _ _).trans (by decide)

theorem test_wf_accepts_illegal_symbol : (Instr.ftCount 256).wellFormed = true := by decide

/-! ## Decoding: words written out from R60 and the rows of R61 -/

/-- System, bit by bit: op 00000001, then `arg`, ignored. -/
theorem test_decode_sys_reset :
    decode { word := 0b0000000100000000000000000000000000000000, data := [] } = .ok .sysReset ∧
    decode { word := 0b0000000111111111111111111111111111111111, data := [] } = .ok .sysReset := by decide +kernel

theorem test_decode_sys_status :
    decode { word := 0b0000001000000000000000000000000000000000, data := [] } = .ok .sysStatus := by decide +kernel

/-- FT, bit by bit: op 00010010, symbol 01000001. -/
theorem test_decode_ft_count :
    decode { word := 0b0001001000000000000000000000000001000001, data := [] } = .ok (.ftCount 65) := by decide +kernel

theorem test_decode_ft_init : decode { word := 0x1000000000, data := [] } = .ok .ftInit := by decide +kernel

theorem test_decode_ft_feed :
    decode { word := 0x1100000003, data := [0x00, 0x00, 0xFF] } = .ok (.ftFeed [0x00, 0x00, 0xFF]) := by decide +kernel

theorem test_decode_ft_total : decode { word := 0x1300000000, data := [] } = .ok .ftTotal := by decide +kernel

/-- ENC, bit by bit: op 00100000, hint 00010000; the top bit of an operand is read too. -/
theorem test_decode_enc_init :
    decode { word := 0b0010000000000000000000000000000000010000, data := [] } = .ok (.encInit 16) ∧
    decode { word := 0b0010000010000000000000000000000000000001, data := [] } = .ok (.encInit 0x80000001) := by
  decide +kernel

theorem test_decode_enc_feed : decode { word := 0x2100000001, data := [0x41] } = .ok (.encFeed [0x41]) := by decide +kernel

theorem test_decode_enc_end : decode { word := 0x2200000000, data := [] } = .ok .encEnd := by decide +kernel

theorem test_decode_enc_ready : decode { word := 0x2300000000, data := [] } = .ok .encReady := by decide +kernel

theorem test_decode_enc_drain : decode { word := 0x24FFFFFFFF, data := [] } = .ok (.encDrain 4294967295) := by decide +kernel

theorem test_decode_enc_codeof : decode { word := 0x2500000100, data := [] } = .ok (.encCodeof 256) := by decide +kernel

/-- DEC, bit by bit: op 00110100, maxLen 00000001. -/
theorem test_decode_dec_drain :
    decode { word := 0b0011010000000000000000000000000000000001, data := [] } = .ok (.decDrain 1) := by decide +kernel

theorem test_decode_dec_init : decode { word := 0x3000000007, data := [] } = .ok (.decInit 7) := by decide +kernel

theorem test_decode_dec_feed : decode { word := 0x3100000000, data := [] } = .ok (.decFeed []) := by decide +kernel

theorem test_decode_dec_ready : decode { word := 0x3300000000, data := [] } = .ok .decReady := by decide +kernel

theorem test_decode_dec_codeof : decode { word := 0x3500000041, data := [] } = .ok (.decCodeof 65) := by decide +kernel

/-- The reserved words of V-S3. -/
theorem test_decode_reserved :
    ∀ w ∈ [(0x0000000000, 0x00), (0x0300000000, 0x03), (0x1400000007, 0x14), (0x2600000000, 0x26), (0x3200000000, 0x32),
        (0x3600000000, 0x36), (0x4000000000, 0x40), (0xFF00000000, 0xFF)],
      decode { word := BitVec.ofNat 40 w.1, data := [] } = .error (.reservedOpcode (BitVec.ofNat 8 w.2)) := by decide +kernel

/-- A record whose data length is not the one its word calls for is no command (R60). -/
theorem test_decode_data_length :
    decode { word := 0x3100000002, data := [0x00] } = .error (.dataLength .decFeed) ∧
    decode { word := 0x1300000000, data := [0x00] } = .error (.dataLength .ftTotal) := by decide +kernel

/-- The opcode map and the encoder's opcodes are one table; its opcodes differ from each other. -/
theorem test_opcodes_agree : ∀ row ∈ opcodeMap, row.2.opcode = row.1 := by decide +kernel

theorem test_opcodes_distinct : (opcodeMap.map Prod.fst).Nodup ∧ opcodeMap.length = 17 := by decide +kernel

/-- A table word's feed comes with the zero bytes it calls for (log entry 12). -/
theorem test_table_word :
    decodeTableWord 40 0x1100000002 = some (.ftFeed [0, 0]) ∧ decodeTableWord 40 0x3200000000 = none := by decide +kernel

/-! ## Helpers: small states and what a next state holds -/

/-- The outcome is a next state with the property. -/
def nextHas (p : State → Bool) : Host.Outcome State Fault Refusal → Bool
  | .next t => p t
  | .fault _ => false
  | .refused _ => false

theorem of_nextHas {p : State → Bool} {o : Host.Outcome State Fault Refusal} (h : nextHas p o = true) :
    ∃ t, o = .next t ∧ p t = true := by
  cases o with
  | next t => exact ⟨t, rfl, h⟩
  | fault _ => cases h
  | refused _ => cases h

/-- The outcome is a next state whose last response is the one given. -/
def answers (o : Host.Outcome State Fault Refusal) (status : Status) (val : Word) (data : List Byte) : Bool :=
  nextHas (fun t => decide (t.lastResponse = some { status := status, val := val, data := data })) o

/-- The table of `"AAAB"` (V-T2). -/
def aaab : CountTable := ((Vector.replicate 256 0).set 65 3).set 66 1

/-- The all-zero table (V-T1). -/
def zeros : CountTable := Vector.replicate 256 0

/-- An encoder ACTIVE on a table, no byte fed. -/
def encOn (count : CountTable) (cap : Nat) : Enc where
  phase := .active
  count := count
  tree := buildTree count
  hdrRem := 1024
  cap := cap
  buf := BitBuf.empty

/-- A decoder in PAYLOAD on a table, nothing latched. -/
def decOn (count : CountTable) (cap : Nat) : Dec where
  phase := .payload
  count := count
  hdrRem := 0
  tree := buildTree count
  cursor := 512
  cur := 0
  bitsLeft := 0
  cap := cap
  out := []
  pend := 0
  pendValid := false

/-- A decoder in HEADER with an empty table and `rem` header bytes to come. -/
def decHeader (rem : Fin 1025) : Dec := { Dec.reset with phase := .header, hdrRem := rem, cap := 4 }

/-- CMAX = 5 and small buffer limits. -/
def small (bufMax : Nat) : Params := { cmax := 5, bufMax := bufMax, decBufMax := 8 }

/-- A state with the table of `"AAAB"` in FT. -/
def stateOf (p : Params) (e : Enc) (d : Dec) : State :=
  { State.reset with params := p, ft := { count := aaab, total := 5 }, enc := e, dec := d }

/-! ### Their invariants, for the witnesses -/

theorem aaab_total : tableTotal aaab = 5 := by decide +kernel

theorem small_legal (b : Nat) (h : 1 ≤ b ∧ b ≤ 2147483647) : (small b).legal := ⟨⟨Nat.le_of_ble_eq_true rfl, Nat.le_of_ble_eq_true rfl⟩, h, ⟨Nat.le_of_ble_eq_true rfl, Nat.le_of_ble_eq_true rfl⟩⟩

theorem encReset_inv (p : Params) : Enc.reset.Inv p :=
  ⟨by decide, fun _ => rfl, fun h => (by cases h), fun h => absurd rfl h⟩

theorem decReset_inv (p : Params) : Dec.reset.Inv p where
  idle _ := ⟨rfl, rfl⟩
  session h := absurd rfl h
  header h := by cases h
  absorbed h := by rcases h with h | h <;> cases h
  fault h := by cases h
  built h := by rcases h with h | h <;> cases h
  cursor h := by cases h
  latch h := by cases h
  pending h := by cases h
  done h := by cases h

theorem encOn_inv (p : Params) (count : CountTable) (cap : Nat) (h : tableTotal count ≤ p.cmax) (hc : 1 ≤ cap ∧ cap ≤ p.bufMax) :
    (encOn count cap).Inv p where
  part_lt := Nat.zero_lt_one
  idle_nbits h := by cases h
  ended_nbits h := by cases h
  session _ := ⟨rfl, h, hc.1, hc.2, Nat.zero_le _⟩

theorem decOn_inv (p : Params) (count : CountTable) (cap : Nat) (h : tableTotal count ≤ p.cmax)
    (hc : 1 ≤ cap ∧ cap ≤ p.decBufMax) : (decOn count cap).Inv p where
  idle h := by cases h
  session _ := ⟨hc.1, hc.2, Nat.zero_le _⟩
  header h := by cases h
  absorbed h := by rcases h with h | h <;> cases h
  fault h := by cases h
  built _ := ⟨rfl, rfl, h⟩
  cursor _ := ⟨Nat.le_of_ble_eq_true rfl, Nat.le_refl 512⟩
  latch _ := ⟨Nat.zero_le 7, fun h => absurd h (Nat.lt_irrefl 0)⟩
  pending h := by cases h
  done h := by cases h

theorem stateOf_inv (p : Params) (e : Enc) (d : Dec) (hp : p.legal) (h5 : 5 ≤ p.cmax) (he : e.Inv p) (hd : d.Inv p) :
    (stateOf p e d).Inv := ⟨hp, ⟨aaab_total.symm, h5⟩, he, hd⟩

/-- ENC ACTIVE with capacity 4 of at most 64, DEC in PAYLOAD with room for 8, both on the table of `"AAAB"`. -/
def busy : State := stateOf (small 64) (encOn aaab 4) (decOn aaab 8)

theorem busy_inv : busy.Inv :=
  stateOf_inv _ _ _ (small_legal 64 (by decide)) (by decide) (encOn_inv _ _ _ (by rw [aaab_total]; decide) (by decide))
    (decOn_inv _ _ _ (by rw [aaab_total]; decide) (by decide))

/-- The same with nothing constructed. -/
def fresh : State := stateOf (small 64) Enc.reset Dec.reset

theorem fresh_inv : fresh.Inv :=
  stateOf_inv _ _ _ (small_legal 64 (by decide)) (by decide) (encReset_inv _) (decReset_inv _)

/-- DEC in HEADER with one byte to come. -/
def lastHeaderByte : State := stateOf (small 64) Enc.reset (decHeader 1)

theorem lastHeaderByte_inv : lastHeaderByte.Inv :=
  stateOf_inv _ _ _ (small_legal 64 (by decide)) (by decide) (encReset_inv _)
    { idle := fun h => by cases h
      session := fun _ => ⟨by decide, by decide, by decide⟩
      header := fun _ => ⟨by decide, rfl, rfl, rfl⟩
      absorbed := fun _ s hs => by
        have : countOf (Vector.replicate 256 0) s = 0 := by simp [countOf, hs]
        show countOf (Vector.replicate 256 0) s < _
        rw [this]; exact Nat.pow_pos (by decide)
      fault := fun h => by cases h
      built := fun h => by rcases h with h | h <;> cases h
      cursor := fun h => by cases h
      latch := fun h => by cases h
      pending := fun h => by cases h
      done := fun h => by cases h }

/-- A decoder of capacity 1 that holds `"A"` with a full buffer, six bits latched (V-D6: payload byte 97 after two codes). -/
def heldDec : Dec :=
  { decOn aaab 1 with cur := 0x97, bitsLeft := 6, out := [0x41], pend := 0x41, pendValid := true }

theorem heldDec_inv (p : Params) (h : 5 ≤ p.cmax) (hd : 1 ≤ p.decBufMax) : heldDec.Inv p where
  idle h := by cases h
  session _ := ⟨by decide, hd, by decide⟩
  header h := by cases h
  absorbed h := by rcases h with h | h <;> cases h
  fault h := by cases h
  built _ := ⟨rfl, rfl, by show tableTotal aaab ≤ _; rw [aaab_total]; exact h⟩
  cursor _ := ⟨by decide, by decide⟩
  latch _ := ⟨by decide, fun _ => rfl⟩
  pending _ := ⟨rfl, rfl⟩
  done h := by cases h

/-- ENC ACTIVE, DEC held. -/
def held : State := stateOf (small 64) (encOn aaab 4) heldDec

theorem held_inv : held.Inv :=
  stateOf_inv _ _ _ (small_legal 64 (by decide)) (by decide) (encOn_inv _ _ _ (by rw [aaab_total]; decide) (by decide))
    (heldDec_inv _ (by decide) (by decide))

/-! ## Worked examples of the spec -/

/-- An item of V-Q1, named by a number. -/
def item (node weight : Nat) : QItem := { node := node, weight := weight }

/-- V-Q1: a, b, c, d, e, f = 0 … 5. -/
theorem test_queue_order :
    [item 0 5, item 1 3, item 2 5, item 3 3, item 4 7, item 5 1].foldl (fun q x => qInsert x q) [] =
      [item 5 1, item 3 3, item 1 3, item 2 5, item 0 5, item 4 7] := by decide

/-- V-Q3: the same removal order from the collection with sequence numbers. -/
theorem test_heap_order :
    heapRun 0 [] ([item 0 5, item 1 3, item 2 5, item 3 3, item 4 7, item 5 1].map QOp.insert ++ List.replicate 6 .removeMin) =
      some [item 5 1, item 3 3, item 1 3, item 2 5, item 0 5, item 4 7] := by decide

/-- U3: removal from an empty queue has no result, in either formulation. -/
theorem test_remove_from_empty :
    qRun [] [.insert (item 0 5), .removeMin, .removeMin] = none ∧
    heapRun 0 [] [.insert (item 0 5), .removeMin, .removeMin] = none := by decide

/-- V-F1: the feed of 00 00 FF, then the counts of 0 and 255. -/
theorem test_ft_feed_counts :
    nextHas (fun t => decide (t.ft.total = 4 ∧ countOf t.ft.count 0 = 2 ∧ countOf t.ft.count 255 = 1 ∧ countOf t.ft.count 1 = 0))
      (exec (.ftFeed [0x00, 0x00, 0xFF]) State.reset) = true := by decide +kernel

/-- V-F4, with CMAX = 4: 1 + 4 > 4. -/
theorem test_ft_feed_overflow :
    answers (exec (.ftFeed [0x41, 0x41, 0x41, 0x42]) { State.reset with params := { Params.standard with cmax := 4 } })
      .overflow 0 [] = true ∧
    answers (exec (.ftFeed [0x41, 0x41, 0x41]) { State.reset with params := { Params.standard with cmax := 4 } })
      .success 3 [] = true := by decide +kernel

/-- V-F2 and the table of `"AAAB"`. -/
theorem test_ft_count :
    answers (exec (.ftCount 65) fresh) .success 3 [] = true ∧
    answers (exec (.ftCount 256) fresh) .contractViolation 0 [] = true := by decide +kernel

/-- V-S1, V-T2. -/
theorem test_ft_total :
    answers (exec .ftTotal State.reset) .success 1 [] = true ∧ answers (exec .ftTotal fresh) .success 5 [] = true := by
  decide +kernel

theorem test_ft_init : nextHas (fun t => decide (t.ft.count.toList = List.replicate 256 0 ∧ t.ft.total = 1)) (exec .ftInit fresh) = true := by decide +kernel

/-- V-T1: nodes and codes of the all-zero table. -/
theorem test_tree_zeros :
    (buildTree zeros).leftOf 257 = 255 ∧ (buildTree zeros).rightOf 257 = 254 ∧ (buildTree zeros).leftOf 510 = 509 ∧
    (buildTree zeros).rightOf 510 = 1 ∧ (buildTree zeros).leftOf 512 = 511 ∧ (buildTree zeros).rightOf 512 = 256 ∧
    codeOf (buildTree zeros) 256 = some [true] ∧ codeOf (buildTree zeros) 0 = some [false, true] := by decide +kernel

/-- V-T2: nodes and codes of the table of `"AAAB"`. -/
theorem test_tree_aaab :
    (buildTree aaab).leftOf 510 = 509 ∧ (buildTree aaab).rightOf 510 = 256 ∧ (buildTree aaab).weightOf 510 = 1 ∧
    (buildTree aaab).leftOf 511 = 510 ∧ (buildTree aaab).rightOf 511 = 66 ∧ (buildTree aaab).weightOf 512 = 5 ∧
    (buildTree aaab).leftOf 320 = 319 ∧ (buildTree aaab).rightOf 320 = 191 := by decide +kernel

theorem test_codes_aaab :
    codeOf (buildTree aaab) 65 = some [true] ∧ codeOf (buildTree aaab) 66 = some [false, true] ∧
    codeOf (buildTree aaab) 256 = some [false, false, true] ∧
    codeOf (buildTree aaab) 0 = some [false, false, false, true] := by decide +kernel

/-- V-T3: in the table of `"AB"` leaf 65 is removed before node 511, so it is the root's left child. -/
theorem test_codes_ab :
    codeOf (buildTree ((zeros.set 65 1).set 66 1)) 65 = some [false] ∧
    codeOf (buildTree ((zeros.set 65 1).set 66 1)) 256 = some [true, false, true] := by decide +kernel

/-- V-T7: bit 0 from the root, then bit 1 from node 511. -/
theorem test_decode_step :
    decodeStep (buildTree aaab) 512 false = some (511, none) ∧
    decodeStep (buildTree aaab) 511 true = some (512, some 66) := by decide +kernel

/-- V-W1, V-W3. -/
theorem test_header_bytes :
    headerBytes aaab 258 4 = [0, 0, 3, 0] ∧ headerByte aaab 264 = 1 ∧
    headerBytes (zeros.set 0 305419896) 0 4 = [0x78, 0x56, 0x34, 0x12] := by decide +kernel

/-- R130 on the table of `"AAAB"`; V-E6's range with BUF_MAX = 4. -/
theorem test_enc_init :
    nextHas (fun t => decide (t.enc.phase = .active ∧ countOf t.enc.count 65 = 3 ∧ t.enc.tree.rightOf 511 = 66 ∧
        t.enc.hdrRem = 1024 ∧ t.enc.cap = 1 ∧ t.enc.buf = BitBuf.empty)) (exec (.encInit 1) fresh) = true ∧
    answers (exec (.encInit 5) (stateOf (small 4) Enc.reset Dec.reset)) .contractViolation 0 [] = true := by decide +kernel

/-- V-E1: the partial byte 17 (hexadecimal) with 5 bits, no growth. -/
theorem test_enc_feed_packs :
    nextHas (fun t => decide (t.enc.buf = { bytes := [], part := 0x17, nbits := 5 } ∧ t.enc.cap = 1 ∧
        t.lastResponse = some { status := .success, val := 4, data := [] }))
      (exec (.encFeed [0x41, 0x41, 0x41, 0x42]) (stateOf (small 4) (encOn aaab 1) Dec.reset)) = true := by decide +kernel

/-- R131, R133 on codes of one bit (V-E7 with the answer false): eight bytes encoded, OutOfMemory, the capacity as it was. -/
theorem test_enc_feed_out_of_memory :
    nextHas (fun t => decide (t.enc.buf = { bytes := [0xFF], part := 0, nbits := 0 } ∧ t.enc.cap = 1 ∧
        t.grants = [] ∧ t.lastResponse = some { status := .outOfMemory, val := 8, data := [] }))
      (exec (.encFeed (List.replicate 9 0x41)) { stateOf (small 64) (encOn aaab 1) Dec.reset with grants := [false] }) =
        true := by
  decide +kernel

/-- V-E1: the byte 97 (hexadecimal) after ENC_END. -/
theorem test_enc_end :
    nextHas (fun t => decide (t.enc.buf = { bytes := [0x97], part := 0, nbits := 0 } ∧ t.enc.phase = .ended))
      (exec .encEnd (stateOf (small 4)
        { encOn aaab 1 with buf := { bytes := [], part := 0x17, nbits := 5 } } Dec.reset)) = true := by decide +kernel

/-- V-E7: ENC_END with a full buffer past the guard. -/
theorem test_enc_end_too_much :
    nextHas (fun t => decide (t.enc.phase = .active ∧ t.enc.cap = 2 ∧
        t.lastResponse = some { status := .tooMuchData, val := 0, data := [] }))
      (exec .encEnd (stateOf (small 2)
        { encOn aaab 2 with hdrRem := 0, buf := { bytes := [0xFF, 0xFF], part := 0, nbits := 0 } } Dec.reset)) = true := by
  decide +kernel

/-- V-E1, V-E9. -/
theorem test_enc_ready :
    answers (exec .encReady busy) .success 1024 [] = true ∧
    answers (exec .encReady fresh) .contractViolation 0 [] = true := by decide +kernel

/-- V-E5: the partial byte moves to position 0. -/
theorem test_enc_drain :
    nextHas (fun t => decide (t.enc.buf = { bytes := [], part := 0x01, nbits := 3 } ∧
        t.lastResponse = some { status := .success, val := 1, data := [0x3E] }))
      (exec (.encDrain 1) (stateOf (small 4)
        { encOn aaab 4 with hdrRem := 0, buf := { bytes := [0x3E], part := 0x01, nbits := 3 } } Dec.reset)) = true := by
  decide +kernel

/-- V-T2: the codes in ENC_CODEOF's packing; V-E9: symbol 257. -/
theorem test_enc_codeof :
    answers (exec (.encCodeof 66) busy) .success 2 [0x02] = true ∧
    answers (exec (.encCodeof 256) busy) .success 3 [0x04] = true ∧
    answers (exec (.encCodeof 257) busy) .contractViolation 0 [] = true := by decide +kernel

/-- R150; V-D9. -/
theorem test_dec_init :
    nextHas (fun t => decide (t.dec.phase = .header ∧ t.dec.hdrRem = 1024 ∧ t.dec.cap = 8 ∧ t.dec.out = [] ∧
        countOf t.dec.count 65 = 0)) (exec (.decInit 8) busy) = true ∧
    answers (exec (.decInit 0) fresh) .contractViolation 0 [] = true := by decide +kernel

/-- V-D1, V-D3: the payload byte of `"AAAB"`, then bytes that are not consumed. -/
theorem test_dec_feed_to_done :
    nextHas (fun t => decide (t.dec.out = [0x41, 0x41, 0x41, 0x42] ∧ t.dec.phase = .done ∧
        t.lastResponse = some { status := .done, val := 1, data := [] }))
      (exec (.decFeed [0x97, 0xDE, 0xAD]) busy) = true := by decide +kernel

/-- R187: held is stuck, not finished; only Done finishes. -/
theorem test_standing :
    held.dec.standing = .held ∧ busy.dec.standing = .unfinished ∧ fresh.dec.standing = .none ∧
    nextHas (fun t => decide (t.dec.standing = .finished)) (exec (.decFeed [0x97]) busy) = true ∧
    nextHas (fun t => decide (t.dec.standing = .faulted)) (exec (.decFeed [0x80]) lastHeaderByte) = true := by
  decide +kernel

/-- R187: Overflow is a fault of the session at DEC_FEED and an ordinary result at FT_FEED. -/
theorem test_outcome_class :
    outcomeClass (.decFeed []) .overflow = .sessionFault ∧ outcomeClass (.ftFeed []) .overflow = .ordinary ∧
    outcomeClass (.decFeed []) .outputFull = .hold ∧ outcomeClass (.decFeed []) .done = .final ∧
    outcomeClass .encEnd .contractViolation = .refusal := by decide

/-- V-D6: from the held state after one drain, the pending `"A"` is flushed and the next one held. -/
theorem test_dec_feed_resumes :
    nextHas (fun t => decide (t.dec.out = [0x41] ∧ t.dec.pend = 0x41 ∧ t.dec.pendValid = true ∧ t.dec.bitsLeft = 5 ∧
        t.lastResponse = some { status := .outputFull, val := 0, data := [] }))
      (exec (.decFeed []) (stateOf (small 64) Enc.reset { heldDec with out := [] })) = true := by decide +kernel

/-- V-D8: the last header byte of a table whose `count[255]` passes CMAX. -/
theorem test_dec_feed_overflow :
    nextHas (fun t => decide (t.dec.phase = .fault ∧ t.lastResponse = some { status := .overflow, val := 1, data := [] }))
      (exec (.decFeed [0x80, 0x01]) lastHeaderByte) = true := by decide +kernel

/-- V-D6: a pending symbol is not counted. -/
theorem test_dec_ready : answers (exec .decReady held) .success 1 [] = true := by decide +kernel

/-- V-D6: the drain leaves the pending symbol. -/
theorem test_dec_drain :
    nextHas (fun t => decide (t.dec.out = [] ∧ t.dec.pendValid = true ∧
        t.lastResponse = some { status := .success, val := 1, data := [0x41] })) (exec (.decDrain 1) held) = true := by
  decide +kernel

/-- V-D4, V-D9. -/
theorem test_dec_codeof :
    answers (exec (.decCodeof 65) busy) .success 1 [0x01] = true ∧
    answers (exec (.decCodeof 0) lastHeaderByte) .contractViolation 0 [] = true := by decide +kernel

/-- R171's example (V-S2): encoder ACTIVE with 5 bits, decoder PAYLOAD, pending, 5 bits left. -/
theorem test_sys_status :
    answers (exec .sysStatus (stateOf (small 64) { encOn aaab 1 with buf := { bytes := [], part := 0x17, nbits := 5 } }
      { heldDec with bitsLeft := 5 })) .success 0x00055121 [] = true := by decide +kernel

/-- V-S1. -/
theorem test_sys_reset :
    nextHas (fun t => decide (t.enc.phase = .idle ∧ t.dec.phase = .idle ∧ statusWord t = 0 ∧ t.ft.total = 1))
      (exec .sysReset held) = true := by decide +kernel

/-- From reset, the command of a table word runs as the next step (R130; log entry 1). -/
theorem test_fetch_word :
    nextHas (fun t => decide (t.enc.phase = .active ∧ t.enc.cap = 16 ∧ t.inbox = []))
      (step (State.reset.withFetchWord 40 0x2000000010)) = true := by decide +kernel

/-! ## Witnesses: a state and operands that meet all hypotheses of a statement together -/

theorem next_of {o : Host.Outcome State Fault Refusal} (h : nextHas (fun _ => true) o = true) : ∃ t, o = .next t :=
  let ⟨t, ht, _⟩ := of_nextHas h
  ⟨t, ht⟩

theorem next_with {o : Host.Outcome State Fault Refusal} {rs : List Response}
    (h : nextHas (fun t => decide (t.responses = rs)) o = true) : ∃ t, o = .next t ∧ t.responses = rs :=
  let ⟨t, ht, hr⟩ := of_nextHas h
  ⟨t, ht, of_decide_eq_true hr⟩

theorem witness_DecodeOfEncode :
    (Instr.ftFeed [0x41, 0x42]).wellFormed = true ∧ (Instr.encDrain 0xFFFFFFFF).wellFormed = true := by decide

/-- A record with an ignored operand, and one whose operand is read. -/
theorem witness_EncodeOfDecode :
    decode { word := 0x01DEADBEEF, data := [] } = .ok .sysReset ∧
    decode { word := 0x2000000010, data := [] } = .ok (.encInit 16) := by decide +kernel

/-- Both ends of every range. -/
theorem witness_ReservedOpcodeRefused :
    ∀ op ∈ [0x00, 0x03, 0x0F, 0x14, 0x1F, 0x26, 0x2F, 0x32, 0x36, 0xFF],
      let c : Command := { word := BitVec.ofNat 40 (op * 2 ^ 32), data := [] }
      ({ fresh with inbox := [.issue c] } : State).inbox = .issue c :: [] ∧
      (let op := (c.word.extractLsb' 32 8).toNat
       op = 0x00 ∨ (0x03 ≤ op ∧ op ≤ 0x0F) ∨ (0x14 ≤ op ∧ op ≤ 0x1F) ∨ (0x26 ≤ op ∧ op ≤ 0x2F) ∨ op = 0x32 ∨
         (0x36 ≤ op ∧ op ≤ 0xFF)) := by decide +kernel

theorem witness_StepRunsDecodedCommand :
    ∃ (s : State) (c : Command) (i : Instr) (rest : List HostEvent), s.inbox = .issue c :: rest ∧ decode c = .ok i :=
  ⟨State.reset.withFetchWord 40 0x2000000010, tableCommand 40 0x2000000010, .encInit 16, [], rfl, by decide +kernel⟩

theorem witness_IdleAndResetEvent :
    State.reset.inbox = [] ∧ ∃ (s : State) (rest : List HostEvent), s.inbox = .reset :: rest :=
  ⟨rfl, { busy with inbox := [.reset, .reset] }, [.reset], rfl⟩

theorem witness_StepKeepsInvariant : ∃ s t : State, s.Inv ∧ step s = .next t :=
  let s : State := { busy with inbox := [.issue { word := 0x2200000000, data := [] }] }
  let ⟨t, ht⟩ := next_of (o := step s) (by decide +kernel)
  ⟨s, t, ⟨busy_inv.params, busy_inv.ft, busy_inv.enc, busy_inv.dec⟩, ht⟩

/-- Nothing constructed; both units at work; a header in progress; a symbol pending. -/
theorem witness_EveryCommandAnswered : fresh.Inv ∧ busy.Inv ∧ lastHeaderByte.Inv ∧ held.Inv :=
  ⟨fresh_inv, busy_inv, lastHeaderByte_inv, held_inv⟩

theorem witness_UnwrittenStateUnobservable : ∃ s t : State, s ≠ t ∧ s.Agree t :=
  ⟨fresh, { fresh with enc := { Enc.reset with cap := 7 }, dec := { Dec.reset with cur := 1, cursor := 300 } },
    fun h => absurd (congrArg (fun u : State => u.enc.cap) h) (by decide),
    { params := rfl, ft := rfl, inbox := rfl, grants := rfl, growAsked := rfl, responses := rfl
      enc := ⟨rfl, rfl, fun h => absurd rfl h⟩
      dec := { phase := rfl, pendValid := rfl, bitsLeft := rfl
               session := fun h => absurd rfl h
               built := fun h => by rcases h with h | h <;> cases h
               cursor := fun h => by cases h
               latch := fun h => absurd h (by decide)
               pending := fun h => by cases h } }⟩

theorem witness_UnitsIndependent :
    (unitOf (.ftCount 65) = .ft ∧ ∃ t, exec (.ftCount 65) busy = .next t) ∧
    (unitOf (.decDrain 1) = .dec ∧ ∃ t, exec (.decDrain 1) held = .next t) ∧
    (unitOf (.encInit 1) = .enc ∧ ∃ t, exec (.encInit 1) busy = .next t) ∧
    (unitOf (.encDrain 1) = .enc ∧ (∀ hint, Instr.encDrain 1 ≠ .encInit hint) ∧ ∃ t, exec (.encDrain 1) busy = .next t) :=
  ⟨⟨rfl, next_of (by decide +kernel)⟩, ⟨rfl, next_of (by decide +kernel)⟩, ⟨rfl, next_of (by decide +kernel)⟩,
    rfl, nofun, next_of (by decide +kernel)⟩

theorem witness_CommandFrame :
    ∃ t, exec (.ftCount 65) busy = .next t ∧ Instr.ftCount 65 ≠ .encEnd ∧ (∀ data, Instr.ftCount 65 ≠ .encFeed data) ∧
      (Instr.ftCount 65).mnemonic ∈
        [Mnemonic.sysStatus, .ftCount, .ftTotal, .encReady, .encCodeof, .decReady, .decCodeof] :=
  let ⟨t, ht⟩ := next_of (o := exec (.ftCount 65) busy) (by decide +kernel)
  ⟨t, ht, nofun, nofun, by decide⟩

theorem witness_StatusesOfCommands : ∃ t, exec (.decFeed [0x97]) busy = .next t := next_of (by decide +kernel)

/-- Each cause, at the boundary of its range. -/
theorem witness_ContractViolationExactly :
    (violates (.ftCount 256) busy ∧ violates (.encInit 0) busy ∧ violates (.encInit 65) busy ∧
      violates (.encFeed []) fresh ∧ violates (.encFeed []) (stateOf (small 64) { encOn aaab 4 with phase := .ended } Dec.reset) ∧
      violates .encEnd fresh ∧ violates .encReady fresh ∧ violates (.encDrain 0) fresh ∧
      violates (.encCodeof 0) fresh ∧ violates (.encCodeof 257) busy ∧ violates (.decInit 0) busy ∧
      violates (.decInit 9) busy ∧ violates (.decFeed []) fresh ∧
      violates (.decFeed []) (stateOf (small 64) Enc.reset { decOn aaab 4 with phase := .done }) ∧
      violates (.decFeed []) (stateOf (small 64) Enc.reset { decHeader 0 with phase := .fault }) ∧
      violates .decReady fresh ∧ violates (.decDrain 0) fresh ∧ violates (.decCodeof 0) lastHeaderByte ∧
      violates (.decCodeof 257) busy) ∧
    ∃ t r, exec (.ftCount 256) busy = .next t ∧ t.responses = busy.responses ++ [r] ∧ r.status = .contractViolation := by
  refine ⟨by simp only [violates]; decide, ?_⟩
  obtain ⟨t, ht, hr⟩ := next_with (o := exec (.ftCount 256) busy)
    (rs := busy.responses ++ [{ status := .contractViolation, val := 0, data := [] }]) (by decide +kernel)
  exact ⟨t, _, ht, hr, rfl⟩

theorem witness_PhaseTransitions :
    ∃ t r, busy.Inv ∧ exec (.decFeed [0x97]) busy = .next t ∧ t.responses = busy.responses ++ [r] :=
  let ⟨t, ht, hr⟩ := next_with (o := exec (.decFeed [0x97]) busy)
    (rs := busy.responses ++ [{ status := .done, val := 1, data := [] }]) (by decide +kernel)
  ⟨t, _, busy_inv, ht, hr⟩

theorem witness_StoredNumbersFit :
    busy.Inv ∧ busy.enc.phase ≠ .idle ∧ busy.dec.phase ≠ .idle ∧ busy.dec.phase = .payload :=
  ⟨busy_inv, by decide, by decide, rfl⟩

/-- CMAX = 5 and a total of 1: four bytes fit, five do not. -/
theorem witness_FtFeedCounts :
    let s : State := { fresh with ft := Ft.reset }
    (s.params.cmax < s.ft.total + [0x41, 0x41, 0x41, 0x42, 0x43].length) ∧
    (s.ft.total + [0x41, 0x41, 0x41, 0x42].length ≤ s.params.cmax) ∧ s.ft.total = tableTotal s.ft.count := by
  decide +kernel

theorem witness_FtFeedOrderAndCuts :
    ∃ (s : State) (data perm a b : List Byte), data.Perm perm ∧ data = a ++ b ∧ s.ft.total + data.length ≤ s.params.cmax :=
  ⟨{ fresh with ft := Ft.reset }, [0x41, 0x42], [0x42, 0x41], [0x41], [0x42], .swap _ _ _, rfl, by decide⟩

theorem witness_FtCountReads : (255 : Word).toNat < 256 ∧ 255 < (256 : Word).toNat ∧ busy.Inv :=
  ⟨by decide, by decide, busy_inv⟩

theorem witness_FtTotalReads : busy.Inv := busy_inv

theorem witness_QInsertPlace :
    [item 0 1, item 1 1, item 2 3].Pairwise fun y z => y.weight ≤ z.weight := by decide

theorem witness_WeightsBounded : (small 64).legal ∧ 512 ≤ 512 ∧ 1 + aaab.toList.sum ≤ (small 64).cmax :=
  ⟨small_legal 64 (by decide), by decide, by decide +kernel⟩

/-- The ends of the ranges of nodes and symbols in BuiltTreeShape, DecodeStepInvertsCodeOf, EmptyTableCodes. -/
theorem witness_NodeRanges : 511 < 512 ∧ 257 ≤ 257 ∧ 512 ≤ 512 ∧ 255 < 256 ∧ 256 ≤ 256 ∧ 254 ≤ 254 := by decide

theorem witness_CodesPrefixFree :
    65 ≤ 256 ∧ codeOf (buildTree aaab) 65 = some [true] ∧ [true] <+: [true] :=
  ⟨by decide, by decide +kernel, List.prefix_rfl⟩

theorem witness_MonotonicCodeLength :
    codeOf (buildTree aaab) 65 = some [true] ∧ codeOf (buildTree aaab) 66 = some [false, true] ∧
    leafWeight aaab 66 < leafWeight aaab 65 := by decide +kernel

theorem witness_CodeofReturnsCode :
    busy.Inv ∧ (256 : Word).toNat ≤ 256 ∧ busy.enc.phase ≠ .idle ∧ busy.dec.phase = .payload :=
  ⟨busy_inv, by decide, by decide, rfl⟩

theorem witness_EncInitConstructs :
    (1 ≤ (1 : Word).toNat ∧ (1 : Word).toNat ≤ busy.params.bufMax) ∧
    (1 ≤ (64 : Word).toNat ∧ (64 : Word).toNat ≤ busy.params.bufMax) ∧
    (0 : Word).toNat = 0 ∧ busy.params.bufMax < (65 : Word).toNat := by decide

/-- Capacity 1: eight bits need no doubling; 32 bits need two, allowed and answered either way, or past BUF_MAX. -/
theorem witness_EncReserveOutcome :
    let s (b : Nat) (g : Bool) : State := { stateOf (small b) (encOn aaab 1) Dec.reset with grants := [g] }
    let fits (s : State) (l k : Nat) : Prop := 1 ≤ s.enc.cap ∧
      8 * s.enc.buf.nbytes + s.enc.buf.nbits.val + l ≤ 8 * (s.enc.cap * 2 ^ k) ∧
      ∀ j < k, 8 * (s.enc.cap * 2 ^ j) < 8 * s.enc.buf.nbytes + s.enc.buf.nbits.val + l
    fits (s 4 true) 8 0 ∧
    (fits (s 3 true) 32 2 ∧ (s 3 true).params.bufMax < (s 3 true).enc.cap * 2 ^ 2) ∧
    (fits (s 4 true) 32 2 ∧ (s 4 true).enc.cap * 2 ^ 2 ≤ (s 4 true).params.bufMax ∧ (s 4 true).grantAnswer = true) ∧
    (fits (s 4 false) 32 2 ∧ (s 4 false).enc.cap * 2 ^ 2 ≤ (s 4 false).params.bufMax ∧ (s 4 false).grantAnswer = false) := by
  simp only
  refine ⟨⟨by decide, by decide, by decide⟩, ⟨⟨by decide, by decide, by decide⟩, by decide⟩,
    ⟨⟨by decide, by decide, by decide⟩, by decide, rfl⟩, ⟨by decide, by decide, by decide⟩, by decide, rfl⟩

theorem witness_EncFeedAppendsCodes : busy.Inv ∧ busy.enc.phase = .active ∧ [(0x41 : Byte)].length < 2 ^ 32 :=
  ⟨busy_inv, rfl, by decide⟩

/-- Four bytes of room, 32 code bits. -/
theorem witness_EncFeedCompletes :
    busy.Inv ∧ busy.enc.phase = .active ∧ (List.replicate 16 (0x42 : Byte)).length < 2 ^ 32 ∧
    codesOf busy.enc.tree (List.replicate 16 0x42) = some (List.replicate 16 [false, true]).flatten ∧
    busy.enc.buf.need (List.replicate 16 [false, true]).flatten.length ≤ busy.enc.cap :=
  ⟨busy_inv, rfl, by decide, by decide +kernel, by decide⟩

/-- ENC ACTIVE with a full buffer of one byte. -/
def full (bufMax : Nat) (answer : Bool) : State :=
  { stateOf (small bufMax) { encOn aaab 1 with buf := { bytes := [0xFF], part := 0, nbits := 0 } } Dec.reset with
    grants := [answer] }

theorem full_inv (b : Nat) (g : Bool) (h : 1 ≤ b ∧ b ≤ 2147483647) : (full b g).Inv :=
  have hs : (stateOf (small b) Enc.reset Dec.reset).Inv :=
    stateOf_inv _ _ _ (small_legal b h) (Nat.le_refl 5) (encReset_inv _) (decReset_inv _)
  ⟨hs.params, hs.ft,
    { part_lt := Nat.zero_lt_one
      idle_nbits := fun _ => rfl
      ended_nbits := fun _ => rfl
      session := fun _ => ⟨rfl, by show tableTotal aaab ≤ 5; rw [aaab_total], Nat.le_refl 1, h.1, Nat.le_refl 1⟩ },
    hs.dec⟩

/-- Past the guard, and turned down. -/
theorem witness_EncFeedStopsAtFailure :
    (∃ t, (full 1 true).enc.phase = .active ∧ codeOf (full 1 true).enc.tree (0x41 : Byte).toNat = some [true] ∧
      encReserve [true].length (full 1 true) = .fail .tooMuchData t) ∧
    (∃ t, (full 2 false).enc.phase = .active ∧ codeOf (full 2 false).enc.tree (0x41 : Byte).toNat = some [true] ∧
      encReserve [true].length (full 2 false) = .fail .outOfMemory t) :=
  ⟨⟨_, rfl, by decide +kernel, rfl⟩, ⟨_, rfl, by decide +kernel, rfl⟩⟩

/-- Room there already, and by one granted growth. -/
theorem witness_EncEndCompletes :
    (busy.Inv ∧ busy.enc.phase = .active ∧ codeOf busy.enc.tree 256 = some [false, false, true] ∧ busy.roomFor 3) ∧
    ((full 2 true).Inv ∧ (full 2 true).enc.phase = .active ∧
      codeOf (full 2 true).enc.tree 256 = some [false, false, true] ∧ (full 2 true).roomFor 3) :=
  ⟨⟨busy_inv, rfl, by decide +kernel, .inl (by decide)⟩,
    full_inv 2 true (by decide), rfl, by decide +kernel, .inr ⟨rfl, 1, by decide, by decide⟩⟩

/-- Success, TooMuchData, OutOfMemory. -/
theorem witness_EncEndFailureChangesNothing :
    (busy.enc.phase = .active ∧ ∃ t, exec .encEnd busy = .next t) ∧
    ((full 1 true).enc.phase = .active ∧ ∃ t, exec .encEnd (full 1 true) = .next t) ∧
    ((full 2 false).enc.phase = .active ∧ ∃ t, exec .encEnd (full 2 false) = .next t) :=
  ⟨⟨rfl, next_of (by decide +kernel)⟩, ⟨rfl, next_of (by decide +kernel)⟩, rfl, next_of (by decide +kernel)⟩

theorem witness_CapacityOnlyDoubles :
    ∃ t, (full 2 true).Inv ∧ (full 2 true).enc.phase ≠ .idle ∧ Instr.encEnd ≠ .sysReset ∧
      (∀ hint, Instr.encEnd ≠ .encInit hint) ∧ exec .encEnd (full 2 true) = .next t :=
  let ⟨t, ht⟩ := next_of (o := exec .encEnd (full 2 true)) (by decide +kernel)
  ⟨t, full_inv 2 true (by decide), nofun, nofun, nofun, ht⟩

/-- For EncReadyCounts and EncDrainTakesPrefix. -/
theorem witness_EncReadyCounts :
    (busy.Inv ∧ busy.enc.phase ≠ .idle) ∧ ((full 1 true).Inv ∧ (full 1 true).enc.phase ≠ .idle) ∧
    (fresh.Inv ∧ fresh.enc.phase = .idle) :=
  ⟨⟨busy_inv, by decide⟩, ⟨full_inv 1 true (by decide), by decide⟩, fresh_inv, rfl⟩

/-- Two steps, each with its response. -/
theorem two_steps {o : Host.Outcome State Fault Refusal} {i : Instr} {rs qs : List Response}
    (h : nextHas (fun t => decide (t.responses = rs) && nextHas (fun u => decide (u.responses = qs)) (exec i t)) o = true) :
    ∃ t u, o = .next t ∧ t.responses = rs ∧ exec i t = .next u ∧ u.responses = qs := by
  obtain ⟨t, ht, h⟩ := of_nextHas h
  rw [Bool.and_eq_true] at h
  obtain ⟨u, hu, hq⟩ := next_with h.2
  exact ⟨t, u, ht, of_decide_eq_true h.1, hu, hq⟩

theorem witness_EncFeedCutsDoNotMatter :
    ∃ (s t u : State) (a b : List Byte) (r : Response), (a ++ b).length < 2 ^ 32 ∧ exec (.encFeed a) s = .next t ∧
      t.responses = s.responses ++ [{ status := .success, val := BitVec.ofNat 32 a.length, data := [] }] ∧
      exec (.encFeed b) t = .next u ∧ u.responses = t.responses ++ [r] := by
  obtain ⟨t, u, h1, h2, h3, h4⟩ := two_steps (o := exec (.encFeed [0x41]) busy) (i := .encFeed [0x42, 0x41])
    (rs := [{ status := .success, val := 1, data := [] }])
    (qs := [{ status := .success, val := 1, data := [] }, { status := .success, val := 2, data := [] }]) (by decide +kernel)
  exact ⟨busy, t, u, [0x41], [0x42, 0x41], _, by decide, h1, h2, h3, h4.trans (by rw [h2]; rfl)⟩

theorem witness_DrainCutsDoNotMatter :
    held.Inv ∧ (1000 : Word).toNat + (25 : Word).toNat < 2 ^ 32 ∧ held.enc.phase ≠ .idle ∧ held.dec.phase ≠ .idle :=
  ⟨held_inv, by decide, by decide, by decide⟩

theorem witness_HeaderReproducesTable : ∀ i, (h : i < 256) → aaab[i] < 2 ^ 32 := by decide +kernel

theorem issueAll_append (is : List Instr) (i : Instr) (s : State) {t : State} (h : issueAll is s = .next t) :
    issueAll (is ++ [i]) s = exec i t := by
  induction is generalizing s with
  | nil => cases h; simp only [issueAll, List.nil_append]; split <;> simp_all
  | cons j is ih =>
    simp only [List.cons_append, issueAll] at h ⊢
    cases hj : exec j s <;> simp_all

/-- An encoding session from `fresh` whose first five commands all succeed: the last command drains it. -/
theorem session_drained (counted data : List Byte)
    (h : nextHas (fun t => decide (t.enc.phase = .ended ∧ t.responses =
      [{ status := .success, val := 0, data := [] }, { status := .success, val := BitVec.ofNat 32 counted.length, data := [] },
       { status := .success, val := 0, data := [] }, { status := .success, val := BitVec.ofNat 32 data.length, data := [] },
       { status := .success, val := 0, data := [] }]))
      (issueAll [.ftInit, .ftFeed counted, .encInit 1, .encFeed data, .encEnd] fresh) = true) :
    ∃ (t : State) (wire : List Byte) (k : Nat), k < 2 ^ 32 ∧
      issueAll (encodeSession 1 counted data) fresh = .next t ∧
      t.responses = fresh.responses ++
        [{ status := .success, val := 0, data := [] }, { status := .success, val := BitVec.ofNat 32 counted.length, data := [] },
         { status := .success, val := 0, data := [] }, { status := .success, val := BitVec.ofNat 32 data.length, data := [] },
         { status := .success, val := 0, data := [] }, { status := .success, val := BitVec.ofNat 32 k, data := wire }] := by
  obtain ⟨t, ht, h⟩ := of_nextHas h
  obtain ⟨hp, hr⟩ := of_decide_eq_true h
  have he := issueAll_append _ (.encDrain 0xFFFFFFFF) _ ht
  simp only [exec, execEncDrain, hp] at he
  have hk : min (operand 0xFFFFFFFF) t.enc.ready < 2 ^ 32 := Nat.lt_of_le_of_lt (Nat.min_le_left _ _) (by decide)
  exact ⟨_, _, _, hk, he, by simp only [State.answer, hr]; rfl⟩

/-- ENCODE_ALL of one byte, from `fresh`. -/
theorem witness_EncodeAllOutput :
    ∃ (t : State) (wire : List Byte) (k : Nat), fresh.Inv ∧ [(0x41 : Byte)].length < 2 ^ 32 ∧ k < 2 ^ 32 ∧
      issueAll (encodeAll 1 [0x41]) fresh = .next t ∧
      t.responses = fresh.responses ++
        [{ status := .success, val := 0, data := [] }, { status := .success, val := BitVec.ofNat 32 [(0x41 : Byte)].length, data := [] },
         { status := .success, val := 0, data := [] }, { status := .success, val := BitVec.ofNat 32 [(0x41 : Byte)].length, data := [] },
         { status := .success, val := 0, data := [] }, { status := .success, val := BitVec.ofNat 32 k, data := wire }] :=
  let ⟨t, wire, k, hk, h, hr⟩ := session_drained [0x41] [0x41] (by decide +kernel)
  ⟨t, wire, k, fresh_inv, by decide, hk, h, hr⟩

/-- A byte encoded under another byte's table, decoded from `busy` with one byte of room. -/
theorem witness_RoundTrip :
    busy.Inv ∧ 1 + [(0x41 : Byte)].length ≤ busy.params.cmax ∧ 1 ≤ (1 : Word).toNat ∧
    (1 : Word).toNat ≤ busy.params.decBufMax ∧ [(0x41 : Byte)].length < 2 ^ 32 ∧ [(0x00 : Byte)].length < 2 ^ 32 ∧
    ∃ (t : State) (wire : List Byte) (k : Nat), fresh.Inv ∧ issueAll (encodeSession 1 [0x41] [0x00]) fresh = .next t ∧
      t.responses = fresh.responses ++
        [{ status := .success, val := 0, data := [] }, { status := .success, val := BitVec.ofNat 32 [(0x41 : Byte)].length, data := [] },
         { status := .success, val := 0, data := [] }, { status := .success, val := BitVec.ofNat 32 [(0x00 : Byte)].length, data := [] },
         { status := .success, val := 0, data := [] }, { status := .success, val := BitVec.ofNat 32 k, data := wire }] :=
  let ⟨t, wire, k, _, h, hr⟩ := session_drained [0x41] [0x00] (by decide +kernel)
  ⟨busy_inv, by decide, by decide, by decide, by decide, by decide, t, wire, k, fresh_inv, h, hr⟩

theorem witness_DecInitConstructs :
    (1 ≤ (1 : Word).toNat ∧ (1 : Word).toNat ≤ busy.params.decBufMax) ∧
    (1 ≤ (8 : Word).toNat ∧ (8 : Word).toNat ≤ busy.params.decBufMax) ∧
    (0 : Word).toNat = 0 ∧ busy.params.decBufMax < (9 : Word).toNat := by decide

/-- No byte, and all but one. -/
theorem witness_DecFeedWithinHeader :
    let s : State := stateOf (small 64) Enc.reset (decHeader 1024)
    s.dec.phase = .header ∧ ([] : List Byte).length < s.dec.hdrRem.val ∧
    (List.replicate 1023 (0 : Byte)).length < s.dec.hdrRem.val := by
  refine ⟨rfl, by decide, ?_⟩
  rw [List.length_replicate]
  decide

/-- A last header byte that leaves the table valid, and one that does not. -/
theorem witness_DecFeedCompletesHeader :
    lastHeaderByte.Inv ∧ lastHeaderByte.dec.phase = .header ∧
    [(0x00 : Byte)].length = lastHeaderByte.dec.hdrRem.val ∧ [(0x80 : Byte)].length = lastHeaderByte.dec.hdrRem.val ∧
    (let count := ([(0x00 : Byte)].zipIdx (1024 - lastHeaderByte.dec.hdrRem.val)).foldl
        (fun c (x : Byte × Nat) => mergeHeaderByte c x.2 x.1) lastHeaderByte.dec.count
     (∀ i, (h : i < 256) → count[i] ≤ lastHeaderByte.params.cmax) ∧ 1 + count.toList.sum ≤ lastHeaderByte.params.cmax) ∧
    (let count := ([(0x80 : Byte)].zipIdx (1024 - lastHeaderByte.dec.hdrRem.val)).foldl
        (fun c (x : Byte × Nat) => mergeHeaderByte c x.2 x.1) lastHeaderByte.dec.count
     ¬((∀ i, (h : i < 256) → count[i] ≤ lastHeaderByte.params.cmax) ∧ 1 + count.toList.sum ≤ lastHeaderByte.params.cmax)) :=
  ⟨lastHeaderByte_inv, rfl, rfl, rfl, by decide +kernel, by decide +kernel⟩

/-- Held, and a command that is none of the three that may lift it. -/
theorem witness_DecFeedHeld :
    held.dec.phase = .payload ∧ held.dec.pendValid = true ∧ held.dec.cap ≤ held.dec.nout ∧
    (Instr.encEnd).mnemonic ∉ [Mnemonic.decDrain, .decInit, .sysReset] ∧ ∃ t, exec .encEnd held = .next t :=
  ⟨rfl, rfl, by decide, by decide, next_of (by decide +kernel)⟩

/-- With EOF and without, with room for eight bytes. -/
theorem witness_DecFeedDecodes :
    busy.Inv ∧ busy.dec.phase = .payload ∧
    (let r := decodeBits busy.dec.tree busy.dec.cursor (busy.dec.latchedBits ++ [(0x97 : Byte)].flatMap byteBits)
     (busy.dec.out ++ busy.dec.pendingBytes ++ r.symbols).length ≤ busy.dec.cap ∧ r.eof = true) ∧
    (let r := decodeBits busy.dec.tree busy.dec.cursor (busy.dec.latchedBits ++ [(0xFF : Byte)].flatMap byteBits)
     (busy.dec.out ++ busy.dec.pendingBytes ++ r.symbols).length ≤ busy.dec.cap ∧ r.eof = false) :=
  ⟨busy_inv, rfl, by decide +kernel, by decide +kernel⟩

/-- DEC with a pending symbol, room for it, and more latched than fits. -/
def resumed : State := stateOf (small 64) Enc.reset { heldDec with out := [] }

theorem resumed_inv : resumed.Inv :=
  have h := heldDec_inv (small 64) (by decide) (by decide)
  stateOf_inv _ _ _ (small_legal 64 (by decide)) (by decide) (encReset_inv _)
    { h with
      session := fun _ => ⟨by decide, by decide, by decide⟩
      header := fun h => by cases h
      fault := fun h => by cases h }

theorem witness_DecFeedPausesWithoutLoss :
    resumed.Inv ∧ resumed.dec.phase = .payload ∧ (resumed.dec.pendValid = true → resumed.dec.nout < resumed.dec.cap) ∧
    resumed.dec.cap < (resumed.dec.out ++ resumed.dec.pendingBytes ++
      (decodeBits resumed.dec.tree resumed.dec.cursor
        (resumed.dec.latchedBits ++ [(0x97 : Byte)].flatMap byteBits)).symbols).length :=
  ⟨resumed_inv, rfl, fun _ => by decide, by decide +kernel⟩

theorem witness_DecFeedCutsDoNotMatter :
    ∃ (s t u : State) (a b : List Byte) (r : Response), s.Inv ∧ (a ++ b).length < 2 ^ 32 ∧ exec (.decFeed a) s = .next t ∧
      t.responses = s.responses ++ [{ status := .success, val := BitVec.ofNat 32 a.length, data := [] }] ∧
      exec (.decFeed b) t = .next u ∧ u.responses = t.responses ++ [r] := by
  obtain ⟨t, u, h1, h2, h3, h4⟩ := two_steps (o := exec (.decFeed [0xFF]) busy) (i := .decFeed [0x04])
    (rs := [{ status := .success, val := 1, data := [] }])
    (qs := [{ status := .success, val := 1, data := [] }, { status := .done, val := 1, data := [] }]) (by decide +kernel)
  exact ⟨busy, t, u, [0xFF], [0x04], _, busy_inv, by decide, h1, h2, h3, h4.trans (by rw [h2]; rfl)⟩

/-- A feed in PAYLOAD, one in HEADER, and one that resumes. -/
theorem witness_DecFeedProgress :
    (busy.Inv ∧ busy.dec.phase = .payload ∧ ∃ t r, exec (.decFeed [0x97]) busy = .next t ∧ t.responses = busy.responses ++ [r]) ∧
    (lastHeaderByte.Inv ∧ lastHeaderByte.dec.phase = .header ∧
      ∃ t r, exec (.decFeed [0x00]) lastHeaderByte = .next t ∧ t.responses = lastHeaderByte.responses ++ [r]) ∧
    (resumed.Inv ∧ ∃ t r, exec (.decFeed []) resumed = .next t ∧ t.responses = resumed.responses ++ [r]) := by
  obtain ⟨t, ht, hr⟩ := next_with (o := exec (.decFeed [0x97]) busy)
    (rs := busy.responses ++ [{ status := .done, val := 1, data := [] }]) (by decide +kernel)
  obtain ⟨u, hu, hq⟩ := next_with (o := exec (.decFeed [0x00]) lastHeaderByte)
    (rs := lastHeaderByte.responses ++ [{ status := .success, val := 1, data := [] }]) (by decide +kernel)
  obtain ⟨v, hv, hp⟩ := next_with (o := exec (.decFeed []) resumed)
    (rs := resumed.responses ++ [{ status := .outputFull, val := 0, data := [] }]) (by decide +kernel)
  exact ⟨⟨busy_inv, rfl, t, _, ht, hr⟩, ⟨lastHeaderByte_inv, rfl, u, _, hu, hq⟩, resumed_inv, v, _, hv, hp⟩

/-- For DecReadyCounts and DecDrainTakesPrefix. -/
theorem witness_DecReadyCounts :
    (held.Inv ∧ held.dec.phase ≠ .idle) ∧ (lastHeaderByte.Inv ∧ lastHeaderByte.dec.phase = .header) ∧
    (fresh.Inv ∧ fresh.dec.phase = .idle) :=
  ⟨⟨held_inv, by decide⟩, ⟨lastHeaderByte_inv, rfl⟩, fresh_inv, rfl⟩

end Sys2Proof.Tests
end

section
/-! Under `State.Inv` every stored number fits its register (10_state.md): a count is below its table's total, and no
weight of a built tree passes that total, because BuildTree's passes keep the queue's weight. -/

namespace Sys2Proof.Machine

/-! ## Counts -/

/-- R12: EOF's constant 1 keeps every count below the table's total. -/
theorem countOf_succ_le_tableTotal (count : CountTable) (s : Nat) : countOf count s + 1 ≤ tableTotal count := by
  have hle : countOf count s ≤ count.toList.sum := by
    by_cases hs : s < 256
    · rw [countOf_eq count s hs]
      exact List.le_sum_of_mem (by simp)
    · simp [countOf, hs]
  unfold tableTotal
  omega

/-! ## The weight of a queue through BuildTree -/

/-- The sum of the weights queued. -/
def queueWeight (q : List QItem) : Nat := (q.map QItem.weight).sum

@[simp] theorem queueWeight_nil : queueWeight [] = 0 := rfl

@[simp] theorem queueWeight_cons (x : QItem) (q : List QItem) : queueWeight (x :: q) = x.weight + queueWeight q := by
  simp [queueWeight]

@[simp] theorem queueWeight_qInsert (x : QItem) (q : List QItem) :
    queueWeight (qInsert x q) = x.weight + queueWeight q :=
  ((qInsert_perm x q).map QItem.weight).sum_eq.trans (queueWeight_cons x q)

@[simp] theorem queueWeight_insertLeaves (ws : List Nat) (s : Nat) (q : List QItem) :
    queueWeight (insertLeaves ws s q) = ws.sum + queueWeight q := by
  induction ws generalizing s q with
  | nil => simp [insertLeaves]
  | cons w ws ih => simp [insertLeaves, ih, Nat.add_left_comm, Nat.add_assoc]

/-- R110: the queue that the loop starts from weighs the table's total. -/
@[simp] theorem queueWeight_leafQueue (count : CountTable) : queueWeight (leafQueue count) = tableTotal count := by
  simp [leafQueue, leafWeights, tableTotal, Nat.add_comm]

/-- A pass of R110's loop puts back the weight it takes out, so no node it creates outweighs the queue. -/
theorem mergeLoop_weight_le {fuel : Nat} {q : List QItem} {next : Nat} {m : Merge} (hm : m ∈ mergeLoop fuel q next) :
    m.weight ≤ queueWeight q := by
  induction fuel generalizing q next with
  | zero => cases hm
  | succ fuel ih =>
    match q, hm with
    | [], hm => cases hm
    | [_], hm => cases hm
    | a :: b :: q, hm =>
      rcases List.mem_cons.mp hm with rfl | hm
      · simp
      · have h := ih hm
        simp only [queueWeight_qInsert, queueWeight_cons] at h ⊢
        omega

/-! ## Weights -/

theorem leafWeight_le_tableTotal (count : CountTable) (s : Nat) : leafWeight count s ≤ tableTotal count := by
  have h := countOf_succ_le_tableTotal count s
  unfold leafWeight
  split <;> omega

theorem mergeAt_weight_le_tableTotal (count : CountTable) (j : Nat) :
    (mergeAt (mergesOf count) j).weight ≤ tableTotal count := by
  unfold mergeAt
  cases h : (mergesOf count)[j]? with
  | none => simp
  | some m => exact queueWeight_leafQueue count ▸ mergeLoop_weight_le (List.mem_of_getElem? h)

/-- R112: no weight of a built tree passes the table's total. -/
theorem weightOf_buildTree_le_tableTotal (count : CountTable) (n : Nat) :
    (buildTree count).weightOf n ≤ tableTotal count := by
  simp only [Tree.weightOf, buildTree, treeOf, getElem?_tabulate]
  split
  · simp only [Option.getD_some]
    split
    · exact leafWeight_le_tableTotal count n
    · exact mergeAt_weight_le_tableTotal count _
  · simp

/-! ## The decoder's counts -/

/-- R29, R72: a counter holds at most the four header bytes merged into it. -/
theorem Dec.Inv.countOf_lt {p : Params} {d : Dec} (hd : d.Inv p) (hc : p.cmax < 2 ^ 32)
    (hs : d.phase ≠ .idle) {i : Nat} (hi : i < 256) : countOf d.count i < 2 ^ 32 := by
  have absorbed (h : d.phase = .header ∨ d.phase = .fault) : countOf d.count i < 2 ^ 32 :=
    calc countOf d.count i
      _ < 256 ^ min 4 (1024 - d.hdrRem.val - 4 * i) := hd.absorbed h i hi
      _ ≤ 256 ^ 4 := Nat.pow_le_pow_right (by decide) (Nat.min_le_left _ _)
      _ = 2 ^ 32 := by decide
  have built (h : d.phase = .payload ∨ d.phase = .done) : countOf d.count i < 2 ^ 32 := by
    obtain ⟨_, _, htotal⟩ := hd.built h
    have hcount := countOf_succ_le_tableTotal d.count i
    omega
  cases h : d.phase with
  | idle => exact absurd h hs
  | header => exact absorbed (.inl h)
  | fault => exact absorbed (.inr h)
  | payload => exact built (.inl h)
  | done => exact built (.inr h)

/-- Settles O19, from the clauses of the invariant and the two bounds by the table's total. -/
theorem storedNumbersFit : Obligations.StoredNumbersFit := by
  intro s ⟨hp, hft, henc, hdec⟩
  obtain ⟨⟨_, hcmax⟩, ⟨_, hbuf⟩, ⟨_, hdecBuf⟩⟩ := hp
  have count_le {count : CountTable} (h : tableTotal count ≤ s.params.cmax) (i : Nat) (hi : i < 256) :
      count[i] + 1 ≤ s.params.cmax :=
    countOf_eq count i hi ▸ (countOf_succ_le_tableTotal count i).trans h
  refine ⟨?ftTotal, count_le (hft.total_eq ▸ hft.total_le), fun he => ?enc, fun hd => ?dec, fun hd => ?payload⟩
  case ftTotal =>
    have := hft.total_le
    omega
  case enc =>
    obtain ⟨htree, htotal, _, hcap, hroom⟩ := henc.session he
    refine ⟨count_le htotal, fun n _ => ?_, by omega, by omega⟩
    exact htree ▸ (weightOf_buildTree_le_tableTotal _ n).trans htotal
  case dec =>
    obtain ⟨_, hcap, hout⟩ := hdec.session hd
    exact ⟨fun i hi => countOf_eq s.dec.count i hi ▸ hdec.countOf_lt (by omega) hd hi, hout, by omega⟩
  case payload =>
    obtain ⟨_, htree, htotal⟩ := hdec.built (.inl hd)
    obtain ⟨_, hcursor⟩ := hdec.cursor hd
    refine ⟨by omega, fun n _ => ?_⟩
    exact htree ▸ (weightOf_buildTree_le_tableTotal _ n).trans htotal

end Sys2Proof.Machine
end

section
/-! The shape of a built tree (10_state.md R18; 42_huffman_tree.md R110): BuildTree's loop as a relation between the queue
it starts from and the passes it records, and what every run of it keeps. -/

namespace Sys2Proof.Machine

/-! ## BuildTree's loop as a relation -/

/-- The loop of R110 from a queue, with `next` the node its first pass creates: the passes `ms`, and the item left alone in
the queue, which is the root. -/
inductive Merges : List QItem → (next : Nat) → (ms : List Merge) → (root : QItem) → Prop where
  | done (x : QItem) (next : Nat) : Merges [x] next [] x
  | pass (a b : QItem) {q : List QItem} {next : Nat} {ms : List Merge} {root : QItem}
      (rest : Merges (qInsert { node := next, weight := a.weight + b.weight } q) (next + 1) ms root) :
      Merges (a :: b :: q) next ({ left := a.node, right := b.node, weight := a.weight + b.weight } :: ms) root

/-- The model's loop, with fuel for every pass, is a run of the relation. -/
theorem mergeLoop_merges (fuel : Nat) (q : List QItem) (next : Nat) (h : q.length = fuel + 1) :
    ∃ root, Merges q next (mergeLoop fuel q next) root := by
  induction fuel generalizing q next with
  | zero =>
    match q, h with
    | [x], _ => exact ⟨x, .done x next⟩
  | succ fuel ih =>
    match q, h with
    | a :: b :: q, h =>
      obtain ⟨root, hr⟩ := ih (qInsert { node := next, weight := a.weight + b.weight } q) (next + 1) (by simpa using h)
      exact ⟨root, .pass a b hr⟩

/-- The nodes that a pass takes out of the queue. -/
def Merge.children (m : Merge) : List Nat := [m.left, m.right]

theorem mem_qInsert {x y : QItem} {q : List QItem} : y ∈ qInsert x q ↔ y = x ∨ y ∈ q :=
  (qInsert_perm x q).mem_iff.trans List.mem_cons

theorem map_node_qInsert_perm (x : QItem) (q : List QItem) :
    ((qInsert x q).map QItem.node).Perm (x.node :: q.map QItem.node) :=
  (qInsert_perm x q).map QItem.node

/-- Every node queued or created is taken out exactly once, but for the root, which stays. -/
theorem Merges.children_perm {q : List QItem} {next : Nat} {ms : List Merge} {root : QItem} (h : Merges q next ms root) :
    (ms.flatMap Merge.children ++ [root.node]).Perm (q.map QItem.node ++ List.range' next ms.length) := by
  induction h with
  | done x next => simp
  | @pass a b q next ms root _ ih =>
    have hq := ih.trans ((map_node_qInsert_perm _ q).append_right _)
    simpa [Merge.children, List.range'_succ] using hq.trans List.perm_middle.symm

/-- The root is the only queued item, or the node of the last pass. -/
theorem Merges.root_node {q : List QItem} {next : Nat} {ms : List Merge} {root : QItem} (h : Merges q next ms root) :
    q = [root] ∧ ms = [] ∨ root.node + 1 = next + ms.length := by
  induction h with
  | done x next => exact .inl ⟨rfl, rfl⟩
  | @pass a b q next ms root _ ih =>
    refine .inr ?_
    rcases ih with ⟨hq, rfl⟩ | hr
    · have hmem : { node := next, weight := a.weight + b.weight } ∈ [root] := hq ▸ mem_qInsert.mpr (.inl rfl)
      simp [← List.mem_singleton.mp hmem]
    · simp only [List.length_cons]
      omega

/-- A pass takes out only nodes that stand before the one it creates. -/
theorem Merges.children_lt {q : List QItem} {next : Nat} {ms : List Merge} {root : QItem} (h : Merges q next ms root)
    (hq : ∀ x ∈ q, x.node < next) {j : Nat} {m : Merge} (hj : ms[j]? = some m) :
    m.left < next + j ∧ m.right < next + j := by
  induction h generalizing j with
  | done x next => simp at hj
  | @pass a b q next ms root _ ih =>
    cases j with
    | zero =>
      obtain rfl := Option.some.inj hj
      exact ⟨hq a (by simp), hq b (by simp)⟩
    | succ j =>
      have hq' : ∀ x ∈ qInsert { node := next, weight := a.weight + b.weight } q, x.node < next + 1 := by
        intro x hx
        rcases mem_qInsert.mp hx with rfl | hx
        · simp
        · exact Nat.lt_succ_of_lt (hq x (by simp [hx]))
      have := ih hq' (j := j) hj
      omega

/-- The weights recorded add up: under any naming `w` of weights that agrees with the queue and with the passes, a created
node weighs its two children, and the root its own item. -/
theorem Merges.weight_eq {w : Nat → Nat} {q : List QItem} {next : Nat} {ms : List Merge} {root : QItem}
    (h : Merges q next ms root) (hq : ∀ x ∈ q, w x.node = x.weight)
    (hms : ∀ j m, ms[j]? = some m → w (next + j) = m.weight) :
    (∀ m ∈ ms, m.weight = w m.left + w m.right) ∧ w root.node = root.weight := by
  induction h with
  | done x next => exact ⟨by simp, hq x (by simp)⟩
  | @pass a b q next ms root _ ih =>
    obtain ⟨hrest, hroot⟩ := ih
      (fun x hx => by
        rcases mem_qInsert.mp hx with rfl | hx
        · exact hms 0 _ rfl
        · exact hq x (by simp [hx]))
      (fun j m hj => by rw [Nat.add_right_comm]; exact hms (j + 1) m hj)
    refine ⟨fun m hm => ?_, hroot⟩
    rcases List.mem_cons.mp hm with rfl | hm
    · simp [hq a, hq b]
    · exact hrest m hm

/-- The root weighs what the queue weighed. -/
theorem Merges.root_weight {q : List QItem} {next : Nat} {ms : List Merge} {root : QItem} (h : Merges q next ms root) :
    root.weight = queueWeight q := by
  induction h with
  | done x next => simp
  | pass a b _ ih => simp [ih, Nat.add_assoc]

/-! ## The queue of leaves -/

theorem insertLeaves_perm (ws : List Nat) (s : Nat) (q : List QItem) :
    (insertLeaves ws s q).Perm (q ++ ws.zipIdx.map fun x => { node := s + x.2, weight := x.1 }) := by
  induction ws generalizing s q with
  | nil => simp [insertLeaves]
  | cons w ws ih =>
    refine (ih (s + 1) _).trans (((qInsert_perm _ q).append_right _).trans ?_)
    simp only [List.zipIdx_cons', List.map_cons, List.map_map, Nat.add_zero, Prod.map_fst, Prod.map_snd, Function.comp_def,
      id_eq, List.cons_append, Nat.add_assoc, Nat.add_comm 1]
    exact List.perm_middle.symm

/-- The leaf of each symbol with its weight. -/
theorem leafQueue_perm (count : CountTable) :
    (leafQueue count).Perm ((List.range 257).map fun s => { node := s, weight := leafWeight count s }) := by
  refine (insertLeaves_perm _ 0 []).trans (.of_eq (List.ext_getElem (by simp [leafWeights]) fun i h _ => ?_))
  have hi : i < 257 := by simpa [leafWeights] using h
  by_cases h256 : i < 256
  · simp [leafWeights, leafWeight, h256, countOf]
  · obtain rfl : i = 256 := by omega
    simp [leafWeights, leafWeight]

/-! ## The passes of a table -/

/-- BuildTree's 256 passes end with node 512 alone in the queue (R110). -/
theorem mergesOf_merges (count : CountTable) :
    ∃ root, Merges (leafQueue count) 257 (mergesOf count) root ∧ root.node = 512 := by
  obtain ⟨root, h⟩ := mergeLoop_merges 256 (leafQueue count) 257 (by simp)
  refine ⟨root, h, ?_⟩
  rcases h.root_node with ⟨hq, _⟩ | hnode
  · simpa [hq] using leafQueue_length count
  · have hlen : (mergeLoop 256 (leafQueue count) 257).length = 256 := mergesOf_length count
    omega

/-- R18: every node but 512 is taken out exactly once. -/
theorem children_mergesOf_perm (count : CountTable) :
    ((mergesOf count).flatMap Merge.children).Perm (List.range 512) := by
  obtain ⟨root, h, hnode⟩ := mergesOf_merges count
  have hleaves : ((leafQueue count).map QItem.node).Perm (List.range 257) := by
    simpa [Function.comp_def] using (leafQueue_perm count).map QItem.node
  have hperm := h.children_perm.trans (hleaves.append_right _)
  have hrange : List.range 257 ++ List.range' 257 256 = List.range 512 ++ [512] := by
    rw [← List.range_succ, List.range_eq_range', List.range_eq_range']
    exact List.range'_append_1
  rw [hnode, mergesOf_length, hrange] at hperm
  exact (List.perm_append_right_iff _).mp hperm

theorem mergeAt_eq_getElem {ms : List Merge} {j : Nat} (hj : j < ms.length) : mergeAt ms j = ms[j] := by
  rw [mergeAt, List.getElem?_eq_getElem hj, Option.getD_some]

theorem getElem?_mergesOf (count : CountTable) {j : Nat} (hj : j < 256) :
    (mergesOf count)[j]? = some (mergeAt (mergesOf count) j) := by
  have hj' : j < (mergesOf count).length := by simpa using hj
  rw [mergeAt_eq_getElem hj', List.getElem?_eq_getElem hj']

theorem mergeAt_mergesOf_mem (count : CountTable) {j : Nat} (hj : j < 256) : mergeAt (mergesOf count) j ∈ mergesOf count :=
  List.mem_of_getElem? (getElem?_mergesOf count hj)

/-- No pass takes out the same node twice. -/
theorem mergesOf_left_ne_right (count : CountTable) {m : Merge} (hm : m ∈ mergesOf count) : m.left ≠ m.right := by
  have hnodup := (children_mergesOf_perm count).nodup_iff.mpr List.nodup_range
  simpa [Merge.children] using (List.nodup_flatMap.mp hnodup).1 m hm

/-- A node's parent is the node whose pass took it out. -/
theorem parentIn_of_mem_children (count : CountTable) {j n : Nat} (hj : j < 256)
    (hn : n ∈ (mergeAt (mergesOf count) j).children) : parentIn (mergesOf count) n = 257 + j := by
  have hnodup := (children_mergesOf_perm count).nodup_iff.mpr List.nodup_range
  have hdisj := List.pairwise_iff_getElem.mp (List.nodup_flatMap.mp hnodup).2
  have hmem (m : Merge) : (m.left == n || m.right == n) = true ↔ n ∈ m.children := by
    simp [Merge.children, eq_comm (a := n)]
  have hj' : j < (mergesOf count).length := by simpa using hj
  have hat := mergeAt_eq_getElem hj'
  refine congrArg (257 + ·) ((List.findIdx_eq hj').mpr ⟨(hmem _).mpr (hat ▸ hn), fun i hi => ?_⟩)
  rw [← Bool.not_eq_true, hmem]
  exact fun h => hdisj i j (by omega) hj' hi h (hat ▸ hn)

/-- Every node but 512 is taken out by some pass. -/
theorem exists_mem_children (count : CountTable) {n : Nat} (hn : n < 512) :
    ∃ j < 256, n ∈ (mergeAt (mergesOf count) j).children := by
  obtain ⟨m, hm, hnm⟩ := List.mem_flatMap.mp ((children_mergesOf_perm count).mem_iff.mpr (List.mem_range.mpr hn))
  obtain ⟨j, hj, rfl⟩ := List.mem_iff_getElem.mp hm
  exact ⟨j, by simpa using hj, by rwa [mergeAt_eq_getElem hj]⟩

theorem children_mergeAt_lt (count : CountTable) {j : Nat} (hj : j < 256) :
    (mergeAt (mergesOf count) j).left < 257 + j ∧ (mergeAt (mergesOf count) j).right < 257 + j := by
  obtain ⟨_, h, _⟩ := mergesOf_merges count
  refine h.children_lt (fun x hx => ?_) (getElem?_mergesOf count hj)
  obtain ⟨s, hs, rfl⟩ := List.mem_map.mp ((leafQueue_perm count).mem_iff.mp hx)
  simpa using hs

/-! ## The tree record -/

theorem getD_tabulate {α : Type} {n i : Nat} (f : Nat → α) (d : α) (hi : i < n) : (tabulate n f)[i]?.getD d = f i := by
  rw [getElem?_tabulate, if_pos hi, Option.getD_some]

theorem leftOf_buildTree (count : CountTable) {j : Nat} (hj : j < 256) :
    (buildTree count).leftOf (257 + j) = (mergeAt (mergesOf count) j).left := by
  rw [Tree.leftOf, Nat.add_sub_cancel_left]
  exact getD_tabulate _ 0 hj

theorem rightOf_buildTree (count : CountTable) {j : Nat} (hj : j < 256) :
    (buildTree count).rightOf (257 + j) = (mergeAt (mergesOf count) j).right := by
  rw [Tree.rightOf, Nat.add_sub_cancel_left]
  exact getD_tabulate _ 0 hj

theorem parentOf_buildTree (count : CountTable) {n : Nat} (hn : n < 512) :
    (buildTree count).parentOf n = parentIn (mergesOf count) n :=
  getD_tabulate _ 0 hn

theorem weightOf_buildTree_leaf (count : CountTable) {s : Nat} (hs : s ≤ 256) :
    (buildTree count).weightOf s = leafWeight count s :=
  (getD_tabulate _ 0 (by omega)).trans (if_pos hs)

theorem weightOf_buildTree_internal (count : CountTable) {j : Nat} (hj : j < 256) :
    (buildTree count).weightOf (257 + j) = (mergeAt (mergesOf count) j).weight := by
  refine (getD_tabulate _ 0 (by omega)).trans ?_
  rw [if_neg (by omega), Nat.add_sub_cancel_left]

/-- What R18 says of the arrays `left`, `right` and `parent` of a tree record. -/
structure Tree.Linked (t : Tree) : Prop where
  parent : ∀ n < 512, n < t.parentOf n ∧ 257 ≤ t.parentOf n ∧ t.parentOf n ≤ 512 ∧
    (t.leftOf (t.parentOf n) = n ∨ t.rightOf (t.parentOf n) = n)
  children : ∀ n, 257 ≤ n → n ≤ 512 → t.leftOf n < n ∧ t.rightOf n < n ∧ t.leftOf n ≠ t.rightOf n ∧
    t.parentOf (t.leftOf n) = n ∧ t.parentOf (t.rightOf n) = n

/-- R18 for every table. -/
theorem buildTree_linked (count : CountTable) : (buildTree count).Linked where
  parent n hn := by
    obtain ⟨j, hj, hmem⟩ := exists_mem_children count hn
    have hlt := children_mergeAt_lt count hj
    rw [parentOf_buildTree count hn, parentIn_of_mem_children count hj hmem, leftOf_buildTree count hj,
      rightOf_buildTree count hj]
    have hlr : n = (mergeAt (mergesOf count) j).left ∨ n = (mergeAt (mergesOf count) j).right := by
      simpa [Merge.children] using hmem
    omega
  children n hlo hhi := by
    obtain ⟨j, rfl⟩ := Nat.exists_eq_add_of_le hlo
    have hj : j < 256 := by omega
    obtain ⟨hl, hr⟩ := children_mergeAt_lt count hj
    rw [leftOf_buildTree count hj, rightOf_buildTree count hj, parentOf_buildTree count (by omega),
      parentOf_buildTree count (by omega)]
    exact ⟨hl, hr, mergesOf_left_ne_right count (mergeAt_mergesOf_mem count hj),
      parentIn_of_mem_children count hj (by simp [Merge.children]),
      parentIn_of_mem_children count hj (by simp [Merge.children])⟩

/-- R110, R112: an internal node weighs its two children, and the root the whole table. -/
theorem weightOf_buildTree (count : CountTable) :
    (∀ n, 257 ≤ n → n ≤ 512 → (buildTree count).weightOf n =
      (buildTree count).weightOf ((buildTree count).leftOf n) + (buildTree count).weightOf ((buildTree count).rightOf n)) ∧
    (buildTree count).weightOf 512 = tableTotal count := by
  obtain ⟨root, h, hnode⟩ := mergesOf_merges count
  obtain ⟨hsum, hroot⟩ := h.weight_eq (w := (buildTree count).weightOf)
    (fun x hx => by
      obtain ⟨s, hs, rfl⟩ := List.mem_map.mp ((leafQueue_perm count).mem_iff.mp hx)
      exact weightOf_buildTree_leaf count (Nat.le_of_lt_succ (List.mem_range.mp hs)))
    (fun j m hj => by
      have hlt : j < 256 := by simpa using (List.getElem?_eq_some_iff.mp hj).1
      rw [weightOf_buildTree_internal count hlt, Option.some.inj ((getElem?_mergesOf count hlt).symm.trans hj)])
  constructor
  · intro n hlo hhi
    obtain ⟨j, rfl⟩ := Nat.exists_eq_add_of_le hlo
    have hj : j < 256 := by omega
    rw [weightOf_buildTree_internal count hj, leftOf_buildTree count hj, rightOf_buildTree count hj]
    exact hsum _ (mergeAt_mergesOf_mem count hj)
  · rw [← hnode, hroot, h.root_weight, queueWeight_leafQueue]

/-- Settles O27, from the links and the weights of the tree that every run of BuildTree's loop leaves. -/
theorem builtTreeShape : Obligations.BuiltTreeShape := by
  intro count
  obtain ⟨hsum, hroot⟩ := weightOf_buildTree count
  refine ⟨(buildTree_linked count).parent, fun n hlo hhi => ?_, fun s hs => ?_, ?_, hroot⟩
  · obtain ⟨hl, hr, hne, hpl, hpr⟩ := (buildTree_linked count).children n hlo hhi
    exact ⟨hl, hr, hne, hpl, hpr, hsum n hlo hhi⟩
  · rw [weightOf_buildTree_leaf count (by omega), leafWeight, if_pos hs, countOf_eq count s hs]
  · rw [weightOf_buildTree_leaf count (by omega), leafWeight, if_neg (by omega)]

end Sys2Proof.Machine
end

section
/-! The codes of a built tree (42_huffman_tree.md R114, R115): a code is the path that leads from the root to its symbol,
and a path ends where it meets a leaf. -/

namespace Sys2Proof.Machine

/-! ## Paths from a node downwards -/

/-- The child of an internal node on the side of a bit (R114: left 0, right 1); a leaf has none. -/
def Tree.child (t : Tree) (n : Nat) (bit : Bool) : Option Nat :=
  if 257 ≤ n then some (if bit then t.rightOf n else t.leftOf n) else none

/-- The node that a path of branch bits reaches from `n`. -/
def Tree.descend (t : Tree) (n : Nat) (path : List Bool) : Option Nat := path.foldlM t.child n

@[simp] theorem Tree.descend_nil (t : Tree) (n : Nat) : t.descend n [] = some n := rfl

@[simp] theorem Tree.descend_cons (t : Tree) (n : Nat) (bit : Bool) (path : List Bool) :
    t.descend n (bit :: path) = (t.child n bit).bind (t.descend · path) := by
  simp [Tree.descend, List.foldlM_cons]

theorem Tree.descend_append (t : Tree) (n : Nat) (p q : List Bool) :
    t.descend n (p ++ q) = (t.descend n p).bind (t.descend · q) := by
  simp [Tree.descend, List.foldlM_append]

/-- No path leads on from a leaf. -/
theorem Tree.descend_leaf {t : Tree} {s u : Nat} {path : List Bool} (hs : s ≤ 256) (h : t.descend s path = some u) :
    path = [] := by
  cases path with
  | nil => rfl
  | cons bit path => simp [Tree.child, show ¬ 257 ≤ s by omega] at h

/-- The bit that the climb of R114 records for a node leads from its parent back to it. -/
theorem Tree.Linked.child_parentOf {t : Tree} (ht : t.Linked) {n : Nat} (hn : n < 512) :
    t.child (t.parentOf n) (t.rightOf (t.parentOf n) == n) = some n := by
  obtain ⟨_, hlo, hhi, hlr⟩ := ht.parent n hn
  rw [Tree.child, if_pos hlo]
  by_cases hr : t.rightOf (t.parentOf n) = n
  · simp [hr]
  · simp [hr, hlr.resolve_right hr]

/-! ## The climb of R114 -/

/-- What a climb finds is a path from the root to where it began, followed by the bits it was given. -/
theorem climb_descend {t : Tree} (ht : t.Linked) {fuel n : Nat} {bits c : List Bool} (hn : n ≤ 512)
    (h : climb t fuel n bits = some c) : t.descend 512 c = t.descend n bits := by
  induction fuel generalizing n bits with
  | zero =>
    simp only [climb, Option.ite_none_right_eq_some, Option.some.injEq] at h
    obtain ⟨rfl, rfl⟩ := h
    rfl
  | succ fuel ih =>
    rw [climb] at h
    split at h
    · next hroot => rw [hroot, Option.some.inj h]
    · next hroot =>
      have hlt : n < 512 := by omega
      obtain ⟨_, _, hhi, _⟩ := ht.parent n hlt
      rw [ih hhi h, Tree.descend_cons, ht.child_parentOf hlt, Option.bind_some]

/-- From an internal node the climb ends within as many moves as there are nodes above it. -/
theorem climb_internal {t : Tree} (ht : t.Linked) {fuel n : Nat} (bits : List Bool) (hlo : 257 ≤ n) (hhi : n ≤ 512)
    (hf : 512 ≤ n + fuel) : ∃ c, climb t fuel n bits = some (c ++ bits) ∧ c.length ≤ fuel := by
  induction fuel generalizing n bits with
  | zero => exact ⟨[], by simp [climb, show n = 512 by omega], Nat.le_refl 0⟩
  | succ fuel ih =>
    rw [climb]
    split
    · exact ⟨[], rfl, Nat.zero_le _⟩
    · obtain ⟨hup, hplo, hphi, _⟩ := ht.parent n (by omega)
      obtain ⟨c, hc, hlen⟩ := ih ((t.rightOf (t.parentOf n) == n) :: bits) hplo hphi (by omega)
      exact ⟨c ++ [t.rightOf (t.parentOf n) == n], by simp [hc], by simpa using hlen⟩

/-- R74: every symbol has a code, of 1 to 256 bits. -/
theorem Tree.Linked.exists_codeOf {t : Tree} (ht : t.Linked) {s : Nat} (hs : s ≤ 256) :
    ∃ c, codeOf t s = some c ∧ 1 ≤ c.length ∧ c.length ≤ 256 := by
  obtain ⟨_, hlo, hhi, _⟩ := ht.parent s (by omega)
  obtain ⟨c, hc, hlen⟩ := climb_internal ht (fuel := 255) [t.rightOf (t.parentOf s) == s] hlo hhi (by omega)
  refine ⟨c ++ [t.rightOf (t.parentOf s) == s], ?_, by simp, by simpa using Nat.lt_succ_of_le hlen⟩
  rw [codeOf, climb, if_neg (by omega), hc]

/-- A symbol's code leads from the root to its leaf. -/
theorem Tree.Linked.descend_codeOf {t : Tree} (ht : t.Linked) {s : Nat} {c : List Bool} (hs : s ≤ 256)
    (h : codeOf t s = some c) : t.descend 512 c = some s :=
  climb_descend ht (by omega) h

/-- R115(a): a path that goes on from a leaf reaches nothing, so a code that begins another is that other. -/
theorem Tree.Linked.symbol_eq_of_codeOf_starts {t : Tree} (ht : t.Linked) {s u : Nat} {c d : List Bool} (hs : s ≤ 256) (hu : u ≤ 256)
    (hc : codeOf t s = some c) (hd : codeOf t u = some d) (hcd : c <+: d) : s = u := by
  obtain ⟨e, rfl⟩ := hcd
  have hpath : t.descend s e = some u := by
    have h := ht.descend_codeOf hu hd
    rwa [Tree.descend_append, ht.descend_codeOf hs hc, Option.bind_some] at h
  rw [Tree.descend_leaf hs hpath] at hpath
  exact Option.some.inj hpath

/-- Settles O29, from the links of a built tree. -/
theorem codesPrefixFree : Obligations.CodesPrefixFree := fun count =>
  ⟨fun _ hs => (buildTree_linked count).exists_codeOf hs,
    fun _ hs _ hu _ _ hc hd => (buildTree_linked count).symbol_eq_of_codeOf_starts hs hu hc hd⟩

end Sys2Proof.Machine
end

section
/-! What a command leaves unchanged (10_state.md R38, R47; 30_encoding.md R63): a unit's commands run the same whatever the
other units hold, and no command touches the parameters, the pending events or the earlier responses. -/

namespace Sys2Proof.Machine

/-! ## Outcomes changed by a function on the next state -/

theorem onNext_congr {f g : State → State} {o : Host.Outcome State Fault Refusal}
    (h : ∀ t, o = .next t → f t = g t) : onNext f o = onNext g o := by
  cases o with
  | next t => exact congrArg _ (h t rfl)
  | fault r => rfl
  | refused r => rfl

/-- An outcome that a change leaves as it is has a next state that the change leaves as it is. -/
theorem eq_of_eq_onNext {f : State → State} {o : Host.Outcome State Fault Refusal} {t : State}
    (h : o = onNext f o) (ht : o = .next t) : t = f t := by
  subst ht
  exact Host.Outcome.next.inj h

/-- The end of an encoder's procedure with its state changed by `f`. -/
def EncStep.mapState (f : State → State) : EncStep → EncStep
  | .ok s => .ok (f s)
  | .fail status s => .fail status (f s)
  | .stuck r => .stuck r

/-! ## The state with other contents in the units that a command does not belong to -/

/-- The state with other contents in FT and DEC, as ENC's commands see it. -/
def State.aroundEnc (f : Ft) (d : Dec) (s : State) : State := { s with ft := f, dec := d }

/-- The state with other contents in ENC and DEC, as FT's commands see it. -/
def State.aroundFt (e : Enc) (d : Dec) (s : State) : State := { s with enc := e, dec := d }

/-- The state with other contents in FT and ENC, as DEC's commands see it. -/
def State.aroundDec (f : Ft) (e : Enc) (s : State) : State := { s with ft := f, enc := e }

/-! ## FT -/

theorem exec_aroundFt {i : Instr} (hi : unitOf i = .ft) (s : State) (e : Enc) (d : Dec) :
    exec i (s.aroundFt e d) = onNext (State.aroundFt e d) (exec i s) := by
  cases i with
  | ftInit => rfl
  | ftTotal => rfl
  | ftFeed data =>
    simp only [exec, execFtFeed, apply_ite (onNext _)]
    rfl
  | ftCount symbol =>
    simp only [exec, execFtCount, apply_ite (onNext _)]
    rfl
  | _ => cases hi

/-! ## DEC -/

theorem decFeedAnswer_aroundDec (s : State) (f : Ft) (e : Enc) (r : FeedEnd) :
    decFeedAnswer (s.aroundDec f e) r = onNext (State.aroundDec f e) (decFeedAnswer s r) := by
  cases r <;> rfl

theorem exec_aroundDec {i : Instr} (hi : unitOf i = .dec) (s : State) (f : Ft) (e : Enc) :
    exec i (s.aroundDec f e) = onNext (State.aroundDec f e) (exec i s) := by
  have hdec : (s.aroundDec f e).dec = s.dec := rfl
  cases i with
  | decInit hint =>
    simp only [exec, execDecInit, apply_ite (onNext _)]
    rfl
  | decFeed data =>
    simp only [exec, execDecFeed, hdec]
    cases s.dec.phase with
    | header | payload =>
      cases flushPending s.dec with
      | none => rfl
      | some d => exact decFeedAnswer_aroundDec s f e _
    | idle | done | fault => rfl
  | decReady =>
    simp only [exec, execDecReady, hdec]
    cases s.dec.phase <;> rfl
  | decDrain maxLen =>
    simp only [exec, execDecDrain, hdec]
    cases s.dec.phase <;> rfl
  | decCodeof symbol =>
    simp only [exec, execDecCodeof, hdec]
    cases s.dec.phase with
    | payload | done =>
      cases symbolLegal symbol with
      | false => rfl
      | true => cases codeOf s.dec.tree (operand symbol) <;> rfl
    | idle | header | fault => rfl
  | _ => cases hi

/-! ## ENC -/

theorem encReserve_aroundEnc (l : Nat) (s : State) (f : Ft) (d : Dec) :
    encReserve l (s.aroundEnc f d) = (encReserve l s).mapState (State.aroundEnc f d) := by
  have hgrow : encReserve l (s.aroundEnc f d) =
      match growCap s.params.bufMax (s.enc.buf.need l) (s.enc.buf.need l) s.enc.cap with
      | .stuck => .stuck .growthStuck
      | .pastGuard => .fail .tooMuchData (s.aroundEnc f d)
      | .fits newcap =>
        if newcap = s.enc.cap then .ok (s.aroundEnc f d)
        else if s.grantAnswer then .ok { (s.aroundEnc f d).afterGrant with enc := { s.enc with cap := newcap } }
        else .fail .outOfMemory (s.aroundEnc f d).afterGrant := rfl
  rw [hgrow, encReserve]
  cases growCap s.params.bufMax (s.enc.buf.need l) (s.enc.buf.need l) s.enc.cap with
  | stuck => rfl
  | pastGuard => rfl
  | fits newcap =>
    by_cases hc : newcap = s.enc.cap
    · simp only [if_pos hc]; rfl
    · simp only [if_neg hc]
      cases s.grantAnswer <;> rfl

theorem encSymbol_aroundEnc (sym : Nat) (s : State) (f : Ft) (d : Dec) :
    encSymbol sym (s.aroundEnc f d) = (encSymbol sym s).mapState (State.aroundEnc f d) := by
  have henc : (s.aroundEnc f d).enc = s.enc := rfl
  simp only [encSymbol, henc]
  cases codeOf s.enc.tree sym with
  | none => rfl
  | some c =>
    simp only [encReserve_aroundEnc]
    cases encReserve c.length s <;> rfl

theorem encFeedLoop_aroundEnc (data : List Byte) (n : Nat) (s : State) (f : Ft) (d : Dec) :
    encFeedLoop data n (s.aroundEnc f d) = onNext (State.aroundEnc f d) (encFeedLoop data n s) := by
  induction data generalizing n s with
  | nil => rfl
  | cons b bs ih =>
    simp only [encFeedLoop, encSymbol_aroundEnc]
    cases encSymbol b.toNat s with
    | ok t => exact ih (n + 1) t
    | fail status t => rfl
    | stuck r => rfl

/-- The commands of ENC but ENC_INIT, which reads FT. -/
theorem exec_aroundEnc {i : Instr} (hi : unitOf i = .enc) (hinit : ∀ hint, i ≠ .encInit hint) (s : State) (f : Ft)
    (d : Dec) : exec i (s.aroundEnc f d) = onNext (State.aroundEnc f d) (exec i s) := by
  have henc : (s.aroundEnc f d).enc = s.enc := rfl
  cases i with
  | encInit hint => exact absurd rfl (hinit hint)
  | encFeed data =>
    simp only [exec, execEncFeed, henc]
    cases s.enc.phase with
    | active => exact encFeedLoop_aroundEnc data 0 s f d
    | idle | ended => rfl
  | encEnd =>
    simp only [exec, execEncEnd, henc, encSymbol_aroundEnc]
    cases s.enc.phase with
    | active => cases encSymbol 256 s <;> rfl
    | idle | ended => rfl
  | encReady =>
    simp only [exec, execEncReady, henc]
    cases s.enc.phase <;> rfl
  | encDrain maxLen =>
    simp only [exec, execEncDrain, henc]
    cases s.enc.phase <;> rfl
  | encCodeof symbol =>
    simp only [exec, execEncCodeof, henc]
    cases s.enc.phase with
    | active | ended =>
      cases symbolLegal symbol with
      | false => rfl
      | true => cases codeOf s.enc.tree (operand symbol) <;> rfl
    | idle => rfl
  | _ => cases hi

theorem execEncInit_aroundEnc (hint : Word) (s : State) (d : Dec) :
    execEncInit hint (s.aroundEnc s.ft d) = onNext (State.aroundEnc s.ft d) (execEncInit hint s) := by
  simp only [execEncInit, apply_ite (onNext _)]
  rfl

/-! ## What each unit's commands do not write -/

theorem exec_ft_keeps {i : Instr} (hi : unitOf i = .ft) {s t : State} (h : exec i s = .next t) :
    t.enc = s.enc ∧ t.dec = s.dec := by
  have ht := eq_of_eq_onNext (exec_aroundFt hi s s.enc s.dec) h
  exact ⟨(congrArg State.enc ht).trans rfl, (congrArg State.dec ht).trans rfl⟩

theorem exec_dec_keeps {i : Instr} (hi : unitOf i = .dec) {s t : State} (h : exec i s = .next t) :
    t.ft = s.ft ∧ t.enc = s.enc := by
  have ht := eq_of_eq_onNext (exec_aroundDec hi s s.ft s.enc) h
  exact ⟨(congrArg State.ft ht).trans rfl, (congrArg State.enc ht).trans rfl⟩

/-- Every command of ENC runs the same whatever DEC holds. -/
theorem exec_enc_withDec {i : Instr} (hi : unitOf i = .enc) (s : State) (d : Dec) :
    exec i (s.aroundEnc s.ft d) = onNext (State.aroundEnc s.ft d) (exec i s) := by
  by_cases hinit : ∃ hint, i = .encInit hint
  · obtain ⟨hint, rfl⟩ := hinit
    exact execEncInit_aroundEnc hint s d
  · exact exec_aroundEnc hi (not_exists.mp hinit) s s.ft d

theorem exec_enc_keeps {i : Instr} (hi : unitOf i = .enc) {s t : State} (h : exec i s = .next t) :
    t.ft = s.ft ∧ t.dec = s.dec := by
  have ht := eq_of_eq_onNext (exec_enc_withDec hi s s.dec) h
  exact ⟨(congrArg State.ft ht).trans rfl, (congrArg State.dec ht).trans rfl⟩

/-- Settles O14: a unit's commands commute with a change of the other units, and a change to what is there already shows
that they write none of it. -/
theorem unitsIndependent : Obligations.UnitsIndependent := by
  intro i s f e d
  refine ⟨fun hi => exec_aroundFt hi s e d, fun hi => exec_aroundDec hi s f e, fun hi => ?noDec, fun hi hinit => ?noFt,
    fun t h => ⟨fun hi => exec_ft_keeps hi h, fun hi => exec_enc_keeps hi h, fun hi => exec_dec_keeps hi h⟩⟩
  case noDec =>
    refine (exec_enc_withDec hi s d).trans (onNext_congr fun t h => ?_)
    simp only [State.aroundEnc, ← (exec_enc_keeps hi h).1]
  case noFt =>
    refine (exec_aroundEnc hi hinit s f s.dec).trans (onNext_congr fun t h => ?_)
    simp only [State.aroundEnc, ← (exec_enc_keeps hi h).2]

end Sys2Proof.Machine
end

section
/-! The form of every next state (30_encoding.md R63): a command writes units, ENC_FEED and ENC_END use growth answers as
well, and one response is added. -/

namespace Sys2Proof.Machine

/-! ## The encoder's internal procedures -/

/-- The states that differ from `s` in the encoder and the growth answers at most: what R131 to R134 may write. -/
def State.EncoderStep (s t : State) : Prop :=
  ∃ (e : Enc) (grants : List Bool) (asked : Nat), t = { s with enc := e, grants := grants, growAsked := asked }

theorem State.EncoderStep.refl (s : State) : s.EncoderStep s := ⟨_, _, _, rfl⟩

theorem State.EncoderStep.trans {s t u : State} (h : s.EncoderStep t) (h' : t.EncoderStep u) : s.EncoderStep u := by
  obtain ⟨_, _, _, rfl⟩ := h
  obtain ⟨e, g, n, rfl⟩ := h'
  exact ⟨e, g, n, rfl⟩

theorem State.EncoderStep.frame {s t : State} (h : s.EncoderStep t) :
    t.params = s.params ∧ t.ft = s.ft ∧ t.dec = s.dec ∧ t.inbox = s.inbox ∧ t.responses = s.responses := by
  obtain ⟨_, _, _, rfl⟩ := h
  exact ⟨rfl, rfl, rfl, rfl, rfl⟩

/-- An internal procedure of the encoder ends in a state that has `P`, if it ends. -/
def EncStep.leaves (P : State → Prop) : EncStep → Prop
  | .ok s => P s
  | .fail _ s => P s
  | .stuck _ => True

theorem encReserve_leaves (l : Nat) (s : State) : (encReserve l s).leaves s.EncoderStep := by
  rcases encReserve_cases l s with ⟨e, _⟩ | ⟨_, _, _, _, e⟩ | ⟨_, e⟩ | e | e <;> rw [e]
  · exact .refl s
  · exact ⟨_, _, _, rfl⟩
  · exact ⟨_, _, _, rfl⟩
  · exact .refl s
  · trivial

theorem encSymbol_leaves (sym : Nat) (s : State) : (encSymbol sym s).leaves s.EncoderStep := by
  rcases encSymbol_cases sym s with ⟨_, e⟩ | ⟨c, _, ⟨t, hr, e⟩ | ⟨status, t, hr, e⟩ | ⟨f, _, e⟩⟩ <;> rw [e]
  · trivial
  · have ht : s.EncoderStep t := by simpa [hr, EncStep.leaves] using encReserve_leaves c.length s
    exact ht.trans ⟨_, _, _, rfl⟩
  · simpa [hr, EncStep.leaves] using encReserve_leaves c.length s
  · trivial

/-! ## Legal operands (30_encoding.md R62) -/

@[simp] theorem hintLegal_iff {limit : Nat} {arg : Word} :
    hintLegal limit arg = true ↔ 1 ≤ arg.toNat ∧ arg.toNat ≤ limit :=
  Bool.and_eq_true_iff.trans (and_congr decide_eq_true_iff decide_eq_true_iff)

@[simp] theorem literalLegal_iff {arg : Word} : literalLegal arg = true ↔ arg.toNat ≤ 255 :=
  decide_eq_true_iff

@[simp] theorem symbolLegal_iff {arg : Word} : symbolLegal arg = true ↔ arg.toNat ≤ 256 :=
  decide_eq_true_iff

/-! ## Commands refused -/

/-- R182: a command that breaks the contract is refused. -/
theorem exec_of_violates {i : Instr} {s : State} (h : violates i s) : exec i s = .next s.refuse := by
  cases i with
  | sysReset | sysStatus | ftInit | ftFeed _ | ftTotal => exact h.elim
  | ftCount symbol => exact if_neg (mt literalLegal_iff.mp (Nat.not_le.mpr h))
  | encInit hint | decInit hint =>
    refine if_neg (mt hintLegal_iff.mp fun hl => ?_)
    rcases h with h | h <;> omega
  | encFeed _ | encEnd =>
    have h : s.enc.phase ≠ .active := h
    simp only [exec, execEncFeed, execEncEnd]
    split <;> simp_all
  | encReady | encDrain _ =>
    have h : s.enc.phase = .idle := h
    simp only [exec, execEncReady, execEncDrain, h]
  | encCodeof symbol =>
    rcases h with h | h
    · simp only [exec, execEncCodeof, h]
    · simp only [exec, execEncCodeof, symbolLegal_iff, if_neg (Nat.not_le.mpr h)]
      cases s.enc.phase <;> rfl
  | decFeed data => obtain h | h | h := h <;> simp only [exec, execDecFeed, h]
  | decReady | decDrain _ =>
    have h : s.dec.phase = .idle := h
    simp only [exec, execDecReady, execDecDrain, h]
  | decCodeof symbol =>
    rcases h with h | h | h | h
    · simp only [exec, execDecCodeof, h]
    · simp only [exec, execDecCodeof, h]
    · simp only [exec, execDecCodeof, h]
    · simp only [exec, execDecCodeof, symbolLegal_iff, if_neg (Nat.not_le.mpr h)]
      cases s.dec.phase <;> rfl

/-! ## Commands accepted -/

section
variable {s : State}

theorem hint_legal_of_encInit {hint : Word} (h : ¬ violates (.encInit hint) s) :
    1 ≤ hint.toNat ∧ hint.toNat ≤ s.params.bufMax := by
  simp only [violates, not_or] at h
  omega

theorem hint_legal_of_decInit {hint : Word} (h : ¬ violates (.decInit hint) s) :
    1 ≤ hint.toNat ∧ hint.toNat ≤ s.params.decBufMax := by
  simp only [violates, not_or] at h
  omega

theorem feeding_of_decFeed {data : List Byte} (h : ¬ violates (.decFeed data) s) :
    s.dec.phase = .header ∨ s.dec.phase = .payload := by
  simp only [violates, not_or] at h
  cases hp : s.dec.phase <;> simp_all

theorem built_of_decCodeof {symbol : Word} (h : ¬ violates (.decCodeof symbol) s) :
    (s.dec.phase = .payload ∨ s.dec.phase = .done) ∧ symbol.toNat ≤ 256 := by
  simp only [violates, not_or, Nat.not_lt] at h
  obtain ⟨hidle, hheader, hfault, hs⟩ := h
  refine ⟨?_, hs⟩
  cases hp : s.dec.phase <;> simp_all

theorem exec_ftCount_of_legal {symbol : Word} (h : symbol.toNat ≤ 255) :
    exec (.ftCount symbol) s = .next (s.answer .success (countOf s.ft.count symbol.toNat) []) :=
  if_pos (literalLegal_iff.mpr h)

/-- The encoder that ENC_INIT constructs (R130). -/
def Enc.constructed (count : CountTable) (cap : Nat) : Enc where
  phase := .active
  count := count
  tree := buildTree count
  hdrRem := 1024
  cap := cap
  buf := BitBuf.empty

theorem exec_encInit_of_legal {hint : Word} (h : 1 ≤ hint.toNat ∧ hint.toNat ≤ s.params.bufMax) :
    exec (.encInit hint) s = .next ({ s with enc := Enc.constructed s.ft.count hint.toNat }.answer .success 0 []) :=
  if_pos (hintLegal_iff.mpr h)

theorem exec_encFeed_of_active (h : s.enc.phase = .active) (data : List Byte) :
    exec (.encFeed data) s = encFeedLoop data 0 s := by
  simp only [exec, execEncFeed, h]

/-- How ENC_END goes on once the EOF code has been tried (R134). -/
def encEndAnswer : EncStep → Host.Outcome State Fault Refusal
  | .ok t => .next ((encFinish t).answer .success 0 [])
  | .fail status t => .next (t.answer status 0 [])
  | .stuck f => .fault f

theorem exec_encEnd_of_active (h : s.enc.phase = .active) : exec .encEnd s = encEndAnswer (encSymbol 256 s) := by
  simp only [exec, execEncEnd, h]
  cases encSymbol 256 s <;> rfl

theorem exec_encReady_of_ne_idle (h : s.enc.phase ≠ .idle) :
    exec .encReady s = .next (s.answer .success s.enc.ready []) := by
  simp only [exec, execEncReady]
  split <;> simp_all

theorem exec_encDrain_of_ne_idle (h : s.enc.phase ≠ .idle) (maxLen : Word) :
    ∃ k n v b, exec (.encDrain maxLen) s = .next ({ s with enc := s.enc.afterDrain k n }.answer .success v b) := by
  simp only [exec, execEncDrain]
  split
  · exact ⟨_, _, _, _, rfl⟩
  · exact ⟨_, _, _, _, rfl⟩
  · simp_all

/-- The answer of ENC_CODEOF and DEC_CODEOF to a legal symbol under a unit's tree (R118, R119). -/
def answerCode (t : Tree) (symbol : Word) (s : State) : Host.Outcome State Fault Refusal :=
  match codeOf t symbol.toNat with
  | some c => .next (s.answer .success c.length (packCode c))
  | none => .fault .codeWalkStuck

theorem exec_encCodeof_of_legal (h : s.enc.phase ≠ .idle) {symbol : Word} (hs : symbol.toNat ≤ 256) :
    exec (.encCodeof symbol) s = answerCode s.enc.tree symbol s := by
  simp only [exec, execEncCodeof, symbolLegal_iff, if_pos hs]
  split
  · rfl
  · rfl
  · simp_all

theorem exec_decInit_of_legal {hint : Word} (h : 1 ≤ hint.toNat ∧ hint.toNat ≤ s.params.decBufMax) :
    exec (.decInit hint) s = .next ({ s with dec := { s.dec with
      phase := .header, count := Vector.replicate 256 0, hdrRem := 1024, cap := hint.toNat, out := []
      pendValid := false, bitsLeft := 0 } }.answer .success 0 []) :=
  if_pos (hintLegal_iff.mpr h)

/-- How DEC_FEED goes on after FlushPending (R152). -/
def decFeedFlushed (data : List Byte) (s : State) : Option Dec → Host.Outcome State Fault Refusal
  | none => .next (s.answer .outputFull 0 [])
  | some d => decFeedAnswer s (decFeedLoop s.params data 0 d)

theorem exec_decFeed_of_feeding (h : s.dec.phase = .header ∨ s.dec.phase = .payload) (data : List Byte) :
    exec (.decFeed data) s = decFeedFlushed data s (flushPending s.dec) := by
  rcases h with h | h <;> simp only [exec, execDecFeed, h] <;> cases flushPending s.dec <;> rfl

theorem exec_decReady_of_ne_idle (h : s.dec.phase ≠ .idle) :
    exec .decReady s = .next (s.answer .success s.dec.nout []) := by
  simp only [exec, execDecReady]
  split <;> simp_all

theorem exec_decDrain_of_ne_idle (h : s.dec.phase ≠ .idle) (maxLen : Word) :
    exec (.decDrain maxLen) s = .next ({ s with dec := s.dec.dropFront (min maxLen.toNat s.dec.nout) }.answer .success
      (min maxLen.toNat s.dec.nout) (s.dec.out.take (min maxLen.toNat s.dec.nout))) := by
  simp only [exec, execDecDrain, operand]
  split <;> simp_all

theorem exec_decCodeof_of_legal (h : s.dec.phase = .payload ∨ s.dec.phase = .done) {symbol : Word}
    (hs : symbol.toNat ≤ 256) : exec (.decCodeof symbol) s = answerCode s.dec.tree symbol s := by
  rcases h with h | h <;> simp only [exec, execDecCodeof, h, symbolLegal_iff, if_pos hs] <;> rfl

end

end Sys2Proof.Machine
end

section
/-! The frame of a command (10_state.md R47; 30_encoding.md R63): the form of the next state, command by command. -/

namespace Sys2Proof.Machine

/-! ## The forms of a next state -/

/-- The state with one response more. -/
def State.Answered (s t : State) : Prop := ∃ status v b, t = s.answer status v b

/-- The state with the units written and one response more. -/
def State.WritesUnits (s t : State) : Prop :=
  ∃ f e d, State.Answered { s with ft := f, enc := e, dec := d } t

/-- The state after a step of the encoder's procedures, with one response more. -/
def State.WritesEncoder (s t : State) : Prop := ∃ u, s.EncoderStep u ∧ u.Answered t

section
variable {s t : State} {status : Status} {v : Nat} {b : List Byte}

theorem answered_of_next (h : Host.Outcome.next (s.answer status v b) = (.next t : Host.Outcome State Fault Refusal)) :
    s.Answered t := ⟨_, _, _, (Host.Outcome.next.inj h).symm⟩

theorem writesUnits_of_next {f : Ft} {e : Enc} {d : Dec}
    (h : Host.Outcome.next (State.answer { s with ft := f, enc := e, dec := d } status v b) =
      (.next t : Host.Outcome State Fault Refusal)) : s.WritesUnits t := ⟨_, _, _, answered_of_next h⟩

theorem State.Answered.writesUnits (h : s.Answered t) : s.WritesUnits t := ⟨_, _, _, h⟩

theorem State.Answered.writesEncoder (h : s.Answered t) : s.WritesEncoder t := ⟨s, .refl s, h⟩

end

/-! ## Commands that read -/

theorem answerCode_next {tree : Tree} {symbol : Word} {s t : State} (h : answerCode tree symbol s = .next t) :
    s.Answered t := by
  unfold answerCode at h
  split at h
  · exact answered_of_next h
  · cases h

/-- R47: a command that only reads leaves the state as it was, with one response more. -/
theorem exec_read_next {i : Instr} {s t : State}
    (hi : i.mnemonic ∈ [.sysStatus, .ftCount, .ftTotal, .encReady, .encCodeof, .decReady, .decCodeof])
    (h : exec i s = .next t) : s.Answered t := by
  by_cases hv : violates i s
  · exact answered_of_next (exec_of_violates hv ▸ h)
  · cases i with
    | sysStatus | ftTotal => exact answered_of_next h
    | ftCount symbol => exact answered_of_next (exec_ftCount_of_legal (Nat.not_lt.mp hv) ▸ h)
    | encReady => exact answered_of_next (exec_encReady_of_ne_idle hv ▸ h)
    | decReady => exact answered_of_next (exec_decReady_of_ne_idle hv ▸ h)
    | encCodeof symbol =>
      obtain ⟨hp, hs⟩ := not_or.mp hv
      exact answerCode_next (exec_encCodeof_of_legal hp (Nat.not_lt.mp hs) ▸ h)
    | decCodeof symbol =>
      obtain ⟨hp, hs⟩ := built_of_decCodeof hv
      exact answerCode_next (exec_decCodeof_of_legal hp hs ▸ h)
    | _ => simp [Instr.mnemonic] at hi

/-! ## Commands that write units -/

theorem decFeedFlushed_next {data : List Byte} {s t : State} {o : Option Dec} (h : decFeedFlushed data s o = .next t) :
    s.WritesUnits t := by
  cases o with
  | none => exact writesUnits_of_next h
  | some d =>
    rw [decFeedFlushed] at h
    cases hl : decFeedLoop s.params data 0 d with
    | fin status n d' => exact writesUnits_of_next (hl ▸ h)
    | off =>
      rw [hl] at h
      cases h

/-- Every command but the two that may ask for growth writes units at most, and adds one response. -/
theorem exec_next_of_no_growth {i : Instr} {s t : State} (hend : i ≠ .encEnd) (hfeed : ∀ data, i ≠ .encFeed data)
    (h : exec i s = .next t) : s.WritesUnits t := by
  by_cases hv : violates i s
  · exact (answered_of_next (exec_of_violates hv ▸ h)).writesUnits
  · cases i with
    | sysStatus | ftCount _ | ftTotal | encReady | encCodeof _ | decReady | decCodeof _ =>
      exact (exec_read_next (by simp [Instr.mnemonic]) h).writesUnits
    | encFeed data => exact absurd rfl (hfeed data)
    | encEnd => exact absurd rfl hend
    | sysReset | ftInit => exact writesUnits_of_next h
    | ftFeed data =>
      simp only [exec, execFtFeed] at h
      split at h
      · exact (answered_of_next h).writesUnits
      · exact writesUnits_of_next h
    | encInit hint => exact writesUnits_of_next (exec_encInit_of_legal (hint_legal_of_encInit hv) ▸ h)
    | encDrain maxLen =>
      obtain ⟨_, _, _, _, e⟩ := exec_encDrain_of_ne_idle hv maxLen
      exact writesUnits_of_next (e ▸ h)
    | decInit hint => exact writesUnits_of_next (exec_decInit_of_legal (hint_legal_of_decInit hv) ▸ h)
    | decFeed data => exact decFeedFlushed_next (exec_decFeed_of_feeding (feeding_of_decFeed hv) data ▸ h)
    | decDrain maxLen => exact writesUnits_of_next (exec_decDrain_of_ne_idle hv maxLen ▸ h)

/-! ## Commands that may ask for growth -/

theorem encFeedLoop_next {data : List Byte} {n : Nat} {s t : State} (h : encFeedLoop data n s = .next t) :
    s.WritesEncoder t := by
  induction data generalizing n s with
  | nil => exact (answered_of_next h).writesEncoder
  | cons b bs ih =>
    have hs := encSymbol_leaves b.toNat s
    rw [encFeedLoop] at h
    cases he : encSymbol b.toNat s with
    | ok u =>
      rw [he] at h hs
      obtain ⟨w, hw, ht⟩ := ih h
      exact ⟨w, State.EncoderStep.trans hs hw, ht⟩
    | fail status u =>
      rw [he] at h hs
      exact ⟨u, hs, answered_of_next h⟩
    | stuck f =>
      rw [he] at h
      cases h

theorem encEndAnswer_next {s t : State} (h : encEndAnswer (encSymbol 256 s) = .next t) : s.WritesEncoder t := by
  have hs := encSymbol_leaves 256 s
  cases he : encSymbol 256 s with
  | ok u =>
    rw [he] at h hs
    exact ⟨encFinish u, State.EncoderStep.trans hs ⟨_, _, _, rfl⟩, answered_of_next h⟩
  | fail status u =>
    rw [he] at h hs
    exact ⟨u, hs, answered_of_next h⟩
  | stuck f =>
    rw [he] at h
    cases h

/-- ENC_FEED and ENC_END write the encoder and use growth answers at most, and add one response. -/
theorem exec_next_of_growth {i : Instr} {s t : State} (hi : i = .encEnd ∨ ∃ data, i = .encFeed data)
    (h : exec i s = .next t) : s.WritesEncoder t := by
  by_cases hp : s.enc.phase = .active
  · rcases hi with rfl | ⟨data, rfl⟩
    · exact encEndAnswer_next (exec_encEnd_of_active hp ▸ h)
    · exact encFeedLoop_next (exec_encFeed_of_active hp data ▸ h)
  · have hv : violates i s := by rcases hi with rfl | ⟨data, rfl⟩ <;> exact hp
    exact (answered_of_next (exec_of_violates hv ▸ h)).writesEncoder

/-! ## The frame -/

/-- What every command leaves of the host's side, whatever it does to the units. -/
theorem exec_keeps_port {i : Instr} {s t : State} (h : exec i s = .next t) :
    t.params = s.params ∧ t.inbox = s.inbox ∧ ∃ r, t.responses = s.responses ++ [r] := by
  by_cases hi : i = .encEnd ∨ ∃ data, i = .encFeed data
  · obtain ⟨u, hu, _, _, _, rfl⟩ := exec_next_of_growth hi h
    obtain ⟨hparams, _, _, hinbox, hresponses⟩ := hu.frame
    exact ⟨hparams, hinbox, _, congrArg (· ++ _) hresponses⟩
  · obtain ⟨hend, hfeed⟩ := not_or.mp hi
    obtain ⟨_, _, _, _, _, _, rfl⟩ := exec_next_of_no_growth hend (not_exists.mp hfeed) h
    exact ⟨rfl, rfl, _, rfl⟩

/-- Settles O15, from the form of the next state. -/
theorem commandFrame : Obligations.CommandFrame := by
  intro i s t h
  obtain ⟨hparams, hinbox, hresponses⟩ := exec_keeps_port h
  refine ⟨hparams, hinbox, hresponses, fun hend hfeed => ?growth, fun hi => ?read⟩
  case growth =>
    obtain ⟨_, _, _, _, _, _, rfl⟩ := exec_next_of_no_growth hend hfeed h
    exact ⟨rfl, rfl⟩
  case read =>
    obtain ⟨_, _, _, rfl⟩ := exec_read_next hi h
    exact ⟨rfl, rfl, rfl⟩

/-! ## The step -/

/-- Settles O5: of a record that decodes, the step takes the event and runs the command. -/
theorem stepRunsDecodedCommand : Obligations.StepRunsDecodedCommand := by
  intro s c i rest hinbox hdecode
  have hpop : s.popInbox = { s with inbox := rest } := by simp [State.popInbox, hinbox]
  rw [← hpop]
  simp only [step, hinbox, hdecode]

/-- Settles O7: each value is the one that `Ft.reset`, `Enc.reset` or `Dec.reset` writes out. -/
theorem resetValues : Obligations.ResetValues :=
  ⟨fun _ h => Vector.getElem_replicate h, rfl, rfl, rfl, rfl, rfl, rfl, rfl⟩

end Sys2Proof.Machine
end

section
/-! The invariants of FT and ENC (10_state.md R12, R20 to R25; 43_stream_encoder.md R139) through their commands. Under them
the two loops that could fail to end, the climb of R114 and the doubling of R131, do end. -/

namespace Sys2Proof.Machine

/-! ## FT -/

/-- R91: one byte counted raises the total by one. -/
theorem tableTotal_countByte (count : CountTable) (b : Byte) : tableTotal (countByte count b) = tableTotal count + 1 := by
  have hb : b.toNat < count.toList.length := by simpa using b.isLt
  have hcount : countOf count b.toNat = count.toList[b.toNat] := by simp [countOf_eq count _ b.isLt]
  have hset : (countByte count b).toList.sum = count.toList.sum + 1 := by
    have hsplit := List.sum_take_add_sum_drop count.toList b.toNat
    rw [List.drop_eq_getElem_cons hb, List.sum_cons] at hsplit
    simp only [countByte, Vector.toList_setIfInBounds, List.sum_set, if_pos hb, hcount]
    omega
  rw [tableTotal, hset, tableTotal, Nat.add_assoc]

theorem tableTotal_foldl_countByte (data : List Byte) (count : CountTable) :
    tableTotal (data.foldl countByte count) = tableTotal count + data.length := by
  induction data generalizing count with
  | nil => rfl
  | cons b bs ih =>
    rw [List.foldl_cons, ih, tableTotal_countByte, List.length_cons]
    omega

theorem tableTotal_replicate_zero : tableTotal (Vector.replicate 256 0) = 1 := by
  rw [tableTotal, Vector.toList_replicate, List.sum_replicate, smul_zero, Nat.add_zero]

theorem Ft.reset_inv {p : Params} (hp : p.legal) : Ft.reset.Inv p where
  total_eq := tableTotal_replicate_zero.symm
  total_le := hp.1.1

/-! ## The doubling loop of R131 -/

/-- From a capacity that as many doublings as there is fuel raise far enough, the loop ends. -/
theorem growCap_ne_stuck {bufMax need fuel cap : Nat} (h : need ≤ cap * 2 ^ fuel) :
    growCap bufMax need fuel cap ≠ .stuck := by
  induction fuel generalizing cap with
  | zero =>
    rw [growCap, if_neg (by simpa using h)]
    exact nofun
  | succ fuel ih =>
    rw [growCap]
    split
    · split
      · exact nofun
      · exact ih (by rwa [Nat.mul_comm 2, Nat.mul_assoc, ← Nat.pow_succ'])
    · exact nofun

/-- From a capacity of at least 1 the rule's own bound on the passes suffices (R131). -/
theorem encReserve_ne_stuck {s : State} (h : 1 ≤ s.enc.cap) (l : Nat) (f : Fault) : encReserve l s ≠ .stuck f := by
  have hg : growCap s.params.bufMax (s.enc.buf.need l) (s.enc.buf.need l) s.enc.cap ≠ .stuck :=
    growCap_ne_stuck (Nat.lt_two_pow_self.le.trans (Nat.le_mul_of_pos_left _ h))
  unfold encReserve
  split
  · contradiction
  · exact nofun
  · split
    · exact nofun
    · split <;> exact nofun

/-! ## The encoder -/

/-- R130: the encoder that ENC_INIT constructs. -/
theorem Enc.constructed_inv {p : Params} {count : CountTable} {cap : Nat} (ht : tableTotal count ≤ p.cmax)
    (hlo : 1 ≤ cap) (hhi : cap ≤ p.bufMax) : (Enc.constructed count cap).Inv p where
  part_lt := Nat.one_pos
  idle_nbits _ := rfl
  ended_nbits _ := rfl
  session _ := ⟨rfl, ht, hlo, hhi, Nat.zero_le _⟩

theorem Enc.reset_inv (p : Params) : Enc.reset.Inv p where
  part_lt := Nat.one_pos
  idle_nbits _ := rfl
  ended_nbits _ := rfl
  session h := absurd rfl h

/-- The bytes a buffer occupies, the partial one included, are what R131 needs for no bit more. -/
theorem BitBuf.need_zero (b : BitBuf) : b.need 0 = b.nbytes + (if 0 < b.nbits.val then 1 else 0) := by
  have := b.nbits.isLt
  unfold BitBuf.need ceil8
  split <;> omega

/-- What EncReserve makes room for is what EncAppend then occupies (R131, R132). -/
theorem BitBuf.need_append {b : BitBuf} (h : b.part.toNat < 2 ^ b.nbits.val) (c : List Bool) :
    (b.append c).need 0 = b.need c.length := by
  have hlen := congrArg List.length (b.append_bits c h).1
  rw [BitBuf.bits_length, List.length_append, BitBuf.bits_length] at hlen
  rw [BitBuf.need, BitBuf.need, ← hlen, Nat.add_zero]

/-- R132: the bits of a code, appended within a capacity that EncReserve has found. -/
theorem Enc.Inv.append {p : Params} {e : Enc} (h : e.Inv p) (hp : e.phase = .active) {c : List Bool} {cap : Nat}
    (hroom : e.buf.need c.length ≤ cap) (hlo : 1 ≤ cap) (hhi : cap ≤ p.bufMax) :
    ({ e with cap := cap, buf := e.buf.append c } : Enc).Inv p where
  part_lt := (e.buf.append_bits c h.part_lt).2
  idle_nbits hi := absurd (hp.symm.trans hi) nofun
  ended_nbits hi := absurd (hp.symm.trans hi) nofun
  session hi := by
    obtain ⟨htree, htotal, _, _, _⟩ := h.session hi
    exact ⟨htree, htotal, hlo, hhi, by rwa [← BitBuf.need_zero, BitBuf.need_append h.part_lt]⟩

theorem BitBuf.pad_part_lt {b : BitBuf} (h : b.part.toNat < 2 ^ b.nbits.val) :
    b.pad.part.toNat < 2 ^ b.pad.nbits.val := by
  unfold BitBuf.pad
  split
  · exact Nat.one_pos
  · exact h

/-- The partial byte has its room already, so completing it takes none (R134). -/
theorem BitBuf.need_zero_pad (b : BitBuf) : b.pad.need 0 = b.need 0 := by
  rw [need_zero, need_zero, BitBuf.pad]
  split
  · simp [BitBuf.nbytes]
  · rfl

theorem Enc.Inv.finish {p : Params} {e : Enc} (h : e.Inv p) (hp : e.phase = .active) :
    ({ e with buf := e.buf.pad, phase := .ended } : Enc).Inv p where
  part_lt := BitBuf.pad_part_lt h.part_lt
  idle_nbits := nofun
  ended_nbits _ := (e.buf.pad_bits h.part_lt).2
  session _ := by
    obtain ⟨htree, htotal, hlo, hhi, hroom⟩ := h.session (by rw [hp]; exact nofun)
    exact ⟨htree, htotal, hlo, hhi, by rwa [← BitBuf.need_zero, BitBuf.need_zero_pad, BitBuf.need_zero]⟩

/-- R136: a drain takes bytes from the front and leaves the partial byte. -/
theorem Enc.Inv.afterDrain {p : Params} {e : Enc} (h : e.Inv p) (k n : Nat) : (e.afterDrain k n).Inv p where
  part_lt := h.part_lt
  idle_nbits := h.idle_nbits
  ended_nbits := h.ended_nbits
  session hi := by
    obtain ⟨htree, htotal, hlo, hhi, hroom⟩ := h.session hi
    refine ⟨htree, htotal, hlo, hhi, le_trans (Nat.add_le_add_right ?_ _) hroom⟩
    simp [BitBuf.nbytes]

/-! ## The encoder's internal procedures -/

/-- An internal procedure of the encoder ends, and in a state that has `P`. -/
def EncStep.ends (P : State → Prop) : EncStep → Prop
  | .ok s => P s
  | .fail _ s => P s
  | .stuck _ => False

/-- An encoder in phase ACTIVE with its invariant. -/
def State.encoding (p : Params) (s : State) : Prop := s.enc.Inv p ∧ s.enc.phase = .active

/-- R133: from an encoder with its invariant a symbol's step ends, and keeps it. -/
theorem encSymbol_ends {s : State} (h : s.encoding s.params) {sym : Nat} (hsym : sym ≤ 256) :
    (encSymbol sym s).ends (State.encoding s.params) := by
  obtain ⟨hinv, hp⟩ := h
  obtain ⟨htree, _, hlo, hhi, _⟩ := hinv.session (by rw [hp]; exact nofun)
  obtain ⟨c, hc, _⟩ := (buildTree_linked s.enc.count).exists_codeOf hsym
  rw [encSymbol, htree, hc]
  rcases encReserve_cases c.length s with ⟨e, hroom⟩ | ⟨k, _, hroom, hmax, e⟩ | ⟨_, e⟩ | e | e
  · simp only [e]
    exact ⟨hinv.append hp hroom hlo hhi, hp⟩
  · simp only [e]
    exact ⟨hinv.append hp hroom (Nat.mul_pos hlo (Nat.two_pow_pos k)) hmax, hp⟩
  · simp only [e]
    exact ⟨hinv, hp⟩
  · simp only [e]
    exact ⟨hinv, hp⟩
  · exact absurd e (encReserve_ne_stuck hlo _ _)

theorem encFeedLoop_ends {s : State} (h : s.encoding s.params) (data : List Byte) (n : Nat) :
    ∃ t, encFeedLoop data n s = .next t ∧ t.enc.Inv s.params := by
  induction data generalizing n s with
  | nil => exact ⟨_, rfl, h.1⟩
  | cons b bs ih =>
    have hs := encSymbol_ends h (sym := b.toNat) (by have := b.isLt; omega)
    have hframe := encSymbol_leaves b.toNat s
    rw [encFeedLoop]
    cases he : encSymbol b.toNat s with
    | ok t =>
      rw [he] at hs hframe
      obtain ⟨hparams, _⟩ := State.EncoderStep.frame hframe
      rw [← hparams] at hs ⊢
      exact ih hs (n + 1)
    | fail status t =>
      rw [he] at hs
      exact ⟨_, rfl, hs.1⟩
    | stuck f =>
      rw [he] at hs
      exact hs.elim

theorem encEnd_ends {s : State} (h : s.encoding s.params) :
    ∃ t, encEndAnswer (encSymbol 256 s) = .next t ∧ t.enc.Inv s.params := by
  have hs := encSymbol_ends h (Nat.le_refl 256)
  cases he : encSymbol 256 s with
  | ok t =>
    rw [he] at hs
    exact ⟨_, rfl, hs.1.finish hs.2⟩
  | fail status t =>
    rw [he] at hs
    exact ⟨_, rfl, hs.1⟩
  | stuck f =>
    rw [he] at hs
    exact hs.elim

end Sys2Proof.Machine
end

section
/-! The invariant of DEC (10_state.md R28 to R33) through a DEC_FEED (44_stream_decoder.md R151 to R155). Within the command
the latch is being emptied, so its clause of the invariant holds only at the end; the loop keeps the rest. -/

namespace Sys2Proof.Machine

/-! ## The invariant in the two phases of a feed -/

/-- What `Dec.Inv` says in phase HEADER. -/
structure Dec.HeaderInv (p : Params) (d : Dec) : Prop where
  phase : d.phase = .header
  cap_pos : 1 ≤ d.cap
  cap_le : d.cap ≤ p.decBufMax
  hdrRem_pos : 0 < d.hdrRem.val
  bitsLeft : d.bitsLeft = 0
  pendValid : d.pendValid = false
  out : d.out = []
  absorbed : ∀ s < 256, countOf d.count s < 256 ^ min 4 (1024 - d.hdrRem.val - 4 * s)

/-- What `Dec.Inv` says in phase PAYLOAD of everything but the latch and the pending register. -/
structure Dec.PayloadInv (p : Params) (d : Dec) : Prop where
  phase : d.phase = .payload
  cap_pos : 1 ≤ d.cap
  cap_le : d.cap ≤ p.decBufMax
  nout_le : d.nout ≤ d.cap
  hdrRem : d.hdrRem = 0
  tree_eq : d.tree = buildTree d.count
  total_le : tableTotal d.count ≤ p.cmax
  cursor : 257 ≤ d.cursor ∧ d.cursor ≤ 512

theorem Dec.Inv.headerInv {p : Params} {d : Dec} (h : d.Inv p) (hp : d.phase = .header) : d.HeaderInv p := by
  obtain ⟨hlo, hhi, _⟩ := h.session (by rw [hp]; exact nofun)
  obtain ⟨hrem, hbits, hpend, hout⟩ := h.header hp
  exact ⟨hp, hlo, hhi, hrem, hbits, hpend, hout, h.absorbed (.inl hp)⟩

theorem Dec.Inv.payloadInv {p : Params} {d : Dec} (h : d.Inv p) (hp : d.phase = .payload) : d.PayloadInv p := by
  obtain ⟨hlo, hhi, hout⟩ := h.session (by rw [hp]; exact nofun)
  obtain ⟨hrem, htree, htotal⟩ := h.built (.inl hp)
  exact ⟨hp, hlo, hhi, hout, hrem, htree, htotal, h.cursor hp⟩

theorem Dec.HeaderInv.inv {p : Params} {d : Dec} (h : d.HeaderInv p) : d.Inv p := by
  have hp := h.phase
  exact
    { idle := fun _ => ⟨h.bitsLeft, h.pendValid⟩
      session := fun _ => ⟨h.cap_pos, h.cap_le, by simp [Dec.nout, h.out]⟩
      header := fun _ => ⟨h.hdrRem_pos, h.bitsLeft, h.pendValid, h.out⟩
      absorbed := fun _ => h.absorbed
      fault := by simp [hp]
      built := by simp [hp]
      cursor := by simp [hp]
      latch := by simp [hp]
      pending := by simp [h.pendValid]
      done := by simp [hp] }

theorem Dec.PayloadInv.inv {p : Params} {d : Dec} (h : d.PayloadInv p) (hbits : d.bitsLeft.val ≤ 7)
    (hlatch : 0 < d.bitsLeft.val → d.pendValid = true) (hpend : d.pendValid = true → d.cursor = 512) : d.Inv p := by
  have hp := h.phase
  exact
    { idle := by simp [hp]
      session := fun _ => ⟨h.cap_pos, h.cap_le, h.nout_le⟩
      header := by simp [hp]
      absorbed := by simp [hp]
      fault := by simp [hp]
      built := fun _ => ⟨h.hdrRem, h.tree_eq, h.total_le⟩
      cursor := fun _ => h.cursor
      latch := fun _ => ⟨hbits, hlatch⟩
      pending := fun hv => ⟨hp, hpend hv⟩
      done := by simp [hp] }

/-- R154: EOF ends a session that had the invariant, with the latch discarded. -/
theorem Dec.PayloadInv.done_inv {p : Params} {d : Dec} (h : d.PayloadInv p) (hv : d.pendValid = false) (n : Nat) :
    ({ d with cursor := n, bitsLeft := 0, phase := .done } : Dec).Inv p where
  idle := nofun
  session _ := ⟨h.cap_pos, h.cap_le, h.nout_le⟩
  header := nofun
  absorbed := by simp
  fault := nofun
  built _ := ⟨h.hdrRem, h.tree_eq, h.total_le⟩
  cursor := nofun
  latch := nofun
  pending := by simp [hv]
  done _ := rfl

/-- R30: a bit walked from an internal node of a built tree leads to a leaf, the cursor back at the root, or to another
internal node. -/
theorem Tree.Linked.decodeStep_some {t : Tree} (ht : t.Linked) {cursor : Nat} (hc : 257 ≤ cursor ∧ cursor ≤ 512)
    (bit : Bool) :
    ∃ n o, decodeStep t cursor bit = some (n, o) ∧ (257 ≤ n ∧ n ≤ 512) ∧ (o ≠ none → n = 512) := by
  rcases decodeStep_cases t cursor bit with ⟨hn, _⟩ | ⟨s, _, _, _, e⟩ | ⟨n, hlo, hchild, _, e⟩
  · exact absurd hc hn
  · exact ⟨512, some s, e, by decide, fun _ => rfl⟩
  · obtain ⟨hl, hr, _⟩ := ht.children cursor hc.1 hc.2
    have hlt : n < cursor := by cases bit <;> simp_all
    exact ⟨n, none, e, by omega, fun h => absurd rfl h⟩

/-! ## The steps of a feed -/

/-- A step of a feed goes on with a unit that has `P`, or ends the command with the invariant, and is never off it. -/
def Walk.keeps (p : Params) (P : Dec → Prop) : Walk → Prop
  | .go d => P d
  | .stop _ d => d.Inv p
  | .off => False

/-- In PAYLOAD with nothing pending and `n` bits left in the latch. -/
structure Dec.Latched (p : Params) (n : Nat) (d : Dec) : Prop where
  payload : d.PayloadInv p
  pendValid : d.pendValid = false
  bitsLeft : d.bitsLeft.val = n

/-- BitStep (R154) spends one bit, or ends the command with the invariant. -/
theorem bitStep_keeps {p : Params} {n : Nat} {d : Dec} (h : d.Latched p (n + 1)) :
    (bitStep d).keeps p (Dec.Latched p n) := by
  obtain ⟨hpay, hv, hbits⟩ := h
  obtain ⟨m, o, hstep, hm, hroot⟩ :=
    (hpay.tree_eq ▸ buildTree_linked d.count : d.tree.Linked).decodeStep_some hpay.cursor d.nextBit
  have hmove : ({ d.spendBit with cursor := m } : Dec).PayloadInv p := { hpay with cursor := hm }
  have hspent : d.spendBit.bitsLeft.val = n := by simp [hbits]
  rcases bitStep_cases d with ⟨hs, _⟩ | ⟨m', hs, e⟩ | ⟨m', hs, e⟩ | ⟨m', sym, _, hs, ⟨hroom, e⟩ | ⟨_, e⟩⟩ <;>
    rw [hstep] at hs <;> cases hs <;> rw [e]
  · exact ⟨hmove, hv, hspent⟩
  · exact hpay.done_inv hv _
  · exact ⟨{ hmove with nout_le := by simpa [Dec.nout] using hroom }, hv, hspent⟩
  · refine Dec.PayloadInv.inv { hmove with } ?_ (fun _ => rfl) (fun _ => hroot nofun)
    have := d.bitsLeft.isLt
    simp only [hspent]
    omega

theorem walkBits_keeps {p : Params} {n : Nat} {d : Dec} (h : d.Latched p n) :
    (walkBits n d).keeps p (Dec.Latched p 0) := by
  induction n generalizing d with
  | zero => exact h
  | succ n ih =>
    have hb := bitStep_keeps h
    rw [walkBits]
    cases hs : bitStep d with
    | go d' => rw [hs] at hb; exact ih hb
    | stop status d' => rw [hs] at hb; exact hb
    | off => rw [hs] at hb; exact hb

/-- What the loop of R152 keeps from one input byte to the next. -/
def Dec.FeedInv (p : Params) (d : Dec) : Prop := d.HeaderInv p ∨ ∃ n, d.Latched p n

/-- What it keeps once the latch has been walked. -/
def Dec.SpentInv (p : Params) (d : Dec) : Prop := d.HeaderInv p ∨ d.Latched p 0

theorem Dec.SpentInv.inv {p : Params} {d : Dec} (h : d.SpentInv p) : d.Inv p := by
  rcases h with h | ⟨hpay, hv, hbits⟩
  · exact h.inv
  · exact hpay.inv (by omega) (by omega) (by simp [hv])

theorem walkLatched_keeps {p : Params} {d : Dec} (h : d.FeedInv p) : (walkLatched d).keeps p (Dec.SpentInv p) := by
  rcases h with h | ⟨n, h⟩
  · simp only [walkLatched, h.phase]
    exact .inl h
  · have hw := walkBits_keeps h
    simp only [walkLatched, h.payload.phase, h.bitsLeft]
    cases hs : walkBits n d with
    | go d' => rw [hs] at hw; exact .inr hw
    | stop status d' => rw [hs] at hw; exact hw
    | off => rw [hs] at hw; exact hw

/-! ## The header -/

/-- R72: one more header byte merged, at the next position of its counter. -/
theorem countOf_mergeHeaderByte_lt {count : CountTable} {h : Nat} (b : Byte)
    (hc : ∀ s < 256, countOf count s < 256 ^ min 4 (h - 4 * s)) :
    ∀ s < 256, countOf (mergeHeaderByte count h b) s < 256 ^ min 4 (h + 1 - 4 * s) := by
  intro s hs
  have hget : countOf (mergeHeaderByte count h b) s =
      if h / 4 = s then countOf count s + b.toNat * 2 ^ (8 * (h % 4)) else countOf count s := by
    rw [countOf_eq _ s hs, countOf_eq _ s hs]
    simp only [mergeHeaderByte, Vector.getElem_setIfInBounds]
    split
    · next he => subst he; rw [countOf_eq _ _ hs]
    · rfl
  rw [hget]
  split
  · next he =>
    have hb : b.toNat + 1 ≤ 256 := b.isLt
    have hr : h - 4 * s = h % 4 ∧ min 4 (h % 4) = h % 4 ∧ min 4 (h + 1 - 4 * s) = h % 4 + 1 := by omega
    have hlt := hc s hs
    rw [hr.1, hr.2.1] at hlt
    rw [hr.2.2, Nat.pow_mul, show (2 : Nat) ^ 8 = 256 from rfl]
    calc countOf count s + b.toNat * 256 ^ (h % 4)
      _ < 256 ^ (h % 4) + b.toNat * 256 ^ (h % 4) := Nat.add_lt_add_right hlt _
      _ = (b.toNat + 1) * 256 ^ (h % 4) := by ring
      _ ≤ 256 * 256 ^ (h % 4) := Nat.mul_le_mul_right _ hb
      _ = 256 ^ (h % 4 + 1) := by ring
  · exact (hc s hs).trans_le (Nat.pow_le_pow_right (by decide) (by omega))

/-- The unit with one more header byte absorbed (R151): what both of its continuations start from. -/
theorem absorbHeaderByte_some {p : Params} {d d' : Dec} (h : d.HeaderInv p) {b : Byte}
    (ha : absorbHeaderByte b d = some d') :
    d'.phase = .header ∧ d'.cap = d.cap ∧ d'.bitsLeft = 0 ∧ d'.pendValid = false ∧ d'.out = [] ∧
      ∀ s < 256, countOf d'.count s < 256 ^ min 4 (1024 - d'.hdrRem.val - 4 * s) := by
  have hrem := h.hdrRem_pos
  have hlt := d.hdrRem.isLt
  rw [absorbHeaderByte, if_neg (Nat.ne_of_gt hrem), Option.some.injEq] at ha
  subst ha
  refine ⟨h.phase, rfl, h.bitsLeft, h.pendValid, h.out, ?_⟩
  have hm := countOf_mergeHeaderByte_lt (h := 1024 - d.hdrRem.val) b h.absorbed
  rwa [show 1024 - d.hdrRem.val + 1 = 1024 - (d.hdrRem.val - 1) by omega] at hm

theorem tableTotal_le_of_tableValid {cmax : Nat} {count : CountTable} (h : tableValid cmax count = true) :
    tableTotal count ≤ cmax := of_decide_eq_true (Bool.and_eq_true_iff.mp h).2

/-- R153: a complete header enters PAYLOAD with the latch empty, or FAULT. -/
theorem completeHeader_keeps {p : Params} {d : Dec} (hlo : 1 ≤ d.cap) (hhi : d.cap ≤ p.decBufMax) (hrem : d.hdrRem = 0)
    (hbits : d.bitsLeft = 0) (hv : d.pendValid = false) (hout : d.out = [])
    (hc : ∀ s < 256, countOf d.count s < 256 ^ min 4 (1024 - d.hdrRem.val - 4 * s)) :
    (completeHeader p d).keeps p (Dec.FeedInv p) := by
  have hnout : d.nout ≤ d.cap := by simp [Dec.nout, hout]
  unfold completeHeader
  split
  · next hvalid =>
    exact .inr ⟨0, ⟨rfl, hlo, hhi, hnout, hrem, rfl, tableTotal_le_of_tableValid hvalid,
      show 257 ≤ 512 ∧ 512 ≤ 512 by decide⟩, hv,
      congrArg Fin.val hbits⟩
  · next hvalid =>
    exact
      { idle := nofun
        session := fun _ => ⟨hlo, hhi, hnout⟩
        header := nofun
        absorbed := fun _ => hc
        fault := fun _ => ⟨hrem, hbits, hv, hout, Bool.not_eq_true _ ▸ hvalid⟩
        built := by simp
        cursor := nofun
        latch := nofun
        pending := by simp [hv]
        done := nofun }

theorem takeByte_keeps {p : Params} {d : Dec} (h : d.SpentInv p) (b : Byte) :
    (takeByte p b d).keeps p (Dec.FeedInv p) := by
  rcases h with h | ⟨hpay, hv, _⟩
  · rcases takeByte_cases p b d with ⟨hp, _⟩ | ⟨_, hrem, _⟩ | ⟨_, _, d', ha, hcont⟩
    · exact absurd h.phase hp
    · exact absurd hrem (Nat.ne_of_gt h.hdrRem_pos)
    · obtain ⟨hp, hcap, hbits, hv, hout, hc⟩ := absorbHeaderByte_some h ha
      have hlo := hcap ▸ h.cap_pos
      have hhi := hcap ▸ h.cap_le
      rcases hcont with ⟨hrem, e⟩ | ⟨hrem, e⟩ <;> rw [e]
      · exact .inl ⟨hp, hlo, hhi, hrem, hbits, hv, hout, hc⟩
      · exact completeHeader_keeps hlo hhi (Fin.ext hrem) hbits hv hout hc
  · rcases takeByte_cases p b d with ⟨_, e⟩ | ⟨hp, _⟩ | ⟨hp, _⟩
    · rw [e]
      exact .inr ⟨8, { hpay with }, hv, rfl⟩
    · exact absurd (hpay.phase.symm.trans hp) nofun
    · exact absurd (hpay.phase.symm.trans hp) nofun

/-! ## The command -/

/-- R152: from a unit with the loop's invariant the loop ends, and with the unit's invariant. -/
theorem decFeedLoop_ends {p : Params} {d : Dec} (h : d.FeedInv p) (data : List Byte) (n : Nat) :
    ∃ status k d', decFeedLoop p data n d = .fin status k d' ∧ d'.Inv p := by
  induction data generalizing n d with
  | nil =>
    have hw := walkLatched_keeps h
    rw [decFeedLoop]
    cases hs : walkLatched d with
    | go d' => rw [hs] at hw; exact ⟨_, _, _, rfl, Dec.SpentInv.inv hw⟩
    | stop status d' => rw [hs] at hw; exact ⟨_, _, _, rfl, hw⟩
    | off => rw [hs] at hw; exact hw.elim
  | cons b bs ih =>
    have hw := walkLatched_keeps h
    rw [decFeedLoop]
    cases hs : walkLatched d with
    | go d' =>
      rw [hs] at hw
      have ht := takeByte_keeps hw b
      dsimp only
      cases hb : takeByte p b d' with
      | go d'' => rw [hb] at ht; exact ih ht (n + 1)
      | stop status d'' => rw [hb] at ht; exact ⟨_, _, _, rfl, ht⟩
      | off => rw [hb] at ht; exact ht.elim
    | stop status d' => rw [hs] at hw; exact ⟨_, _, _, rfl, hw⟩
    | off => rw [hs] at hw; exact hw.elim

/-- R155: FlushPending leaves nothing pending, or finds no room. -/
theorem flushPending_keeps {p : Params} {d d' : Dec} (h : d.Inv p) (hp : d.phase = .header ∨ d.phase = .payload)
    (hf : flushPending d = some d') : d'.FeedInv p := by
  rcases flushPending_cases d with ⟨hn, e⟩ | ⟨hpay, _, hroom, e⟩ | ⟨_, _, _, e⟩ <;> rw [e] at hf <;> cases hf
  · rcases hp with hp | hp
    · exact .inl (h.headerInv hp)
    · exact .inr ⟨_, h.payloadInv hp, by simpa [hp] using hn, rfl⟩
  · have hinv := h.payloadInv hpay
    exact .inr ⟨_, { hinv with nout_le := by simpa [Dec.nout] using hroom }, rfl, rfl⟩

/-- R152 with R155 before it: every accepted DEC_FEED is answered, and keeps the invariant. -/
theorem decFeed_ends {s : State} (h : s.dec.Inv s.params) (hp : s.dec.phase = .header ∨ s.dec.phase = .payload)
    (data : List Byte) : ∃ t, exec (.decFeed data) s = .next t ∧ t.dec.Inv s.params := by
  rw [exec_decFeed_of_feeding hp]
  cases hf : flushPending s.dec with
  | none => exact ⟨_, rfl, h⟩
  | some d =>
    obtain ⟨status, k, d', e, hd'⟩ := decFeedLoop_ends (flushPending_keeps h hp hf) data 0
    rw [decFeedFlushed, e]
    exact ⟨_, rfl, hd'⟩

/-! ## The other commands -/

theorem Dec.reset_inv (p : Params) : Dec.reset.Inv p where
  idle _ := ⟨rfl, rfl⟩
  session h := absurd rfl h
  header := nofun
  absorbed := by simp [Dec.reset]
  fault := nofun
  built := by simp [Dec.reset]
  cursor := nofun
  latch := nofun
  pending := nofun
  done := nofun

theorem countOf_replicate_zero {s : Nat} (hs : s < 256) : countOf (Vector.replicate 256 0) s = 0 := by
  simp [countOf, hs]

/-- R150: the decoder that DEC_INIT constructs, whatever the fields that it does not write hold. -/
theorem Dec.constructed_inv {p : Params} (d : Dec) {cap : Nat} (hlo : 1 ≤ cap) (hhi : cap ≤ p.decBufMax) :
    ({ d with
      phase := .header, count := Vector.replicate 256 0, hdrRem := 1024, cap := cap, out := []
      pendValid := false, bitsLeft := 0 } : Dec).Inv p :=
  Dec.HeaderInv.inv
    { phase := rfl, cap_pos := hlo, cap_le := hhi, bitsLeft := rfl, pendValid := rfl, out := rfl
      hdrRem_pos := show 0 < (1024 : Fin 1025).val by decide
      absorbed := fun _ hs => (countOf_replicate_zero hs).trans_lt (Nat.pow_pos (show 0 < 256 by decide)) }

/-- R157: a drain takes bytes from the front of the output buffer. -/
theorem Dec.Inv.dropFront {p : Params} {d : Dec} (h : d.Inv p) (k : Nat) : (d.dropFront k).Inv p where
  idle := h.idle
  session hi := by
    obtain ⟨hlo, hhi, hout⟩ := h.session hi
    exact ⟨hlo, hhi, le_trans (by simp [Dec.nout]) hout⟩
  header hp := by
    obtain ⟨hrem, hbits, hv, hout⟩ := h.header hp
    exact ⟨hrem, hbits, hv, by simp [hout]⟩
  absorbed := h.absorbed
  fault hp := by
    obtain ⟨hrem, hbits, hv, hout, hvalid⟩ := h.fault hp
    exact ⟨hrem, hbits, hv, by simp [hout], hvalid⟩
  built := h.built
  cursor := h.cursor
  latch := h.latch
  pending := h.pending
  done := h.done

end Sys2Proof.Machine
end

section
/-! The machine invariant (10_state.md) through every command and every step. -/

namespace Sys2Proof.Machine

/-! ## Every command -/

/-- A response added leaves the invariant. -/
theorem State.Inv.answer {s : State} (h : s.Inv) (status : Status) (v : Nat) (b : List Byte) : (s.answer status v b).Inv :=
  ⟨h.params, h.ft, h.enc, h.dec⟩

theorem State.Inv.resetUnits {s : State} (h : s.Inv) : s.resetUnits.Inv :=
  ⟨h.params, Ft.reset_inv h.params, Enc.reset_inv _, Dec.reset_inv _⟩

/-- ENC's commands keep the invariant as soon as they are answered with the encoder's. -/
theorem State.Inv.of_enc {s : State} (h : s.Inv) {i : Instr} (hi : unitOf i = .enc)
    (he : ∃ t, exec i s = .next t ∧ t.enc.Inv s.params) : ∃ t, exec i s = .next t ∧ t.Inv := by
  obtain ⟨t, ht, henc⟩ := he
  obtain ⟨hft, hdec⟩ := exec_enc_keeps hi ht
  obtain ⟨hparams, _⟩ := exec_keeps_port ht
  exact ⟨t, ht, hparams ▸ h.params, hparams ▸ hft ▸ h.ft, hparams ▸ henc, hparams ▸ hdec ▸ h.dec⟩

/-- DEC's commands keep the invariant as soon as they are answered with the decoder's. -/
theorem State.Inv.of_dec {s : State} (h : s.Inv) {i : Instr} (hi : unitOf i = .dec)
    (he : ∃ t, exec i s = .next t ∧ t.dec.Inv s.params) : ∃ t, exec i s = .next t ∧ t.Inv := by
  obtain ⟨t, ht, hdec⟩ := he
  obtain ⟨hft, henc⟩ := exec_dec_keeps hi ht
  obtain ⟨hparams, _⟩ := exec_keeps_port ht
  exact ⟨t, ht, hparams ▸ h.params, hparams ▸ hft ▸ h.ft, hparams ▸ henc ▸ h.enc, hparams ▸ hdec⟩

/-- R118, R119: under a built tree every legal symbol is answered. -/
theorem answerCode_buildTree (count : CountTable) {symbol : Word} (hs : symbol.toNat ≤ 256) (s : State) :
    ∃ v b, answerCode (buildTree count) symbol s = .next (s.answer .success v b) := by
  obtain ⟨c, hc, _⟩ := (buildTree_linked count).exists_codeOf hs
  rw [answerCode, hc]
  exact ⟨_, _, rfl⟩

/-- From a state with the invariant every command is answered, and the invariant kept. -/
theorem exec_inv (i : Instr) {s : State} (h : s.Inv) : ∃ t, exec i s = .next t ∧ t.Inv := by
  by_cases hv : violates i s
  · exact ⟨_, exec_of_violates hv, h.answer _ _ _⟩
  · cases i with
    | sysReset => exact ⟨_, rfl, h.resetUnits.answer _ _ _⟩
    | sysStatus | ftTotal => exact ⟨_, rfl, h.answer _ _ _⟩
    | ftInit => exact ⟨_, rfl, h.params, Ft.reset_inv h.params, h.enc, h.dec⟩
    | ftFeed data =>
      by_cases hover : s.params.cmax < s.ft.total + data.length
      · exact ⟨_, if_pos hover, h.answer _ _ _⟩
      · refine ⟨_, if_neg hover, h.params, ⟨?_, Nat.not_lt.mp hover⟩, h.enc, h.dec⟩
        exact (congrArg (· + data.length) h.ft.total_eq).trans (tableTotal_foldl_countByte data s.ft.count).symm
    | ftCount symbol => exact ⟨_, exec_ftCount_of_legal (Nat.not_lt.mp hv), h.answer _ _ _⟩
    | encInit hint =>
      have hl := hint_legal_of_encInit hv
      exact h.of_enc rfl ⟨_, exec_encInit_of_legal hl,
        Enc.constructed_inv (h.ft.total_eq ▸ h.ft.total_le) hl.1 hl.2⟩
    | encFeed data =>
      have hp : s.enc.phase = .active := not_not.mp hv
      exact h.of_enc rfl (exec_encFeed_of_active hp data ▸ encFeedLoop_ends ⟨h.enc, hp⟩ data 0)
    | encEnd =>
      have hp : s.enc.phase = .active := not_not.mp hv
      exact h.of_enc rfl (exec_encEnd_of_active hp ▸ encEnd_ends ⟨h.enc, hp⟩)
    | encReady => exact ⟨_, exec_encReady_of_ne_idle hv, h.answer _ _ _⟩
    | encDrain maxLen =>
      obtain ⟨k, n, _, _, e⟩ := exec_encDrain_of_ne_idle hv maxLen
      exact h.of_enc rfl ⟨_, e, h.enc.afterDrain k n⟩
    | encCodeof symbol =>
      obtain ⟨hp, hs⟩ := not_or.mp hv
      obtain ⟨_, _, e⟩ := answerCode_buildTree s.enc.count (Nat.not_lt.mp hs) s
      rw [exec_encCodeof_of_legal hp (Nat.not_lt.mp hs), (h.enc.session hp).tree_eq]
      exact ⟨_, e, h.answer _ _ _⟩
    | decInit hint =>
      have hl := hint_legal_of_decInit hv
      exact h.of_dec rfl ⟨_, exec_decInit_of_legal hl, Dec.constructed_inv _ hl.1 hl.2⟩
    | decFeed data => exact h.of_dec rfl (decFeed_ends h.dec (feeding_of_decFeed hv) data)
    | decReady => exact ⟨_, exec_decReady_of_ne_idle hv, h.answer _ _ _⟩
    | decDrain maxLen => exact h.of_dec rfl ⟨_, exec_decDrain_of_ne_idle hv maxLen, h.dec.dropFront _⟩
    | decCodeof symbol =>
      obtain ⟨hp, hs⟩ := built_of_decCodeof hv
      obtain ⟨_, _, e⟩ := answerCode_buildTree s.dec.count hs s
      rw [exec_decCodeof_of_legal hp hs, (h.dec.built hp).2.1]
      exact ⟨_, e, h.answer _ _ _⟩

/-- Settles O12: the command is answered, by the invariant, with one response, by the frame. -/
theorem everyCommandAnswered : Obligations.EveryCommandAnswered := by
  intro i s h
  obtain ⟨t, ht, _⟩ := exec_inv i h
  obtain ⟨_, _, r, hr⟩ := exec_keeps_port ht
  exact ⟨t, r, ht, hr⟩

/-! ## Every step -/

/-- Settles O11: FT's total is EOF's 1 (R36), and no session has begun in ENC or DEC. -/
theorem resetHasInvariant : Obligations.ResetHasInvariant :=
  have hp : Params.standard.legal := by decide
  ⟨hp, Ft.reset_inv hp, Enc.reset_inv _, Dec.reset_inv _⟩

/-- Settles O10, from what a step can do: idle, reset, a command, a record that is none. -/
theorem stepKeepsInvariant : Obligations.StepKeepsInvariant := by
  intro s t h ht
  have hpop : s.popInbox.Inv := ⟨h.params, h.ft, h.enc, h.dec⟩
  rcases step_cases s with ⟨_, e⟩ | ⟨_, _, e⟩ | ⟨_, _, i, _, _, e⟩ | ⟨_, _, r, _, _, e⟩ <;> rw [e] at ht
  · cases ht
    exact h
  · cases ht
    exact hpop.resetUnits
  · obtain ⟨u, hu, hinv⟩ := exec_inv i hpop
    cases hu.symm.trans ht
    exact hinv
  · cases r with
    | reservedOpcode op =>
      cases ht
      exact hpop.answer _ _ _
    | dataLength m => cases ht

end Sys2Proof.Machine
end

section
/-! What has never been written cannot be observed (10_state.md R36, R37; 93_implementation_defined.md U7). ENC and FT
commands follow from the independence of the units, since two agreeing encoders differ in phase IDLE only; a DEC_FEED is
followed through its loop. -/

namespace Sys2Proof.Machine

/-! ## Agreement -/

theorem Enc.Agree.refl (e : Enc) : e.Agree e := ⟨rfl, rfl, fun _ => rfl⟩

theorem Dec.Agree.refl (d : Dec) : d.Agree d where
  phase := rfl
  pendValid := rfl
  bitsLeft := rfl
  session _ := ⟨rfl, rfl, rfl, rfl⟩
  built _ := rfl
  cursor _ := rfl
  latch _ := rfl
  pending _ := rfl

theorem State.Agree.answer {s t : State} (h : s.Agree t) (status : Status) (v : Nat) (b : List Byte) :
    (s.answer status v b).Agree (t.answer status v b) :=
  { h with responses := congrArg (· ++ _) h.responses }

theorem State.Agree.withEnc {s t : State} (h : s.Agree t) {a b : Enc} (he : a.Agree b) :
    ({ s with enc := a } : State).Agree { t with enc := b } :=
  { h with enc := he }

theorem State.Agree.withDec {s t : State} (h : s.Agree t) {a b : Dec} (hd : a.Agree b) :
    ({ s with dec := a } : State).Agree { t with dec := b } :=
  { h with dec := hd }

/-- An outcome agrees with its change by `f` if its next state does. -/
theorem outcomesAgree_onNext {f : State → State} {o : Host.Outcome State Fault Refusal}
    (h : ∀ t, o = .next t → t.Agree (f t)) : outcomesAgree o (onNext f o) := by
  cases o with
  | next t => exact h t rfl
  | fault r => rfl
  | refused r => rfl

/-! ## DEC_FEED -/

/-- Two steps of a feed agree: both go on with units that agree, or end the command alike. -/
def Walk.Agree : Walk → Walk → Prop
  | .go a, .go b => a.Agree b
  | .stop x a, .stop y b => x = y ∧ a.Agree b
  | .off, .off => True
  | _, _ => False

/-- Two feeds end alike. -/
def FeedEnd.Agree : FeedEnd → FeedEnd → Prop
  | .fin x m a, .fin y n b => x = y ∧ m = n ∧ a.Agree b
  | .off, .off => True
  | _, _ => False

section
variable {a b : Dec}

/-- What two agreeing units share in phase PAYLOAD, where only an empty latch or an empty pending register is unwritten. -/
theorem Dec.Agree.payload_eq (h : a.Agree b) (hp : a.phase = .payload) :
    a.tree = b.tree ∧ a.cursor = b.cursor ∧ a.cap = b.cap ∧ a.out = b.out := by
  obtain ⟨_, _, hcap, hout⟩ := h.session (by rw [hp]; exact nofun)
  exact ⟨h.built (.inl hp), h.cursor hp, hcap, hout⟩

/-- The unit with one bit spent and the cursor moved. -/
theorem Dec.Agree.spend (h : a.Agree b) (n : Nat) :
    ({ a.spendBit with cursor := n } : Dec).Agree { b.spendBit with cursor := n } :=
  { h with
    bitsLeft := Fin.ext (by simp [h.bitsLeft])
    cursor := fun _ => rfl
    latch := fun hl => h.latch (Nat.lt_of_lt_of_le hl (Nat.sub_le _ _)) }

theorem Dec.Agree.hasRoom_eq (h : a.Agree b) (hp : a.phase = .payload) : a.hasRoom = b.hasRoom := by
  obtain ⟨_, _, hcap, hout⟩ := h.payload_eq hp
  exact decide_eq_decide.mpr (by rw [Dec.nout, Dec.nout, hcap, hout])

theorem Dec.Agree.bufAppend (h : a.Agree b) {x y : Byte} (hxy : x = y) : (a.bufAppend x).Agree (b.bufAppend y) :=
  { h with
    session := fun hi => by
      obtain ⟨hcount, hrem, hcap, hout⟩ := h.session hi
      exact ⟨hcount, hrem, hcap, congrArg₂ (· ++ [·]) hout hxy⟩ }

theorem emitSymbol_agree (h : a.Agree b) (hp : a.phase = .payload) (sym : Nat) :
    (emitSymbol a sym).Agree (emitSymbol b sym) := by
  unfold emitSymbol
  rw [h.hasRoom_eq hp]
  split
  · exact ⟨rfl, { h with
      phase := rfl, bitsLeft := rfl, session := fun _ => h.session (by rw [hp]; exact nofun)
      built := fun _ => h.built (.inl hp), cursor := nofun, latch := nofun }⟩
  · split
    · exact h.bufAppend rfl
    · exact ⟨rfl, { h with pendValid := rfl, pending := fun _ => rfl }⟩

theorem bitStep_agree (h : a.Agree b) (hp : a.phase = .payload) (hb : 0 < a.bitsLeft.val) :
    (bitStep a).Agree (bitStep b) := by
  obtain ⟨htree, hcursor, _⟩ := h.payload_eq hp
  have hbit : a.nextBit = b.nextBit := by rw [Dec.nextBit, Dec.nextBit, h.latch hb, h.bitsLeft]
  simp only [bitStep, htree, hcursor, hbit]
  cases decodeStep b.tree b.cursor b.nextBit with
  | none => trivial
  | some r =>
    obtain ⟨n, o⟩ := r
    cases o with
    | none => exact h.spend n
    | some sym => exact emitSymbol_agree (h.spend n) hp sym

/-- A bit walked without ending the command stays in the phase and leaves one bit less. -/
theorem bitStep_go {d d' : Dec} (h : bitStep d = .go d') :
    d'.phase = d.phase ∧ d'.bitsLeft.val = d.bitsLeft.val - 1 := by
  rcases bitStep_cases d with ⟨_, e⟩ | ⟨_, _, e⟩ | ⟨_, _, e⟩ | ⟨_, _, _, _, ⟨_, e⟩ | ⟨_, e⟩⟩ <;>
    rw [e] at h <;> cases h <;> exact ⟨rfl, rfl⟩

theorem walkBits_agree {n : Nat} (h : a.Agree b) (hp : a.phase = .payload) (hn : a.bitsLeft.val = n) :
    (walkBits n a).Agree (walkBits n b) := by
  induction n generalizing a b with
  | zero => exact h
  | succ n ih =>
    have hstep := bitStep_agree h hp (by omega)
    rw [walkBits, walkBits]
    cases ha : bitStep a <;> cases hb : bitStep b <;> rw [ha, hb] at hstep
    case go.go a' b' =>
      obtain ⟨hp', hn'⟩ := bitStep_go ha
      exact ih hstep (hp'.trans hp) (by omega)
    case stop.stop | off.off => exact hstep
    all_goals exact hstep.elim

theorem walkLatched_agree (h : a.Agree b) : (walkLatched a).Agree (walkLatched b) := by
  by_cases hp : a.phase = .payload
  · simp only [walkLatched, hp, ← h.phase, ← h.bitsLeft]
    exact walkBits_agree h hp rfl
  · have hgo {d : Dec} (hd : d.phase ≠ .payload) : walkLatched d = .go d := by
      unfold walkLatched
      split <;> simp_all
    rw [hgo hp, hgo (h.phase ▸ hp)]
    exact h

theorem completeHeader_agree (p : Params) (h : a.Agree b) (hp : a.phase = .header) :
    (completeHeader p a).Agree (completeHeader p b) := by
  obtain ⟨hcount, hrest⟩ := h.session (by rw [hp]; exact nofun)
  unfold completeHeader
  rw [hcount]
  split
  · exact { h with
      phase := rfl, session := fun _ => ⟨rfl, hrest⟩, built := fun _ => rfl, cursor := fun _ => rfl }
  · exact ⟨rfl, { h with phase := rfl, session := fun _ => ⟨rfl, hrest⟩, built := by simp, cursor := nofun }⟩

/-- In phase HEADER a byte is absorbed by both units or by none. -/
theorem absorbHeaderByte_agree (x : Byte) (h : a.Agree b) (hp : a.phase = .header) :
    absorbHeaderByte x a = none ∧ absorbHeaderByte x b = none ∨
    ∃ a' b', absorbHeaderByte x a = some a' ∧ absorbHeaderByte x b = some b' ∧ a'.phase = .header ∧ b'.phase = .header ∧
      a'.hdrRem = b'.hdrRem ∧ a'.Agree b' := by
  obtain ⟨hcount, hrem, hcap, hout⟩ := h.session (by rw [hp]; exact nofun)
  by_cases h0 : a.hdrRem.val = 0
  · exact .inl ⟨if_pos h0, if_pos (hrem ▸ h0)⟩
  · have hcount' : mergeHeaderByte a.count (1024 - a.hdrRem.val) x = mergeHeaderByte b.count (1024 - b.hdrRem.val) x := by
      rw [hcount, hrem]
    have hrem' : (⟨a.hdrRem.val - 1, by omega⟩ : Fin 1025) = ⟨b.hdrRem.val - 1, by omega⟩ := by simp only [hrem]
    exact .inr ⟨_, _, if_neg h0, if_neg (hrem ▸ h0), hp, h.phase ▸ hp, hrem',
      { h with session := fun _ => ⟨hcount', hrem', hcap, hout⟩ }⟩

theorem takeByte_agree (p : Params) (x : Byte) (h : a.Agree b) : (takeByte p x a).Agree (takeByte p x b) := by
  by_cases hp : a.phase = .header
  · have hpb : b.phase = .header := h.phase ▸ hp
    rcases absorbHeaderByte_agree x h hp with ⟨ha, hb⟩ | ⟨a', b', ha, hb, hp', _, hrem, h'⟩ <;>
      simp only [takeByte, hp, hpb, ha, hb]
    · trivial
    · rw [hrem]
      split
      · exact completeHeader_agree p h' hp'
      · exact h'
  · have hgo {d : Dec} (hd : d.phase ≠ .header) : takeByte p x d = .go { d with cur := x, bitsLeft := 8 } := by
      rcases takeByte_cases p x d with ⟨_, e⟩ | ⟨hh, _⟩ | ⟨hh, _⟩
      · exact e
      · exact absurd hh hd
      · exact absurd hh hd
    rw [hgo hp, hgo (h.phase ▸ hp)]
    exact { h with bitsLeft := rfl, latch := fun _ => rfl }

theorem decFeedLoop_agree (p : Params) (data : List Byte) (n : Nat) (h : a.Agree b) :
    (decFeedLoop p data n a).Agree (decFeedLoop p data n b) := by
  induction data generalizing n a b with
  | nil =>
    have hw := walkLatched_agree h
    rw [decFeedLoop, decFeedLoop]
    cases ha : walkLatched a <;> cases hb : walkLatched b <;> rw [ha, hb] at hw
    case go.go => exact ⟨rfl, rfl, hw⟩
    case stop.stop => exact ⟨hw.1, rfl, hw.2⟩
    case off.off => trivial
    all_goals exact hw.elim
  | cons x xs ih =>
    have hw := walkLatched_agree h
    rw [decFeedLoop, decFeedLoop]
    cases ha : walkLatched a <;> cases hb : walkLatched b <;> rw [ha, hb] at hw
    case go.go a' b' =>
      have ht := takeByte_agree p x hw
      dsimp only
      cases ha' : takeByte p x a' <;> cases hb' : takeByte p x b' <;> rw [ha', hb'] at ht
      case go.go => exact ih (n + 1) ht
      case stop.stop => exact ⟨ht.1, rfl, ht.2⟩
      case off.off => trivial
      all_goals exact ht.elim
    case stop.stop => exact ⟨hw.1, rfl, hw.2⟩
    case off.off => trivial
    all_goals exact hw.elim

/-- FlushPending finds room for both units or for none. -/
theorem flushPending_agree (h : a.Agree b) :
    flushPending a = none ∧ flushPending b = none ∨
    ∃ a' b', flushPending a = some a' ∧ flushPending b = some b' ∧ a'.Agree b' := by
  by_cases hw : a.phase = .payload ∧ a.pendValid = true
  · obtain ⟨hp, hv⟩ := hw
    have hpb : b.phase = .payload := h.phase ▸ hp
    have hvb : b.pendValid = true := h.pendValid ▸ hv
    simp only [flushPending, hp, hv, hpb, hvb, h.hasRoom_eq hp, if_true]
    split
    · exact .inr ⟨_, _, rfl, rfl, { h.bufAppend (h.pending hv) with pendValid := rfl, pending := nofun }⟩
    · exact .inl ⟨rfl, rfl⟩
  · have hsome {d : Dec} (hd : ¬ (d.phase = .payload ∧ d.pendValid = true)) : flushPending d = some d := by
      rcases flushPending_cases d with ⟨_, e⟩ | ⟨hp, hv, _⟩ | ⟨hp, hv, _⟩
      · exact e
      · exact absurd ⟨hp, hv⟩ hd
      · exact absurd ⟨hp, hv⟩ hd
    exact .inr ⟨a, b, hsome hw, hsome (h.phase ▸ h.pendValid ▸ hw), h⟩

end

theorem decFeedFlushed_agree {s t : State} (h : s.Agree t) (data : List Byte) :
    outcomesAgree (decFeedFlushed data s (flushPending s.dec)) (decFeedFlushed data t (flushPending t.dec)) := by
  rcases flushPending_agree h.dec with ⟨hs, ht⟩ | ⟨a, b, hs, ht, hab⟩ <;> rw [hs, ht]
  · exact h.answer _ _ _
  · have hl := decFeedLoop_agree s.params data 0 hab
    rw [decFeedFlushed, decFeedFlushed, ← h.params]
    cases ha : decFeedLoop s.params data 0 a <;> cases hb : decFeedLoop s.params data 0 b <;> rw [ha, hb] at hl
    case fin.fin x m a' y n b' =>
      obtain ⟨rfl, rfl, hab'⟩ := hl
      exact (h.withDec hab').answer _ _ _
    case off.off => rfl
    all_goals exact hl.elim

/-! ## Every command -/

/-- Whether a command breaks the contract is read from what has been written. -/
theorem State.Agree.violates_eq {s t : State} (h : s.Agree t) (i : Instr) : violates i s = violates i t := by
  unfold violates
  rw [h.params, h.enc.phase, h.dec.phase]

theorem exec_agree_of_violates {s t : State} (h : s.Agree t) {i : Instr} (hv : violates i s) :
    outcomesAgree (exec i s) (exec i t) := by
  rw [exec_of_violates hv, exec_of_violates (h.violates_eq i ▸ hv)]
  exact h.answer _ _ _

/-- R118, R119: a code is read from the tree alone. -/
theorem answerCode_agree {s t : State} (h : s.Agree t) (tree : Tree) (symbol : Word) :
    outcomesAgree (answerCode tree symbol s) (answerCode tree symbol t) := by
  unfold answerCode
  split
  · exact h.answer _ _ _
  · rfl

theorem exec_dec_agree {i : Instr} (hi : unitOf i = .dec) {s t : State} (h : s.Agree t) (hv : ¬ violates i s) :
    outcomesAgree (exec i s) (exec i t) := by
  cases i with
  | decInit hint =>
    have hl := hint_legal_of_decInit hv
    rw [exec_decInit_of_legal hl, exec_decInit_of_legal (h.params ▸ hl)]
    refine (h.withDec ?_).answer _ _ _
    exact ⟨rfl, rfl, rfl, fun _ => ⟨rfl, rfl, rfl, rfl⟩, by simp, nofun, nofun, nofun⟩
  | decFeed data =>
    have hp := feeding_of_decFeed hv
    rw [exec_decFeed_of_feeding hp, exec_decFeed_of_feeding (h.dec.phase ▸ hp)]
    exact decFeedFlushed_agree h data
  | decReady =>
    obtain ⟨_, _, _, hout⟩ := h.dec.session hv
    rw [exec_decReady_of_ne_idle hv, exec_decReady_of_ne_idle (h.dec.phase ▸ hv), Dec.nout, Dec.nout, hout]
    exact h.answer _ _ _
  | decDrain maxLen =>
    obtain ⟨hcount, hrem, hcap, hout⟩ := h.dec.session hv
    rw [exec_decDrain_of_ne_idle hv, exec_decDrain_of_ne_idle (h.dec.phase ▸ hv), Dec.nout, Dec.nout, hout]
    refine (h.withDec ?_).answer _ _ _
    exact { h.dec with session := fun _ => ⟨hcount, hrem, hcap, congrArg (List.drop _) hout⟩ }
  | decCodeof symbol =>
    obtain ⟨hp, hs⟩ := built_of_decCodeof hv
    rw [exec_decCodeof_of_legal hp hs, exec_decCodeof_of_legal (h.dec.phase ▸ hp) hs, h.dec.built hp]
    exact answerCode_agree h _ symbol
  | _ => cases hi

/-- FT's commands run the same whatever ENC and DEC hold. -/
theorem exec_ft_agree {i : Instr} (hi : unitOf i = .ft) {s t : State} (h : s.Agree t) :
    outcomesAgree (exec i s) (exec i t) := by
  have ht : t = s.aroundFt t.enc t.dec := by
    rw [State.aroundFt, h.params, h.ft, h.inbox, h.grants, h.growAsked, h.responses]
  rw [ht, exec_aroundFt hi]
  refine outcomesAgree_onNext fun u hu => ?_
  obtain ⟨henc, hdec⟩ := exec_ft_keeps hi hu
  exact ⟨rfl, rfl, henc ▸ h.enc, hdec ▸ h.dec, rfl, rfl, rfl, rfl⟩

/-- Every accepted command of ENC but ENC_INIT finds an encoder constructed. -/
theorem enc_ne_idle {i : Instr} (hi : unitOf i = .enc) (hinit : ∀ hint, i ≠ .encInit hint) {s : State}
    (hv : ¬ violates i s) : s.enc.phase ≠ .idle := by
  intro hp
  cases i with
  | encInit hint => exact hinit hint rfl
  | encFeed _ | encEnd | encReady | encDrain _ | encCodeof _ => simp [violates, hp] at hv
  | _ => cases hi

/-- ENC's commands run the same whatever DEC holds. -/
theorem exec_enc_agree {i : Instr} (hi : unitOf i = .enc) {s t : State} (h : s.Agree t) (hv : ¬ violates i s) :
    outcomesAgree (exec i s) (exec i t) := by
  by_cases hinit : ∃ hint, i = .encInit hint
  · obtain ⟨hint, rfl⟩ := hinit
    have hl := hint_legal_of_encInit hv
    rw [exec_encInit_of_legal hl, exec_encInit_of_legal (h.params ▸ hl)]
    refine (h.withEnc ?_).answer _ _ _
    rw [h.ft]
    exact .refl _
  · have henc := h.enc.session (enc_ne_idle hi (not_exists.mp hinit) hv)
    have ht : t = s.aroundEnc s.ft t.dec := by
      rw [State.aroundEnc, h.params, h.ft, henc, h.inbox, h.grants, h.growAsked, h.responses]
    rw [ht, exec_enc_withDec hi]
    refine outcomesAgree_onNext fun u hu => ?_
    obtain ⟨hft, hdec⟩ := exec_enc_keeps hi hu
    exact ⟨rfl, hft, .refl _, hdec ▸ h.dec, rfl, rfl, rfl, rfl⟩

theorem statusWord_agree {s t : State} (h : s.Agree t) : statusWord s = statusWord t := by
  rw [statusWord, statusWord, h.enc.phase, h.enc.nbits, h.dec.phase, h.dec.pendValid, h.dec.bitsLeft]

theorem State.Agree.resetUnits {s t : State} (h : s.Agree t) : s.resetUnits.Agree t.resetUnits :=
  { h with ft := rfl, enc := .refl _, dec := .refl _ }

theorem exec_agree (i : Instr) {s t : State} (h : s.Agree t) : outcomesAgree (exec i s) (exec i t) := by
  by_cases hv : violates i s
  · exact exec_agree_of_violates h hv
  · cases hu : unitOf i with
    | ft => exact exec_ft_agree hu h
    | enc => exact exec_enc_agree hu h hv
    | dec => exact exec_dec_agree hu h hv
    | system =>
      cases i with
      | sysReset => exact h.resetUnits.answer _ _ _
      | sysStatus =>
        simp only [exec, execSysStatus, statusWord_agree h]
        exact h.answer _ _ _
      | _ => cases hu

/-! ## The step -/

theorem rejectCommand_agree (r : Reject) {s t : State} (h : s.Agree t) :
    outcomesAgree (rejectCommand r s) (rejectCommand r t) := by
  cases r with
  | reservedOpcode op => exact h.answer _ _ _
  | dataLength m => rfl

/-- Settles O13: the pending event is the same in both states, and what it runs agrees. -/
theorem unwrittenStateUnobservable : Obligations.UnwrittenStateUnobservable := by
  intro s t h
  have hpop : s.popInbox.Agree t.popInbox := { h with inbox := congrArg List.tail h.inbox }
  simp only [step, ← h.inbox]
  cases s.inbox with
  | nil => exact h
  | cons e rest =>
    cases e with
    | reset => exact hpop.resetUnits
    | issue c =>
      dsimp only
      cases decode c with
      | ok i => exact exec_agree i hpop
      | error r => exact rejectCommand_agree r hpop

end Sys2Proof.Machine
end

section
/-! A feed cut in two (20_memory.md R56): what a feed that consumed all its bytes with Success leaves is where one feed of
the longer input stands when it reaches the second part. For the encoder (43_stream_encoder.md R133) the second feed differs
only in the count it starts from and in the responses before it; for the decoder (44_stream_decoder.md R152) the first
feed has walked the latch already and has left nothing pending. -/

namespace Sys2Proof.Machine

/-! ## The responses of a feed -/

/-- The response that a command has added is the one it was answered with. -/
theorem eq_of_answer_responses {s u : State} {status : Status} {v : Nat} {b : List Byte} {r : Response}
    (hu : u.responses = s.responses) (h : (u.answer status v b).responses = s.responses ++ [r]) :
    r = ⟨status, BitVec.ofNat 32 v, b⟩ := by
  rw [State.answer_responses, hu] at h
  exact (List.singleton_inj.mp (List.append_cancel_left h)).symm

/-- A command that was answered with Success did not break the contract. -/
theorem not_violates_of_success {i : Instr} {s t : State} {v : Word} {b : List Byte} (h : exec i s = .next t)
    (hr : t.responses = s.responses ++ [⟨.success, v, b⟩]) : ¬ violates i s := by
  intro hv
  cases (exec_of_violates hv).symm.trans h
  cases eq_of_answer_responses rfl hr

/-! ## ENC_FEED -/

/-- The state with other responses before it, which no command of the encoder reads. -/
def State.withResponses (rs : List Response) (s : State) : State := { s with responses := rs }

theorem encReserve_withResponses (l : Nat) (s : State) (rs : List Response) :
    encReserve l (s.withResponses rs) = (encReserve l s).mapState (State.withResponses rs) := by
  have henc : (s.withResponses rs).enc = s.enc := rfl
  have hparams : (s.withResponses rs).params = s.params := rfl
  have hgrant : (s.withResponses rs).grantAnswer = s.grantAnswer := rfl
  simp only [encReserve, henc, hparams, hgrant]
  cases growCap s.params.bufMax (s.enc.buf.need l) (s.enc.buf.need l) s.enc.cap with
  | stuck | pastGuard => rfl
  | fits newcap =>
    simp only [apply_ite (EncStep.mapState _)]
    rfl

theorem encSymbol_withResponses (sym : Nat) (s : State) (rs : List Response) :
    encSymbol sym (s.withResponses rs) = (encSymbol sym s).mapState (State.withResponses rs) := by
  have henc : (s.withResponses rs).enc = s.enc := rfl
  simp only [encSymbol, henc]
  cases codeOf s.enc.tree sym with
  | none => rfl
  | some c =>
    simp only [encReserve_withResponses]
    cases encReserve c.length s <;> rfl

/-- How a feed goes on and ends is the same from every count and after any responses: it is stuck, or it is answered with
the bytes it encodes added to the count. -/
theorem encFeedLoop_uniform (data : List Byte) (s : State) :
    (∃ f, ∀ n rs, encFeedLoop data n (s.withResponses rs) = .fault f) ∨
    ∃ (status : Status) (k : Nat) (u : State), ∀ n rs,
      encFeedLoop data n (s.withResponses rs) = .next ((u.withResponses rs).answer status (n + k) []) := by
  induction data generalizing s with
  | nil => exact .inr ⟨.success, 0, s, fun _ _ => rfl⟩
  | cons b bs ih =>
    simp only [encFeedLoop, encSymbol_withResponses]
    cases encSymbol b.toNat s with
    | ok t =>
      rcases ih t with ⟨f, hf⟩ | ⟨status, k, u, hu⟩
      · exact .inl ⟨f, fun n rs => hf (n + 1) rs⟩
      · refine .inr ⟨status, 1 + k, u, fun n rs => ?_⟩
        rw [← Nat.add_assoc]
        exact hu (n + 1) rs
    | fail status t => exact .inr ⟨status, 0, t, fun _ _ => rfl⟩
    | stuck f => exact .inl ⟨f, fun _ _ => rfl⟩

/-- An internal procedure of the encoder stays in the phase if it goes on, and fails with no Success (R131, R133). -/
def EncStep.goesOnIn (phase : EncPhase) : EncStep → Prop
  | .ok t => t.enc.phase = phase
  | .fail status _ => status ≠ .success
  | .stuck _ => True

theorem encReserve_goesOn (l : Nat) (s : State) : (encReserve l s).goesOnIn s.enc.phase := by
  rcases encReserve_cases l s with ⟨e, _⟩ | ⟨_, _, _, _, e⟩ | ⟨_, e⟩ | e | e <;> rw [e]
  · rfl
  · rfl
  · exact nofun
  · exact nofun
  · trivial

theorem encSymbol_goesOn (sym : Nat) (s : State) : (encSymbol sym s).goesOnIn s.enc.phase := by
  rcases encSymbol_cases sym s with ⟨_, e⟩ | ⟨c, _, hc⟩
  · rw [e]
    trivial
  · have hr := encReserve_goesOn c.length s
    rcases hc with ⟨t, ht, e⟩ | ⟨status, t, ht, e⟩ | ⟨f, _, e⟩ <;> rw [e]
    · rwa [ht] at hr
    · rwa [ht] at hr
    · trivial

/-- A feed answered with Success has encoded all its bytes, and stands where a feed of more bytes goes on (R133). -/
theorem encFeedLoop_success {data : List Byte} {n : Nat} {s t : State} {v : Word} {d : List Byte}
    (h : encFeedLoop data n s = .next t) (hr : t.responses = s.responses ++ [⟨.success, v, d⟩]) :
    ∃ m, t = m.answer .success (n + data.length) [] ∧ m.responses = s.responses ∧ m.enc.phase = s.enc.phase ∧
      ∀ more, encFeedLoop (data ++ more) n s = encFeedLoop more (n + data.length) m := by
  induction data generalizing n s with
  | nil =>
    cases h
    exact ⟨s, rfl, rfl, rfl, fun _ => rfl⟩
  | cons b bs ih =>
    have hkeep := encSymbol_leaves b.toNat s
    have hgo := encSymbol_goesOn b.toNat s
    simp only [List.cons_append, encFeedLoop, List.length_cons, ← Nat.add_assoc, Nat.add_right_comm n _ 1] at h ⊢
    cases he : encSymbol b.toNat s with
    | ok u =>
      rw [he] at h hkeep hgo
      obtain ⟨_, _, _, _, hresp⟩ := State.EncoderStep.frame hkeep
      obtain ⟨m, ht, hm, hphase, hmore⟩ := ih h (hresp ▸ hr)
      exact ⟨m, ht, hm.trans hresp, hphase.trans hgo, hmore⟩
    | fail status u =>
      rw [he] at h hkeep hgo
      obtain ⟨_, _, _, _, hresp⟩ := State.EncoderStep.frame hkeep
      cases h
      cases eq_of_answer_responses hresp hr
      exact absurd rfl hgo
    | stuck f =>
      rw [he] at h
      cases h

/-- Settles O46: the first feed stops where the one feed goes on, and from there the count and the responses before it are
all that the second feed has otherwise. -/
theorem encFeedCutsDoNotMatter : Obligations.EncFeedCutsDoNotMatter := by
  intro s t u a b r _ hst hrt htu hru
  have hp : s.enc.phase = .active := not_not.mp (not_violates_of_success hst hrt)
  rw [exec_encFeed_of_active hp] at hst ⊢
  obtain ⟨m, rfl, hm, hmp, hmore⟩ := encFeedLoop_success hst hrt
  rw [exec_encFeed_of_active (s := m.answer _ _ _) (hmp.trans hp)] at htu
  rw [hmore, ← hm]
  rcases encFeedLoop_uniform b m with ⟨f, hf⟩ | ⟨status, k, w, hw⟩
  · cases (hf 0 _).symm.trans htu
  · cases (hw 0 _).symm.trans htu
    cases eq_of_answer_responses rfl hru
    refine (hw _ m.responses).trans ?_
    simp only [Nat.zero_add, BitVec.ofNat_add, State.answer, State.withResponses]

/-! ## DEC_FEED -/

/-- A step of a feed that ends the command does not end it with Success. -/
def Walk.stopsShort : Walk → Prop
  | .stop status _ => status ≠ .success
  | .go _ | .off => True

theorem bitStep_stopsShort (d : Dec) : (bitStep d).stopsShort := by
  rcases bitStep_cases d with ⟨_, e⟩ | ⟨_, _, e⟩ | ⟨_, _, e⟩ | ⟨_, _, _, _, ⟨_, e⟩ | ⟨_, e⟩⟩ <;> rw [e]
  case inr.inr.inl => exact nofun
  case inr.inr.inr.inr => exact nofun
  all_goals trivial

theorem walkBits_stopsShort (n : Nat) (d : Dec) : (walkBits n d).stopsShort := by
  induction n generalizing d with
  | zero => trivial
  | succ n ih =>
    have hb := bitStep_stopsShort d
    rw [walkBits]
    cases hs : bitStep d with
    | go d' => exact ih d'
    | stop status d' => rwa [hs] at hb
    | off => trivial

theorem walkLatched_stopsShort (d : Dec) : (walkLatched d).stopsShort := by
  unfold walkLatched
  split
  · exact walkBits_stopsShort _ d
  all_goals trivial

theorem completeHeader_stopsShort (p : Params) (d : Dec) : (completeHeader p d).stopsShort := by
  unfold completeHeader
  split
  · trivial
  · exact nofun

theorem takeByte_stopsShort (p : Params) (b : Byte) (d : Dec) : (takeByte p b d).stopsShort := by
  rcases takeByte_cases p b d with ⟨_, e⟩ | ⟨_, _, e⟩ | ⟨_, _, d', _, ⟨_, e⟩ | ⟨_, e⟩⟩ <;> rw [e]
  case inr.inr.inr => exact completeHeader_stopsShort p d'
  all_goals trivial

/-- The end of a feed with `n` more bytes consumed before it. -/
def FeedEnd.after (n : Nat) : FeedEnd → FeedEnd
  | .fin status k d => .fin status (n + k) d
  | .off => .off

/-- The count a feed starts from is only added to (R152). -/
theorem decFeedLoop_add (p : Params) (data : List Byte) (n k : Nat) (d : Dec) :
    decFeedLoop p data (n + k) d = (decFeedLoop p data k d).after n := by
  induction data generalizing k d with
  | nil =>
    rw [decFeedLoop, decFeedLoop]
    cases walkLatched d <;> rfl
  | cons b bs ih =>
    rw [decFeedLoop, decFeedLoop]
    cases walkLatched d with
    | go d' =>
      dsimp only
      cases takeByte p b d' with
      | go d'' => exact ih (k + 1) d''
      | stop status d'' => rfl
      | off => rfl
    | stop status d' => rfl
    | off => rfl

section
variable {p : Params} {d : Dec} (h : d.SpentInv p)
include h

theorem Dec.SpentInv.feeding : d.feeding := by
  rcases h with h | ⟨hpay, hv, _⟩
  · exact ⟨.inl h.phase, h.pendValid⟩
  · exact ⟨.inr hpay.phase, hv⟩

/-- Where the latch has been walked nothing is left to walk. -/
theorem Dec.SpentInv.walkLatched_eq : walkLatched d = .go d := by
  rcases h with h | ⟨hpay, _, hbits⟩
  · simp only [walkLatched, h.phase]
  · simp only [walkLatched, hpay.phase, hbits, walkBits]

theorem Dec.SpentInv.flushPending_eq : flushPending d = some d := by
  obtain ⟨_, hv⟩ := h.feeding
  rcases flushPending_cases d with ⟨_, e⟩ | ⟨_, hpend, _⟩ | ⟨_, hpend, _⟩
  · exact e
  · exact absurd (hv.symm.trans hpend) nofun
  · exact absurd (hv.symm.trans hpend) nofun

end

/-- A feed begins by walking the latch, so it goes the same from a unit whose latch has been walked (R152). -/
theorem decFeedLoop_of_walked {p : Params} {d d' : Dec} (hw : walkLatched d = .go d') (h : d'.SpentInv p)
    (data : List Byte) (n : Nat) : decFeedLoop p data n d = decFeedLoop p data n d' := by
  cases data <;> simp only [decFeedLoop, hw, h.walkLatched_eq]

/-- A feed that ends with Success has consumed all its bytes, and leaves a unit from which a feed of more bytes goes on
(R152). -/
theorem decFeedLoop_success {p : Params} {data : List Byte} {n k : Nat} {d d' : Dec} (h : d.FeedInv p)
    (he : decFeedLoop p data n d = .fin .success k d') :
    d'.SpentInv p ∧ k = n + data.length ∧ ∀ more, decFeedLoop p (data ++ more) n d = decFeedLoop p more k d' := by
  induction data generalizing n d with
  | nil =>
    have hw := walkLatched_keeps h
    have hshort := walkLatched_stopsShort d
    rw [decFeedLoop] at he
    cases hs : walkLatched d with
    | go c =>
      rw [hs] at he hw
      cases he
      exact ⟨hw, rfl, fun more => decFeedLoop_of_walked hs hw more _⟩
    | stop status c =>
      rw [hs] at he hshort
      cases he
      exact absurd rfl hshort
    | off =>
      rw [hs] at he
      cases he
  | cons b bs ih =>
    have hw := walkLatched_keeps h
    have hshort := walkLatched_stopsShort d
    simp only [List.cons_append, decFeedLoop] at he ⊢
    cases hs : walkLatched d with
    | go c =>
      rw [hs] at he hw
      have ht := takeByte_keeps hw b
      have hshort' := takeByte_stopsShort p b c
      dsimp only at he ⊢
      cases hb : takeByte p b c with
      | go c' =>
        rw [hb] at he ht
        obtain ⟨hspent, hk, hmore⟩ := ih ht he
        exact ⟨hspent, by rw [hk, List.length_cons]; omega, hmore⟩
      | stop status c' =>
        rw [hb] at he hshort'
        cases he
        exact absurd rfl hshort'
      | off =>
        rw [hb] at he
        cases he
    | stop status c =>
      rw [hs] at he hshort
      cases he
      exact absurd rfl hshort
    | off =>
      rw [hs] at he
      cases he

/-- A DEC_FEED answered with Success found room for what was pending, and its loop ended with Success (R152, R155). -/
theorem decFeedFlushed_success {s t : State} {data : List Byte} {v : Word} {b : List Byte}
    (h : decFeedFlushed data s (flushPending s.dec) = .next t)
    (hr : t.responses = s.responses ++ [⟨.success, v, b⟩]) :
    ∃ d k d', flushPending s.dec = some d ∧ decFeedLoop s.params data 0 d = .fin .success k d' ∧
      t = ({ s with dec := d' } : State).answer .success k [] := by
  cases hf : flushPending s.dec with
  | none =>
    rw [hf] at h
    cases h
    cases eq_of_answer_responses rfl hr
  | some d =>
    rw [hf, decFeedFlushed] at h
    cases hl : decFeedLoop s.params data 0 d with
    | fin status k d' =>
      rw [hl] at h
      cases h
      cases eq_of_answer_responses rfl hr
      exact ⟨d, k, d', rfl, hl, rfl⟩
    | off =>
      rw [hl] at h
      cases h

/-- Settles O56: the first feed leaves the unit with its latch walked and nothing pending, which is where the one feed goes
on with the second part. -/
theorem decFeedCutsDoNotMatter : Obligations.DecFeedCutsDoNotMatter := by
  intro s t u a b r hinv _ hst hrt htu hru
  have hp := feeding_of_decFeed (not_violates_of_success hst hrt)
  rw [exec_decFeed_of_feeding hp] at hst ⊢
  obtain ⟨d, k, d', hf, hl, rfl⟩ := decFeedFlushed_success hst hrt
  obtain ⟨hspent, hk, hmore⟩ := decFeedLoop_success (flushPending_keeps hinv.dec hp hf) hl
  rw [Nat.zero_add] at hk
  subst hk
  have hmid := decFeedLoop_add s.params b a.length 0 d'
  rw [exec_decFeed_of_feeding hspent.feeding.1, State.answer_dec, hspent.flushPending_eq] at htu
  simp only [decFeedFlushed, State.answer_params] at htu
  rw [hf, decFeedFlushed, hmore, ← Nat.add_zero a.length, hmid]
  cases he : decFeedLoop s.params b 0 d' with
  | fin status j c =>
    rw [he] at htu
    cases htu
    cases eq_of_answer_responses rfl hru
    simp only [FeedEnd.after, decFeedAnswer, State.answer, BitVec.ofNat_add, Nat.add_zero]
  | off =>
    rw [he] at htu
    cases htu

end Sys2Proof.Machine
end

section
/-! A drain cut in two (20_memory.md R56): both units drain from the front of what they hold, and taking `j` and then `k`
from the front is taking `j + k` (43_stream_encoder.md R136; 44_stream_decoder.md R157). -/

namespace Sys2Proof.Machine

/-! ## The front of the encoder: what is left of the header, then the buffer -/

theorem headerBytes_append (count : CountTable) (h m n : Nat) :
    headerBytes count h m ++ headerBytes count (h + m) n = headerBytes count h (m + n) := by
  simp only [headerBytes, List.range_add, List.map_append, List.map_map, Function.comp_def, Nat.add_assoc]

theorem headerBytes_zero (count : CountTable) (h : Nat) : headerBytes count h 0 = [] := rfl

/-- The first `k` bytes that are ready to drain (R136). -/
def Enc.front (e : Enc) (k : Nat) : List Byte := e.drained (min k e.hdrRem.val) (k - min k e.hdrRem.val)

/-- The unit without them. -/
def Enc.dropFront (e : Enc) (k : Nat) : Enc := e.afterDrain (min k e.hdrRem.val) (k - min k e.hdrRem.val)

theorem exec_encDrain_eq {s : State} (h : s.enc.phase ≠ .idle) (maxLen : Word) :
    exec (.encDrain maxLen) s = .next (({ s with enc := s.enc.dropFront (min maxLen.toNat s.enc.ready) } : State).answer
      .success (min maxLen.toNat s.enc.ready) (s.enc.front (min maxLen.toNat s.enc.ready))) := by
  simp only [exec, execEncDrain]
  split
  · rfl
  · rfl
  · contradiction

section
variable (e : Enc) (j k : Nat)

theorem Enc.ready_dropFront : (e.dropFront j).ready = e.ready - j := by
  simp only [Enc.ready, Enc.dropFront, Enc.afterDrain_hdrRem_val, Enc.afterDrain_buf, BitBuf.nbytes,
    BitBuf.dropFront_bytes, List.length_drop]
  omega

theorem Enc.dropFront_dropFront : (e.dropFront j).dropFront k = e.dropFront (j + k) := by
  simp only [Enc.dropFront, Enc.afterDrain, BitBuf.dropFront, List.drop_drop, Enc.mk.injEq, BitBuf.mk.injEq, Fin.mk.injEq,
    true_and, and_true]
  exact ⟨by omega, congrArg (List.drop · _) (by omega)⟩

/-- The buffer is reached only when no header byte is left. -/
theorem Enc.front_append : e.front j ++ (e.dropFront j).front k = e.front (j + k) := by
  simp only [Enc.front, Enc.dropFront, Enc.drained, Enc.afterDrain_count, Enc.afterDrain_hdrRem_val, Enc.afterDrain_buf,
    BitBuf.dropFront_bytes]
  by_cases hj : j ≤ e.hdrRem.val
  · have hlt := e.hdrRem.isLt
    have hpos : 1024 - (e.hdrRem.val - j) = 1024 - e.hdrRem.val + j := by omega
    have hmin : min (j + k) e.hdrRem.val = j + min k (e.hdrRem.val - j) := by omega
    rw [Nat.min_eq_left hj, Nat.sub_self, List.take_zero, List.drop_zero, List.append_nil, hpos, hmin, ← List.append_assoc,
      headerBytes_append, Nat.add_sub_add_left]
  · have hj' : e.hdrRem.val ≤ j := Nat.le_of_not_le hj
    rw [Nat.min_eq_right hj', Nat.sub_self, Nat.min_zero, Nat.min_eq_right (Nat.le_add_right_of_le hj'),
      Nat.sub_add_comm hj', Nat.sub_zero k, List.take_add, headerBytes_zero, List.nil_append, List.append_assoc]

end

/-! ## The front of the decoder's output buffer -/

theorem Dec.nout_dropFront (d : Dec) (j : Nat) : (d.dropFront j).nout = d.nout - j := List.length_drop ..

theorem Dec.dropFront_dropFront (d : Dec) (j k : Nat) : (d.dropFront j).dropFront k = d.dropFront (j + k) := by
  simp only [Dec.dropFront, List.drop_drop]

/-! ## Two drains -/

/-- Two drains of a unit are one of the summed length, with the two responses put together. -/
def drainsCompose (drain : Word → Instr) (m n : Word) (s : State) : Prop :=
  ∃ (t u v : State) (x y : Response), exec (drain m) s = .next t ∧ exec (drain n) t = .next u ∧
    exec (drain (m + n)) s = .next v ∧ u.responses = s.responses ++ [x, y] ∧
    v = { u with responses := s.responses ++ [⟨.success, x.val + y.val, x.data ++ y.data⟩] }

/-- Two drains of `j` and `k` bytes compose if the one drain returns theirs together and leaves the same units. -/
theorem drainsCompose_of {drain : Word → Instr} {m n : Word} {s a b c : State} {j k l : Nat} {x y z : List Byte}
    (ht : exec (drain m) s = .next (a.answer .success j x))
    (hu : exec (drain n) (a.answer .success j x) = .next (b.answer .success k y))
    (hv : exec (drain (m + n)) s = .next (c.answer .success l z)) (hl : l = j + k) (hz : z = x ++ y)
    (hb : b = c.withResponses (s.answer .success j x).responses) (hc : c.responses = s.responses) :
    drainsCompose drain m n s := by
  subst hl hz hb
  refine ⟨_, _, _, ⟨.success, BitVec.ofNat 32 j, x⟩, ⟨.success, BitVec.ofNat 32 k, y⟩, ht, hu, hv, ?_, ?_⟩
  · exact List.append_assoc ..
  · simp only [State.answer, State.withResponses, BitVec.ofNat_add, hc]

section
variable {s : State} {m n : Word} (hmn : m.toNat + n.toNat < 2 ^ 32)
include hmn

/-- Of `r` bytes two drains take together what one of the summed length takes. -/
theorem min_toNat_add (r : Nat) : min (m + n).toNat r = min m.toNat r + min n.toNat (r - min m.toNat r) := by
  rw [BitVec.toNat_add_of_lt hmn]
  omega

theorem encDrains_compose (hp : s.enc.phase ≠ .idle) : drainsCompose .encDrain m n s := by
  have hl := s.enc.ready_dropFront (min m.toNat s.enc.ready) ▸ min_toNat_add hmn s.enc.ready
  refine drainsCompose_of (exec_encDrain_eq hp m) (exec_encDrain_eq (by exact hp) n) (exec_encDrain_eq hp (m + n)) hl
    ?_ ?_ rfl
  · rw [hl, ← Enc.front_append]
    rfl
  · rw [hl, ← Enc.dropFront_dropFront]
    rfl

theorem decDrains_compose (hp : s.dec.phase ≠ .idle) : drainsCompose .decDrain m n s := by
  have hl := s.dec.nout_dropFront (min m.toNat s.dec.nout) ▸ min_toNat_add hmn s.dec.nout
  refine drainsCompose_of (exec_decDrain_of_ne_idle hp m) (exec_decDrain_of_ne_idle (by exact hp) n)
    (exec_decDrain_of_ne_idle hp (m + n)) hl ?_ ?_ rfl
  · rw [hl, List.take_add]
    rfl
  · rw [hl, ← Dec.dropFront_dropFront]
    rfl

end

/-- Settles O47: each unit's two drains take from its front what the one drain takes. -/
theorem drainCutsDoNotMatter : Obligations.DrainCutsDoNotMatter := by
  intro s m n _ hmn
  exact ⟨encDrains_compose hmn, decDrains_compose hmn⟩

end Sys2Proof.Machine
end

section
/-! Decode and encode agree (30_encoding.md R60 to R62): the opcode map is one-to-one, the two fields of a command word put
together are the word, and a mnemonic's command has the operand and the data it was made of. -/

namespace Sys2Proof

/-! ## The command word -/

/-- R60: the opcode and the operand are the whole word. -/
theorem opcodeField_append_argField (cw : CmdWord) : opcodeField cw ++ argField cw = cw :=
  (BitVec.extractLsb'_append_extractLsb'_eq_extractLsb' rfl).trans BitVec.extractLsb'_eq_self

@[simp] theorem opcodeField_encode (i : Instr) : opcodeField (encode i).word = i.mnemonic.opcode :=
  BitVec.extractLsb'_append_eq_left

@[simp] theorem argField_encode (i : Instr) : argField (encode i).word = i.arg :=
  BitVec.extractLsb'_append_eq_right

/-! ## The opcode map -/

/-- R61: the rows of the opcode map are the opcodes of the 17 mnemonics. -/
theorem mnemonicOf_eq_some_iff {cw : CmdWord} {m : Mnemonic} : mnemonicOf cw = some m ↔ opcodeField cw = m.opcode := by
  constructor
  · intro h
    have hrows : ∀ row ∈ opcodeMap, row.1 = row.2.opcode := by decide
    obtain ⟨rows, rest, hmap, _⟩ := List.lookup_eq_some_iff.mp h
    exact hrows (opcodeField cw, m) (hmap ▸ List.mem_append_right rows (List.mem_cons_self ..))
  · intro h
    rw [mnemonicOf, h]
    cases m <;> rfl

theorem decode_eq_ok_iff {c : Command} {i : Instr} : decode c = .ok i ↔
    ∃ m : Mnemonic, opcodeField c.word = m.opcode ∧ c.data.length = m.extent (argField c.word) ∧
      m.toInstr (argField c.word) c.data = i := by
  simp only [← mnemonicOf_eq_some_iff, decode]
  cases mnemonicOf c.word with
  | none => simp
  | some m => by_cases hlen : c.data.length = m.extent (argField c.word) <;> simp [hlen]

/-! ## A command and its parts -/

/-- The commands whose operand R61 lists as ignored. -/
def operandIgnored : List Instr := [.sysReset, .sysStatus, .ftInit, .ftTotal, .encEnd, .encReady, .decReady]

theorem toInstr_mnemonic (i : Instr) : i.mnemonic.toInstr i.arg i.data = i := by
  cases i <;> rfl

/-- R67: a well-formed command's data are as many as its own word calls for. -/
theorem data_length_of_wellFormed {i : Instr} (h : i.wellFormed = true) : i.data.length = i.mnemonic.extent i.arg := by
  cases i with
  | ftFeed data | encFeed data | decFeed data => exact Laws.Extent.length_of_dataFits data h
  | _ => rfl

section
variable (m : Mnemonic) {arg : Word} {data : List Byte}

@[simp] theorem mnemonic_toInstr : (m.toInstr arg data).mnemonic = m := by
  cases m <;> rfl

variable (h : data.length = m.extent arg)
include h

theorem dataFits_of_length (hm : m.isFeed = true) : dataFits data = true := by
  rw [Mnemonic.extent, if_pos hm] at h
  exact decide_eq_true (h ▸ arg.isLt)

/-- R62: a feed's operand is below 2^32, so a command that has been decoded has an encoding. -/
theorem wellFormed_toInstr : (m.toInstr arg data).wellFormed = true := by
  have hfits := dataFits_of_length m h
  cases m with
  | ftFeed | encFeed | decFeed => exact hfits rfl
  | _ => rfl

theorem data_toInstr : (m.toInstr arg data).data = data := by
  cases m with
  | ftFeed | encFeed | decFeed => rfl
  | _ => exact (List.eq_nil_of_length_eq_zero h).symm

/-- R62: a command keeps every operand that its rule reads. -/
theorem arg_toInstr : m.toInstr arg data ∈ operandIgnored ∨ (m.toInstr arg data).arg = arg := by
  cases m with
  | sysReset | sysStatus | ftInit | ftTotal | encEnd | encReady | decReady =>
    exact .inl (by simp [Mnemonic.toInstr, operandIgnored])
  | ftFeed | encFeed | decFeed =>
    have hlen : data.length = arg.toNat := h
    exact .inr (by simp [Mnemonic.toInstr, Instr.arg, hlen])
  | ftCount | encInit | encDrain | encCodeof | decInit | decDrain | decCodeof => exact .inr rfl

end

/-! ## The statements -/

/-- Settles O2: the record's fields are the command's mnemonic, operand and data, of which the command is made again. -/
theorem decodeOfEncode : Obligations.DecodeOfEncode := by
  intro i hi
  refine decode_eq_ok_iff.mpr ⟨i.mnemonic, opcodeField_encode i, ?_, ?_⟩
  · rw [argField_encode]
    exact data_length_of_wellFormed hi
  · rw [argField_encode]
    exact toInstr_mnemonic i

/-- Settles O3: the encoder's word has the opcode of the record's mnemonic, and its operand unless that is ignored. -/
theorem encodeOfDecode : Obligations.EncodeOfDecode := by
  intro c i h
  obtain ⟨m, hop, hlen, rfl⟩ := decode_eq_ok_iff.mp h
  refine ⟨wellFormed_toInstr m hlen, data_toInstr m hlen, ?_, (arg_toInstr m hlen).imp_right fun harg => ?_⟩
  · exact (opcodeField_encode _).trans (by rw [mnemonic_toInstr, ← hop]; rfl)
  · calc (encode (m.toInstr (argField c.word) c.data)).word
      _ = m.opcode ++ argField c.word := congrArg₂ (· ++ ·) (congrArg _ (mnemonic_toInstr m)) harg
      _ = c.word := by rw [← hop, opcodeField_append_argField]

/-- Settles O1: eight fixed records, evaluated. -/
theorem writtenWordsDecode : Obligations.WrittenWordsDecode := by
  unfold Obligations.WrittenWordsDecode
  decide

end Sys2Proof
end

section
/-! The header of a table (30_encoding.md R71, R72): its first bytes, absorbed into an empty table, give every count
as far as its own bytes have come. -/

namespace Sys2Proof.Machine

/-- R72: a byte merged at position `h` is added to the counter `h div 4`, at the place `h mod 4`. -/
theorem countOf_mergeHeaderByte (count : CountTable) (h : Nat) (b : Byte) {s : Nat} (hs : s < 256) :
    countOf (mergeHeaderByte count h b) s =
      if h / 4 = s then countOf count s + b.toNat * 2 ^ (8 * (h % 4)) else countOf count s := by
  rw [countOf_eq _ s hs, countOf_eq _ s hs]
  simp only [mergeHeaderByte, Vector.getElem_setIfInBounds]
  split
  · next he => subst he; rw [countOf_eq _ _ hs]
  · rfl

theorem toNat_headerByte (count : CountTable) (h : Nat) :
    (headerByte count h).toNat = countOf count (h / 4) / 256 ^ (h % 4) % 256 := by
  rw [headerByte, BitVec.toNat_ofNat, Nat.mod_mod, Nat.pow_mul]

/-- What absorbing the first `n` header bytes of a table leaves in an empty table. -/
def absorbedBytes (count : CountTable) (n : Nat) : CountTable :=
  (headerBytes count 0 n).zipIdx.foldl (fun c (x : Byte × Nat) => mergeHeaderByte c x.2 x.1) (Vector.replicate 256 0)

theorem absorbedBytes_succ (count : CountTable) (n : Nat) :
    absorbedBytes count (n + 1) = mergeHeaderByte (absorbedBytes count n) n (headerByte count n) := by
  have hlen : (headerBytes count 0 n).length = n := by simp [headerBytes]
  have hone : headerBytes count n 1 = [headerByte count n] := rfl
  rw [absorbedBytes, ← headerBytes_append, Nat.zero_add, hone, List.zipIdx_append, List.foldl_append, hlen, Nat.zero_add]
  rfl

/-- R71: the bytes of a counter come least significant first, so its first bytes are its value modulo a power of 256. -/
theorem countOf_absorbedBytes (count : CountTable) (n : Nat) {s : Nat} (hs : s < 256) :
    countOf (absorbedBytes count n) s = countOf count s % 256 ^ min 4 (n - 4 * s) := by
  induction n with
  | zero =>
    rw [Nat.zero_sub, Nat.min_zero, Nat.pow_zero, Nat.mod_one]
    exact countOf_replicate_zero hs
  | succ n ih =>
    rw [absorbedBytes_succ, countOf_mergeHeaderByte _ _ _ hs, ih]
    split
    · next he =>
      have hmin : min 4 (n - 4 * s) = n % 4 ∧ min 4 (n + 1 - 4 * s) = n % 4 + 1 := by omega
      rw [hmin.1, hmin.2, toNat_headerByte, he, Nat.pow_mul, Nat.mod_pow_succ, Nat.mul_comm]
    · have hmin : min 4 (n + 1 - 4 * s) = min 4 (n - 4 * s) := by omega
      rw [hmin]

/-- Settles O48: after 1024 bytes every counter is its count modulo 256 ^ 4. -/
theorem headerReproducesTable : Obligations.HeaderReproducesTable := by
  intro count hcount
  refine Vector.ext fun s hs => ?_
  have habsorbed := countOf_absorbedBytes count 1024 hs
  have hmin : min 4 (1024 - 4 * s) = 4 := by omega
  rw [countOf_eq _ s hs, countOf_eq _ s hs, hmin, Nat.mod_eq_of_lt (b := 256 ^ 4) (hcount s hs)] at habsorbed
  exact habsorbed

end Sys2Proof.Machine
end

section
/-! An encoding session (30_encoding.md R70, R73, R78; 43_stream_encoder.md R137): what each of its commands leaves when it
is answered with Success, and the wire bytes that the last one drains. -/

namespace Sys2Proof.Machine

/-! ## Counting -/

/-- R91: a byte counted raises its own counter. -/
theorem countOf_countByte (count : CountTable) (a b : Byte) :
    countOf (countByte count a) b.toNat = countOf count b.toNat + if a = b then 1 else 0 := by
  rw [countOf_eq _ _ b.isLt, countOf_eq _ _ b.isLt]
  simp only [countByte, Vector.getElem_setIfInBounds, ← BitVec.toNat_inj]
  split
  · next he => rw [he, countOf_eq _ _ b.isLt]
  · rfl

theorem countOf_foldl_countByte (data : List Byte) (count : CountTable) (b : Byte) :
    countOf (data.foldl countByte count) b.toNat = countOf count b.toNat + data.count b := by
  induction data generalizing count with
  | nil => rfl
  | cons a as ih =>
    simp only [List.foldl_cons, ih, countOf_countByte, List.count_cons, beq_iff_eq]
    omega

/-- The table of a byte sequence (R91). -/
def tableOf (data : List Byte) : CountTable := data.foldl countByte (Vector.replicate 256 0)

theorem getElem_tableOf (data : List Byte) (b : Byte) : (tableOf data)[b.toNat]'b.isLt = data.count b := by
  rw [← countOf_eq _ _ b.isLt, tableOf, countOf_foldl_countByte, countOf_replicate_zero b.isLt, Nat.zero_add]

/-! ## Codes appended -/

/-- `e` with codes appended to its buffer, and whatever capacity that took (R131, R132). -/
def Enc.appended (e : Enc) (codes : List Bool) (e' : Enc) : Prop :=
  ∃ cap, e' = { e with cap := cap, buf := e.buf.append codes }

theorem Enc.appended.trans {e f g : Enc} {c d : List Bool} (h : e.appended c f) (h' : f.appended d g) :
    e.appended (c ++ d) g := by
  obtain ⟨_, rfl⟩ := h
  obtain ⟨cap, rfl⟩ := h'
  exact ⟨cap, by simp [BitBuf.append]⟩

theorem Enc.appended.tree_eq {e f : Enc} {c : List Bool} (h : e.appended c f) : f.tree = e.tree := by
  obtain ⟨_, rfl⟩ := h
  rfl

/-- R133: a symbol's step that goes on has appended the symbol's code. -/
theorem encSymbol_ok {sym : Nat} {s t : State} (h : encSymbol sym s = .ok t) :
    ∃ c, codeOf s.enc.tree sym = some c ∧ s.enc.appended c t.enc := by
  rcases encSymbol_cases sym s with ⟨_, e⟩ | ⟨c, hc, ⟨u, hr, e⟩ | ⟨_, _, _, e⟩ | ⟨_, _, e⟩⟩ <;> cases e.symm.trans h
  refine ⟨c, hc, ?_⟩
  rcases encReserve_cases c.length s with ⟨e, _⟩ | ⟨_, _, _, _, e⟩ | ⟨_, e⟩ | e | e <;> cases e.symm.trans hr
  · exact ⟨_, rfl⟩
  · exact ⟨_, rfl⟩

/-- R131: a symbol's step that fails leaves the encoder as it was. -/
theorem encSymbol_fail {sym : Nat} {s t : State} {status : Status} (h : encSymbol sym s = .fail status t) :
    t.enc = s.enc := by
  rcases encSymbol_cases sym s with ⟨_, e⟩ | ⟨c, _, ⟨_, _, e⟩ | ⟨status', u, hr, e⟩ | ⟨_, _, e⟩⟩ <;> cases e.symm.trans h
  rcases encReserve_cases c.length s with ⟨e, _⟩ | ⟨_, _, _, _, e⟩ | ⟨_, e⟩ | e | e <;> cases e.symm.trans hr
  · rfl
  · rfl

/-- R133: a feed appends the codes of the bytes it counts, all of them if it is answered with Success. -/
theorem encFeedLoop_appends {data : List Byte} {n : Nat} {s t : State} (h : encFeedLoop data n s = .next t) :
    ∃ (status : Status) (k : Nat) (codes : List Bool), t.responses = s.responses ++ [⟨status, BitVec.ofNat 32 (n + k), []⟩] ∧
      (status = .success → k = data.length) ∧ codesOf s.enc.tree (data.take k) = some codes ∧ s.enc.appended codes t.enc := by
  induction data generalizing n s with
  | nil =>
    cases h
    exact ⟨.success, 0, [], rfl, fun _ => rfl, rfl, s.enc.cap, rfl⟩
  | cons b bs ih =>
    have hkeep := encSymbol_leaves b.toNat s
    have hgo := encSymbol_goesOn b.toNat s
    rw [encFeedLoop] at h
    cases he : encSymbol b.toNat s with
    | ok u =>
      rw [he] at h hkeep
      obtain ⟨_, _, _, _, hresp⟩ := State.EncoderStep.frame hkeep
      obtain ⟨c, hc, hu⟩ := encSymbol_ok he
      obtain ⟨status, k, codes, hr, hk, hcodes, ht⟩ := ih h
      rw [hu.tree_eq] at hcodes
      refine ⟨status, k + 1, c ++ codes, ?_, fun hs => congrArg (· + 1) (hk hs), ?_, hu.trans ht⟩
      · rw [hr, hresp, Nat.add_assoc, Nat.add_comm 1]
      · simp only [List.take_succ_cons, codesOf, hc, hcodes]
    | fail status u =>
      rw [he] at h hkeep hgo
      obtain ⟨_, _, _, _, hresp⟩ := State.EncoderStep.frame hkeep
      have henc : u.enc = s.enc := encSymbol_fail he
      cases h
      exact ⟨status, 0, [], congrArg (· ++ _) hresp, fun hs => absurd hs hgo, rfl, s.enc.cap, henc⟩
    | stuck f =>
      rw [he] at h
      cases h

/-! ## Commands of a session answered with Success -/

section
variable {s t : State} {v : Word} {b : List Byte} (hr : t.responses = s.responses ++ [⟨.success, v, b⟩])
include hr

theorem ftFeed_success {data : List Byte} (h : exec (.ftFeed data) s = .next t) :
    t.ft.count = data.foldl countByte s.ft.count := by
  simp only [exec, execFtFeed] at h
  split at h <;> cases h
  · cases eq_of_answer_responses rfl hr
  · rfl

theorem encInit_success {hint : Word} (h : exec (.encInit hint) s = .next t) :
    t.enc = Enc.constructed s.ft.count hint.toNat := by
  cases (exec_encInit_of_legal (hint_legal_of_encInit (not_violates_of_success h hr))).symm.trans h
  rfl

theorem encFeed_success {data : List Byte} (h : exec (.encFeed data) s = .next t) :
    ∃ codes, codesOf s.enc.tree data = some codes ∧ s.enc.appended codes t.enc := by
  have hp : s.enc.phase = .active := not_not.mp (not_violates_of_success h hr)
  rw [exec_encFeed_of_active hp] at h
  obtain ⟨status, k, codes, hr', hk, hcodes, happ⟩ := encFeedLoop_appends h
  cases List.singleton_inj.mp (List.append_cancel_left (hr'.symm.trans hr))
  rw [hk rfl, List.take_length] at hcodes
  exact ⟨codes, hcodes, happ⟩

theorem encEnd_success (h : exec .encEnd s = .next t) :
    ∃ u eof, codeOf s.enc.tree 256 = some eof ∧ s.enc.appended eof u ∧ t.enc = { u with buf := u.buf.pad, phase := .ended } := by
  have hp : s.enc.phase = .active := not_not.mp (not_violates_of_success h hr)
  have hkeep := encSymbol_leaves 256 s
  have hgo := encSymbol_goesOn 256 s
  rw [exec_encEnd_of_active hp] at h
  cases he : encSymbol 256 s with
  | ok u =>
    rw [he] at h
    cases h
    obtain ⟨eof, heof, happ⟩ := encSymbol_ok he
    exact ⟨u.enc, eof, heof, happ, rfl⟩
  | fail status u =>
    rw [he] at h hkeep hgo
    obtain ⟨_, _, _, _, hresp⟩ := State.EncoderStep.frame hkeep
    cases h
    cases eq_of_answer_responses hresp hr
    exact absurd rfl hgo
  | stuck f =>
    rw [he] at h
    cases h

end

/-! ## Commands issued in order -/

theorem issueAll_cons {i : Instr} {is : List Instr} {s t : State} (h : issueAll (i :: is) s = .next t) :
    ∃ u, exec i s = .next u ∧ issueAll is u = .next t := by
  rw [issueAll] at h
  cases he : exec i s with
  | next u =>
    rw [he] at h
    exact ⟨u, rfl, h⟩
  | fault _ | refused _ =>
    rw [he] at h
    cases h

theorem issueAll_responses {is : List Instr} {s t : State} (h : issueAll is s = .next t) :
    ∃ rs, t.responses = s.responses ++ rs := by
  induction is generalizing s with
  | nil =>
    cases h
    exact ⟨[], (List.append_nil _).symm⟩
  | cons i is ih =>
    obtain ⟨u, hu, ht⟩ := issueAll_cons h
    obtain ⟨_, _, r, hr⟩ := exec_keeps_port hu
    obtain ⟨rs, hrs⟩ := ih ht
    exact ⟨r :: rs, by rw [hrs, hr, List.append_assoc]; rfl⟩

/-- The first of the commands issued is the one that returned the first of the responses. -/
theorem issueAll_cons_response {i : Instr} {is : List Instr} {s t : State} {r : Response} {rs : List Response}
    (hinv : s.Inv) (h : issueAll (i :: is) s = .next t) (hr : t.responses = s.responses ++ r :: rs) :
    ∃ u, exec i s = .next u ∧ u.Inv ∧ u.responses = s.responses ++ [r] ∧ issueAll is u = .next t ∧
      t.responses = u.responses ++ rs := by
  obtain ⟨u, hu, ht⟩ := issueAll_cons h
  obtain ⟨w, hw, hwinv⟩ := exec_inv i hinv
  cases hu.symm.trans hw
  obtain ⟨_, _, r', hr'⟩ := exec_keeps_port hu
  obtain ⟨rs', hrs⟩ := issueAll_responses ht
  rw [hrs, hr', List.append_assoc] at hr
  cases List.append_cancel_left hr
  exact ⟨u, hu, hwinv, hr', ht, hrs⟩

/-! ## The padded payload -/

theorem length_flatMap_byteBits (bytes : List Byte) : (bytes.flatMap byteBits).length = 8 * bytes.length := by
  simp [List.length_flatMap, Nat.mul_comm]

/-- R73: a payload padded to whole bytes has the bits' number of bytes, rounded up. -/
theorem length_of_flatMap_eq_zeroPad {bytes : List Byte} {bits : List Bool} (h : bytes.flatMap byteBits = zeroPad bits) :
    bytes.length = (bits.length + 7) / 8 := by
  have hlen := congrArg List.length h
  rw [length_flatMap_byteBits, zeroPad, List.length_append, List.length_replicate] at hlen
  omega

/-- R73, R132: bits packed from an empty buffer and padded are the bits of whole bytes. -/
theorem bits_pad_append_empty (bits : List Bool) :
    (BitBuf.empty.append bits).pad.bytes.flatMap byteBits = zeroPad bits := by
  obtain ⟨hbits, hpart⟩ := BitBuf.empty.append_bits bits Nat.one_pos
  obtain ⟨hpad, hnbits⟩ := BitBuf.pad_bits _ hpart
  have hempty : BitBuf.empty.bits = [] := rfl
  rw [hbits, hempty, List.nil_append, BitBuf.bits, hnbits] at hpad
  simpa using hpad

/-! ## The drain -/

/-- R24, D7: all that is ready fits one drain of the largest length. -/
theorem State.Inv.ready_lt {s : State} (h : s.Inv) (hp : s.enc.phase ≠ .idle) : s.enc.ready < 0xFFFFFFFF := by
  obtain ⟨_, _, _, hcap, hroom⟩ := h.enc.session hp
  obtain ⟨_, ⟨_, hmax⟩, _⟩ := h.params
  have hrem := s.enc.hdrRem.isLt
  rw [Enc.ready]
  omega

/-- R135, R136: with the header whole, all that is ready is the header and the buffer. -/
theorem Enc.front_ready_of_header {e : Enc} (h : e.hdrRem = 1024) :
    e.ready = 1024 + e.buf.bytes.length ∧ e.front e.ready = headerBytes e.count 0 1024 ++ e.buf.bytes := by
  have hrem : e.hdrRem.val = 1024 := congrArg Fin.val h
  have hready : e.ready = 1024 + e.buf.bytes.length := congrArg (· + e.buf.bytes.length) hrem
  refine ⟨hready, ?_⟩
  rw [Enc.front, Enc.drained, hready, hrem, Nat.min_eq_right (Nat.le_add_right ..), Nat.add_sub_cancel_left,
    List.take_length]

/-! ## The session -/

/-- The responses of a session whose six commands were answered with Success and full counts (R78). -/
def sessionResponses (counted data : List Byte) (drained : Word) (wire : List Byte) : List Response :=
  [⟨.success, 0, []⟩, ⟨.success, BitVec.ofNat 32 counted.length, []⟩, ⟨.success, 0, []⟩,
   ⟨.success, BitVec.ofNat 32 data.length, []⟩, ⟨.success, 0, []⟩, ⟨.success, drained, wire⟩]

section
variable {s t : State} {hint : Word} {counted data wire : List Byte} {drained : Word} (hinv : s.Inv)
  (h : issueAll (encodeSession hint counted data) s = .next t)
  (hr : t.responses = s.responses ++ sessionResponses counted data drained wire)
include hinv h hr

/-- R78: a session comes to its drain with the header whole and, in the buffer, the codes of the data and of EOF under the
table counted, padded. -/
theorem encodeSession_ended : ∃ (u : State) (codes eof : List Bool) (cap : Nat), u.Inv ∧
    exec (.encDrain 0xFFFFFFFF) u = .next t ∧ t.responses = u.responses ++ [⟨.success, drained, wire⟩] ∧
    codesOf (buildTree (tableOf counted)) data = some codes ∧ codeOf (buildTree (tableOf counted)) 256 = some eof ∧
    u.enc = { Enc.constructed (tableOf counted) cap with
      phase := .ended, buf := (BitBuf.empty.append (codes ++ eof)).pad } := by
  obtain ⟨s₁, h₁, hinv₁, hr₁, h, hr⟩ := issueAll_cons_response hinv h hr
  obtain ⟨s₂, h₂, hinv₂, hr₂, h, hr⟩ := issueAll_cons_response hinv₁ h hr
  obtain ⟨s₃, h₃, hinv₃, hr₃, h, hr⟩ := issueAll_cons_response hinv₂ h hr
  obtain ⟨s₄, h₄, hinv₄, hr₄, h, hr⟩ := issueAll_cons_response hinv₃ h hr
  obtain ⟨s₅, h₅, hinv₅, hr₅, h, hr⟩ := issueAll_cons_response hinv₄ h hr
  obtain ⟨_, hdrain, hnil⟩ := issueAll_cons h
  cases hnil
  have hcount : s₂.ft.count = tableOf counted := by
    rw [ftFeed_success hr₂ h₂]
    cases h₁
    rfl
  have henc : s₃.enc = Enc.constructed (tableOf counted) hint.toNat := by rw [encInit_success hr₃ h₃, hcount]
  obtain ⟨codes, hcodes, happ⟩ := encFeed_success hr₄ h₄
  obtain ⟨e, eof, heof, happ', hend⟩ := encEnd_success hr₅ h₅
  rw [happ.tree_eq, henc] at heof
  rw [henc] at hcodes happ
  obtain ⟨cap, he⟩ := happ.trans happ'
  exact ⟨s₅, codes, eof, cap, hinv₅, hdrain, hr, hcodes, heof, by rw [hend, he]; rfl⟩

/-- R70, R73: what a session drains. -/
theorem encodeSession_wire : ∃ (codes eof : List Bool) (bytes : List Byte),
    codesOf (buildTree (tableOf counted)) data = some codes ∧ codeOf (buildTree (tableOf counted)) 256 = some eof ∧
    bytes.flatMap byteBits = zeroPad (codes ++ eof) ∧ wire = headerBytes (tableOf counted) 0 1024 ++ bytes ∧
    drained = BitVec.ofNat 32 (1024 + bytes.length) ∧ 1024 + bytes.length < 2 ^ 32 := by
  obtain ⟨u, codes, eof, cap, hu, hdrain, hr, hcodes, heof, henc⟩ := encodeSession_ended hinv h hr
  have hp : u.enc.phase ≠ .idle := by rw [henc]; exact nofun
  have hlt := hu.ready_lt hp
  have hall : min (0xFFFFFFFF : Word).toNat u.enc.ready = u.enc.ready := Nat.min_eq_right hlt.le
  obtain ⟨hready, hfront⟩ := Enc.front_ready_of_header (e := u.enc) (by rw [henc]; rfl)
  rw [exec_encDrain_eq hp, hall, hfront, hready] at hdrain
  rw [hready] at hlt
  cases hdrain
  cases eq_of_answer_responses rfl hr
  refine ⟨codes, eof, u.enc.buf.bytes, hcodes, heof, ?_, by rw [henc]; rfl, rfl, hlt.trans (by decide)⟩
  rw [henc]
  exact bits_pad_append_empty _

end

/-- Settles O49: the session under the data's own table. -/
theorem encodeAllOutput : Obligations.EncodeAllOutput := by
  intro s t hint data wire k hinv _ hk h hr
  obtain ⟨codes, eof, bytes, hcodes, heof, hbits, hwire, hdrained, hlt⟩ := encodeSession_wire hinv h hr
  have hlen : k = 1024 + bytes.length := by
    have hmod := congrArg BitVec.toNat hdrained
    rwa [BitVec.toNat_ofNat, BitVec.toNat_ofNat, Nat.mod_eq_of_lt hk, Nat.mod_eq_of_lt hlt] at hmod
  rw [length_of_flatMap_eq_zeroPad hbits, List.length_append] at hlen
  exact ⟨tableOf data, codes, eof, bytes, getElem_tableOf data, hcodes, heof, hbits, hwire, hlen⟩

end Sys2Proof.Machine
end

section
/-! The FrequencyTable commands (40_frequency_table.md R90 to R93): what each leaves and answers. A table is its 256 counts,
so the order and the cuts of the bytes fed do not show in it. -/

namespace Sys2Proof.Machine

/-! ## The table after a feed -/

/-- FT after an FT_FEED that is answered with Success (R91). -/
def Ft.fed (f : Ft) (data : List Byte) : Ft where
  count := data.foldl countByte f.count
  total := f.total + data.length

/-- R91: each count grows by the occurrences of its byte. -/
theorem Ft.getElem_fed_count (f : Ft) (data : List Byte) (b : Byte) :
    (f.fed data).count[b.toNat]'b.isLt = f.count[b.toNat]'b.isLt + data.count b := by
  rw [← countOf_eq _ _ b.isLt, ← countOf_eq _ _ b.isLt]
  exact countOf_foldl_countByte data f.count b

/-- R12: the total stays 1 plus the sum of the counts. -/
theorem Ft.fed_total_eq {f : Ft} (data : List Byte) (h : f.total = tableTotal f.count) :
    (f.fed data).total = tableTotal (f.fed data).count := by
  calc (f.fed data).total
    _ = tableTotal f.count + data.length := congrArg (· + data.length) h
    _ = tableTotal (f.fed data).count := (tableTotal_foldl_countByte data f.count).symm

/-- The 256 bytes index the whole of a table. -/
theorem countTable_ext {count other : CountTable}
    (h : ∀ b : Byte, count[b.toNat]'b.isLt = other[b.toNat]'b.isLt) : count = other :=
  Vector.ext fun i hi => h (BitVec.ofFin ⟨i, hi⟩)

/-- R91: the order of the bytes does not affect the table. -/
theorem Ft.fed_perm (f : Ft) {data perm : List Byte} (h : data.Perm perm) : f.fed perm = f.fed data := by
  have hcount : (f.fed perm).count = (f.fed data).count :=
    countTable_ext fun b => by rw [Ft.getElem_fed_count, Ft.getElem_fed_count, h.count_eq]
  have htotal : (f.fed perm).total = (f.fed data).total := congrArg (f.total + ·) h.length_eq.symm
  exact congrArg₂ Ft.mk hcount htotal

/-- R91: cutting the bytes into two feeds does not affect the table. -/
theorem Ft.fed_fed (f : Ft) (a b : List Byte) : (f.fed a).fed b = f.fed (a ++ b) := by
  simp [Ft.fed, Nat.add_assoc]

/-! ## FT_FEED -/

section
variable {s : State} {data : List Byte}

theorem exec_ftFeed_of_overflow (h : s.params.cmax < s.ft.total + data.length) :
    exec (.ftFeed data) s = .next (s.answer .overflow 0 []) :=
  if_pos h

theorem exec_ftFeed_of_room (h : s.ft.total + data.length ≤ s.params.cmax) :
    exec (.ftFeed data) s = .next ({ s with ft := s.ft.fed data }.answer .success data.length []) :=
  if_neg (Nat.not_lt.mpr h)

end

/-! ## The statements -/

/-- Settles O21: the two branches of R91. -/
theorem ftFeedCounts : Obligations.FtFeedCounts := by
  intro s data _
  exact ⟨exec_ftFeed_of_overflow, fun hroom =>
    ⟨s.ft.fed data, rfl, s.ft.getElem_fed_count data, exec_ftFeed_of_room hroom, Ft.fed_total_eq data⟩⟩

/-- Settles O22: no part of the data overflows where the whole does not, and a table is its counts. -/
theorem ftFeedOrderAndCuts : Obligations.FtFeedOrderAndCuts := by
  rintro s _ perm a b hperm rfl hroom
  have hroomPerm : s.ft.total + perm.length ≤ s.params.cmax := hperm.length_eq ▸ hroom
  rw [List.length_append, ← Nat.add_assoc] at hroom
  exact ⟨_, _, _, _, exec_ftFeed_of_room (by rwa [List.length_append, ← Nat.add_assoc]),
    exec_ftFeed_of_room hroomPerm, exec_ftFeed_of_room (Nat.le_of_add_right_le hroom), exec_ftFeed_of_room hroom,
    s.ft.fed_perm hperm, s.ft.fed_fed a b⟩

/-- Settles O20: FT_INIT leaves the table of reset. -/
theorem ftInitClears : Obligations.FtInitClears := fun _ =>
  ⟨Ft.reset, fun _ hi => Vector.getElem_replicate hi, rfl, rfl⟩

/-- Settles O23: a legal symbol is read out of the table, where EOF's weight keeps its count below the total; any other
symbol breaks the contract. -/
theorem ftCountReads : Obligations.FtCountReads := by
  intro s symbol
  refine ⟨fun hsym => ⟨?reads, fun hinv => ?bound⟩, fun hsym => exec_of_violates hsym⟩
  case reads =>
    rw [exec_ftCount_of_legal (Nat.le_of_lt_succ hsym), countOf_eq _ _ hsym]
    rfl
  case bound =>
    calc s.ft.count[symbol.toNat] + 1
      _ = countOf s.ft.count symbol.toNat + 1 := by rw [countOf_eq _ _ hsym]
      _ ≤ tableTotal s.ft.count := countOf_succ_le_tableTotal _ _
      _ = s.ft.total := hinv.ft.total_eq.symm
      _ ≤ s.params.cmax := hinv.ft.total_le

/-- Settles O24: under R12's invariant the total is at most CMAX, which fits the response's word. -/
theorem ftTotalReads : Obligations.FtTotalReads := by
  refine fun s => ⟨rfl, fun ⟨hp, hft, _, _⟩ => ?_⟩
  obtain ⟨⟨_, hcmax⟩, _, _⟩ := hp
  have htotal : s.ft.total = 1 + s.ft.count.toList.sum := hft.total_eq
  have hle := hft.total_le
  exact ⟨htotal, by omega, hle, Nat.mod_eq_of_lt (by omega)⟩

end Sys2Proof.Machine
end

section
/-! The OrderedQueue (41_ordered_queue.md R100 to R103): QInsert is insertion by weight, so the queue is what insertion sort
makes of the entries present, newest first; and the entry that R103 takes out is the first of the least weight among them. -/

namespace Sys2Proof.Machine

/-! ## QInsert as the library's ordered insertion -/

/-- R100's order of the queue, on weights alone. -/
abbrev NoHeavier : QItem → QItem → Prop := QItem.weight ⁻¹'o (· ≤ ·)

theorem qInsert_eq_orderedInsert (x : QItem) (q : List QItem) : qInsert x q = q.orderedInsert NoHeavier x := by
  induction q with
  | nil => rfl
  | cons y q ih => rw [List.orderedInsert_cons, ← ih]; rfl

/-- Settles O25: the place is that of ordered insertion, which keeps a sorted list sorted. -/
theorem qInsertPlace : Obligations.QInsertPlace := by
  intro x q
  rw [qInsert_eq_orderedInsert]
  refine ⟨?place, fun hq => List.Pairwise.orderedInsert (r := NoHeavier) x q hq⟩
  case place => simpa [Order.Preimage] using List.orderedInsert_eq_take_drop NoHeavier x q

/-! ## The queue as a sorted collection -/

/-- The queue of R100 that stands for an unordered collection, newest entry first, of R103. -/
def queueOf (h : List (QItem × Nat)) : List QItem := (h.map Prod.fst).insertionSort NoHeavier

theorem queueOf_cons (e : QItem × Nat) (h : List (QItem × Nat)) : queueOf (e :: h) = qInsert e.1 (queueOf h) :=
  (qInsert_eq_orderedInsert e.1 (queueOf h)).symm

/-! ## The first entry of the least weight -/

/-- `m` stands in the collection, before it only heavier entries and behind it no lighter one. -/
inductive FirstLightest (m : QItem × Nat) : List (QItem × Nat) → Prop
  | here {h : List (QItem × Nat)} (hle : ∀ y ∈ h, m.1.weight ≤ y.1.weight) : FirstLightest m (m :: h)
  | there {y : QItem × Nat} {h : List (QItem × Nat)} (hlt : m.1.weight < y.1.weight) (hm : FirstLightest m h) :
      FirstLightest m (y :: h)

theorem FirstLightest.weight_le {m y : QItem × Nat} {h : List (QItem × Nat)} (hm : FirstLightest m h) (hy : y ∈ h) :
    m.1.weight ≤ y.1.weight := by
  induction hm with
  | here hle =>
    obtain rfl | hy := List.mem_cons.mp hy
    · exact le_rfl
    · exact hle y hy
  | there hlt _ ih =>
    obtain rfl | hy := List.mem_cons.mp hy
    · exact hlt.le
    · exact ih hy

/-- An entry no lighter than the first may be put in behind it. -/
theorem FirstLightest.cons_cons {m x y : QItem × Nat} {h : List (QItem × Nat)} (hm : FirstLightest m (x :: h))
    (hxy : x.1.weight ≤ y.1.weight) : FirstLightest m (x :: y :: h) := by
  cases hm with
  | here hle => exact .here (List.forall_mem_cons.mpr ⟨hxy, hle⟩)
  | there hlt hm => exact .there hlt (.there (hlt.trans_le hxy) hm)

/-- R101: the front of the queue is the first entry of the least weight. -/
theorem FirstLightest.queueOf_eq {m : QItem × Nat} {h : List (QItem × Nat)} (hm : FirstLightest m h) :
    queueOf h = m.1 :: queueOf (h.erase m) := by
  induction hm with
  | @here h hle =>
    rw [List.erase_cons_head]
    exact List.insertionSort_cons_of_forall_rel _ (List.forall_mem_map.mpr hle)
  | @there y h hlt _ ih =>
    have hne : y ≠ m := fun heq => hlt.ne (heq ▸ rfl)
    rw [queueOf_cons, ih, qInsert, if_neg hlt.not_ge, List.erase_cons_tail (by simpa using hne), queueOf_cons]

/-! ## Sequence numbers -/

/-- The sequence numbers of a collection fall from the front, from below the next one to be given out (R103). -/
def Stamped (n : Nat) (h : List (QItem × Nat)) : Prop := (n :: h.map Prod.snd).Pairwise (· > ·)

theorem Stamped.nil : Stamped 0 [] := List.pairwise_singleton _ 0

theorem Stamped.cons {n : Nat} {h : List (QItem × Nat)} (hs : Stamped n h) (x : QItem) : Stamped (n + 1) ((x, n) :: h) := by
  have hlt := (List.pairwise_cons.mp hs).1
  refine List.pairwise_cons.mpr ⟨fun k hk => ?_, hs⟩
  obtain rfl | hk := List.mem_cons.mp hk
  · exact Nat.lt_succ_self _
  · exact Nat.lt_succ_of_lt (hlt k hk)

theorem Stamped.sublist {n : Nat} {g h : List (QItem × Nat)} (hs : Stamped n h) (hg : g.Sublist h) : Stamped n g :=
  List.Pairwise.sublist ((hg.map Prod.snd).cons_cons n) hs

/-- Against an entry inserted later, a smaller weight alone lets an entry leave first: an equal one does not (R103). -/
theorem heapBefore_iff_of_older {x y : QItem × Nat} (hseq : y.2 < x.2) :
    heapBefore y x = true ↔ y.1.weight < x.1.weight := by
  simp [heapBefore, Nat.lt_asymm hseq]

/-- R103's choice is the first entry of the least weight, where the sequence numbers fall. -/
theorem heapMin_firstLightest (x : QItem × Nat) (h : List (QItem × Nat))
    (hs : (x :: h).Pairwise fun y z => z.2 < y.2) : FirstLightest (heapMin x h) (x :: h) := by
  induction h generalizing x with
  | nil => exact .here (by simp)
  | cons y h ih =>
    have hbefore := heapBefore_iff_of_older (List.rel_of_pairwise_cons hs List.mem_cons_self)
    rw [heapMin]
    split
    case isTrue hlt =>
      have hm := ih y hs.of_cons
      exact .there ((hm.weight_le List.mem_cons_self).trans_lt (hbefore.mp hlt)) hm
    case isFalse hge =>
      have hm := ih x (hs.sublist ((List.sublist_cons_self y h).cons_cons x))
      exact hm.cons_cons (not_lt.mp (mt hbefore.mpr hge))

/-! ## R103 -/

/-- The simulation: an ordered sequence and the collection that it stands for remove alike. -/
theorem qRun_queueOf (ops : List QOp) (n : Nat) (h : List (QItem × Nat)) (hs : Stamped n h) :
    qRun (queueOf h) ops = heapRun n h ops := by
  induction ops generalizing n h with
  | nil => simp [qRun, heapRun]
  | cons op ops ih =>
    match op, h with
    | .insert x, h => rw [qRun, heapRun, ← ih _ _ (hs.cons x), queueOf_cons]
    | .removeMin, [] => rfl
    | .removeMin, e :: h =>
      have hmin := heapMin_firstLightest e h (List.pairwise_map.mp hs.of_cons)
      rw [hmin.queueOf_eq, heapRun, ← ih _ _ (hs.sublist List.erase_sublist)]
      rfl

/-- Settles O26: the simulation from the empty queue. -/
theorem queueFormulationsAgree : Obligations.QueueFormulationsAgree := fun ops => qRun_queueOf ops 0 [] .nil

end Sys2Proof.Machine
end

section
/-! Sums over the leaves of a built tree (42_huffman_tree.md R115): a node's code is its parent's code and one bit more, and
every node but the root is the child of one internal node, so a quantity that the internal nodes split between their
children has on the leaves the sum that it has at the root. -/

namespace Sys2Proof.Machine

/-! ## The code of any node -/

/-- The bits that a climb is given stand behind those that it finds. -/
theorem climb_append (t : Tree) (fuel n : Nat) (a b : List Bool) :
    climb t fuel n (a ++ b) = (climb t fuel n a).map (· ++ b) := by
  induction fuel generalizing n a with
  | zero => by_cases h : n = 512 <;> simp [climb, h]
  | succ fuel ih =>
    by_cases h : n = 512
    · simp [climb, h]
    · simp [climb, h, ← ih]

/-- A climb that ends within its fuel ends alike with more. -/
theorem climb_succ_fuel {t : Tree} {fuel n : Nat} {bits c : List Bool} (h : climb t fuel n bits = some c) :
    climb t (fuel + 1) n bits = some c := by
  induction fuel generalizing n bits with
  | zero =>
    simp only [climb, Option.ite_none_right_eq_some] at h
    obtain ⟨hroot, h⟩ := h
    simp [climb, hroot, h]
  | succ fuel ih =>
    rw [climb] at h ⊢
    split at h
    · next hroot => rw [if_pos hroot, h]
    · next hroot => rw [if_neg hroot, ih h]

theorem codeOf_root (t : Tree) : codeOf t 512 = some [] := by simp [codeOf, climb]

section
variable {t : Tree} (ht : t.Linked)
include ht

/-- The climb of R114 finds the path to an internal node as well, of at most 255 bits. -/
theorem Tree.Linked.exists_codeOf_internal {n : Nat} (hlo : 257 ≤ n) (hhi : n ≤ 512) :
    ∃ c, climb t 255 n [] = some c ∧ codeOf t n = some c ∧ c.length ≤ 255 := by
  obtain ⟨c, hc, hlen⟩ := climb_internal ht (fuel := 255) [] hlo hhi (by omega)
  rw [List.append_nil] at hc
  exact ⟨c, hc, climb_succ_fuel hc, hlen⟩

/-- A node's code is its parent's, and the bit of the branch from there. -/
theorem Tree.Linked.codeOf_parentOf {n : Nat} (hn : n < 512) :
    ∃ c, codeOf t (t.parentOf n) = some c ∧ codeOf t n = some (c ++ [t.rightOf (t.parentOf n) == n]) := by
  obtain ⟨_, hlo, hhi, _⟩ := ht.parent n hn
  obtain ⟨c, hclimb, hc, _⟩ := ht.exists_codeOf_internal hlo hhi
  refine ⟨c, hc, ?_⟩
  rw [codeOf, climb, if_neg (by omega), ← List.nil_append [_], climb_append, hclimb]
  rfl

/-- R114: the left branch adds a 0 to an internal node's code, the right branch a 1. -/
theorem Tree.Linked.codeOf_children {n : Nat} {c : List Bool} (hlo : 257 ≤ n) (hhi : n ≤ 512)
    (hc : codeOf t n = some c) :
    codeOf t (t.leftOf n) = some (c ++ [false]) ∧ codeOf t (t.rightOf n) = some (c ++ [true]) := by
  obtain ⟨hl, hr, hne, hpl, hpr⟩ := ht.children n hlo hhi
  obtain ⟨cl, hcl, hleft⟩ := ht.codeOf_parentOf (n := t.leftOf n) (by omega)
  obtain ⟨cr, hcr, hright⟩ := ht.codeOf_parentOf (n := t.rightOf n) (by omega)
  rw [hpl] at hcl hleft
  rw [hpr] at hcr hright
  cases hc.symm.trans hcl
  cases hc.symm.trans hcr
  rw [beq_false_of_ne hne.symm] at hleft
  rw [beq_self_eq_true] at hright
  exact ⟨hleft, hright⟩

end

/-! ## Depth -/

/-- The depth of a node: the length of its code (R114). -/
def Tree.depth (t : Tree) (n : Nat) : Nat := ((codeOf t n).getD []).length

theorem Tree.depth_eq_length {t : Tree} {n : Nat} {c : List Bool} (h : codeOf t n = some c) : t.depth n = c.length := by
  rw [depth, h, Option.getD_some]

theorem Tree.depth_root (t : Tree) : t.depth 512 = 0 := Tree.depth_eq_length (codeOf_root t)

section
variable {t : Tree} (ht : t.Linked) {n : Nat}
include ht

theorem Tree.Linked.depth_parentOf (hn : n < 512) : t.depth n = t.depth (t.parentOf n) + 1 := by
  obtain ⟨c, hp, hc⟩ := ht.codeOf_parentOf hn
  rw [Tree.depth_eq_length hp, Tree.depth_eq_length hc, List.length_append, List.length_singleton]

theorem Tree.Linked.depth_internal_le (hlo : 257 ≤ n) (hhi : n ≤ 512) : t.depth n ≤ 255 := by
  obtain ⟨c, _, hc, hlen⟩ := ht.exists_codeOf_internal hlo hhi
  rwa [Tree.depth_eq_length hc]

theorem Tree.Linked.depth_children (hlo : 257 ≤ n) (hhi : n ≤ 512) :
    t.depth (t.leftOf n) = t.depth n + 1 ∧ t.depth (t.rightOf n) = t.depth n + 1 := by
  obtain ⟨c, _, hc, _⟩ := ht.exists_codeOf_internal hlo hhi
  obtain ⟨hl, hr⟩ := ht.codeOf_children hlo hhi hc
  simp only [Tree.depth_eq_length hc, Tree.depth_eq_length hl, Tree.depth_eq_length hr, List.length_append,
    List.length_singleton, and_self]

end

/-! ## Sums over the nodes -/

/-- Every node but the root is the child of one internal node, so the children's sum is that of all nodes but the root. -/
theorem sum_children (count : CountTable) (f : Nat → Nat) :
    ((List.range 256).map fun j =>
      f ((buildTree count).leftOf (257 + j)) + f ((buildTree count).rightOf (257 + j))).sum =
      ((List.range 512).map f).sum := by
  have hpasses : (List.range 256).map (mergeAt (mergesOf count)) = mergesOf count :=
    List.ext_getElem (by simp) fun j _ hj => by simp [mergeAt_eq_getElem hj]
  calc
    _ = ((List.range 256).map ((fun m => (m.children.map f).sum) ∘ mergeAt (mergesOf count))).sum := by
      refine congrArg List.sum (List.map_congr_left fun j hj => ?_)
      have hj := List.mem_range.mp hj
      simp [leftOf_buildTree count hj, rightOf_buildTree count hj, Merge.children]
    _ = ((mergesOf count).map fun m => (m.children.map f).sum).sum := by rw [← List.map_map, hpasses]
    _ = (((mergesOf count).flatMap Merge.children).map f).sum := by
      rw [List.map_flatMap, List.flatMap, List.sum_flatten, List.map_map]
      rfl
    _ = ((List.range 512).map f).sum := ((children_mergesOf_perm count).map f).sum_eq

/-- A quantity `f` of which every internal node's children have `e` more than the node itself has on the 257 leaves the sum
of its value at the root and of `e` over the internal nodes. -/
theorem sum_leaves {count : CountTable} {f e : Nat → Nat}
    (h : ∀ n, 257 ≤ n → n ≤ 512 → f ((buildTree count).leftOf n) + f ((buildTree count).rightOf n) = f n + e n) :
    ((List.range 257).map f).sum = f 512 + ((List.range 256).map fun j => e (257 + j)).sum := by
  have hchildren : ((List.range 512).map f).sum =
      ((List.range 256).map fun j => f (257 + j)).sum + ((List.range 256).map fun j => e (257 + j)).sum := by
    rw [← sum_children count f, ← List.sum_map_add]
    refine congrArg List.sum (List.map_congr_left fun j hj => h _ (Nat.le_add_right ..) ?_)
    have := List.mem_range.mp hj
    omega
  have hinternal : ((List.range 256).map fun j => f (257 + j)).sum =
      ((List.range 255).map fun j => f (257 + j)).sum + f 512 := by
    rw [List.range_succ, List.map_append, List.sum_append, List.map_singleton, List.sum_singleton]
  have hnodes : ((List.range 512).map f).sum =
      ((List.range 257).map f).sum + ((List.range 255).map fun j => f (257 + j)).sum := by
    rw [show 512 = 257 + 255 from rfl, List.range_add, List.map_append, List.sum_append, List.map_map]
    rfl
  omega

/-! ## The statements -/

/-- Settles O31: an internal node at depth `d` shares its `2 ^ (256 - d)` out between its children. -/
theorem kraftEquality : Obligations.KraftEquality := by
  intro count
  have hshare {n : Nat} (hlo : 257 ≤ n) (hhi : n ≤ 512) :
      2 ^ (256 - (buildTree count).depth ((buildTree count).leftOf n)) +
        2 ^ (256 - (buildTree count).depth ((buildTree count).rightOf n)) = 2 ^ (256 - (buildTree count).depth n) + 0 := by
    obtain ⟨hl, hr⟩ := (buildTree_linked count).depth_children hlo hhi
    have hle := (buildTree_linked count).depth_internal_le hlo hhi
    rw [hl, hr, ← Nat.two_mul, ← Nat.pow_succ', ← Nat.succ_sub (by omega), Nat.succ_sub_succ, Nat.add_zero]
  calc
    _ = 2 ^ (256 - (buildTree count).depth 512) + ((List.range 256).map fun _ => 0).sum :=
      sum_leaves (f := fun n => 2 ^ (256 - (buildTree count).depth n)) (e := fun _ => 0) fun _ => hshare
    _ = 2 ^ 256 := by rw [Tree.depth_root, List.sum_map_zero, Nat.sub_zero, Nat.add_zero]

/-- Settles O32: an internal node's children, each a level further down, weigh together what it weighs. -/
theorem payloadLengthIsInternalWeight : Obligations.PayloadLengthIsInternalWeight := by
  intro count
  obtain ⟨hsum, _⟩ := weightOf_buildTree count
  have hlevel {n : Nat} (hlo : 257 ≤ n) (hhi : n ≤ 512) :
      (buildTree count).weightOf ((buildTree count).leftOf n) * (buildTree count).depth ((buildTree count).leftOf n) +
        (buildTree count).weightOf ((buildTree count).rightOf n) * (buildTree count).depth ((buildTree count).rightOf n) =
      (buildTree count).weightOf n * (buildTree count).depth n + (buildTree count).weightOf n := by
    obtain ⟨hl, hr⟩ := (buildTree_linked count).depth_children hlo hhi
    rw [hl, hr, ← Nat.add_mul, ← hsum n hlo hhi, Nat.mul_succ]
  calc
    _ = ((List.range 257).map fun s => (buildTree count).weightOf s * (buildTree count).depth s).sum :=
      congrArg List.sum (List.map_congr_left fun s hs => by
        rw [weightOf_buildTree_leaf count (Nat.le_of_lt_succ (List.mem_range.mp hs)), Tree.depth])
    _ = (buildTree count).weightOf 512 * (buildTree count).depth 512 +
        ((List.range 256).map fun j => (buildTree count).weightOf (257 + j)).sum := sum_leaves fun _ => hlevel
    _ = ((List.range 256).map fun j => (buildTree count).weightOf (257 + j)).sum := by
      rw [Tree.depth_root, Nat.mul_zero, Nat.zero_add]

end Sys2Proof.Machine
end

section
/-! The lengths of the codes by weight (42_huffman_tree.md R115(b)): BuildTree takes the nodes out in ascending order of
weight, so of two nodes the heavier one is taken out no earlier, and stands no deeper in the tree. -/

namespace Sys2Proof.Machine

/-! ## The order of removal -/

/-- `w` gives every node queued, and every node that the passes create, its weight. -/
structure Weighs (w : Nat → Nat) (q : List QItem) (next : Nat) (ms : List Merge) : Prop where
  queued : ∀ x ∈ q, w x.node = x.weight
  created : ∀ j m, ms[j]? = some m → w (next + j) = m.weight

theorem Weighs.pass {w : Nat → Nat} {a b : QItem} {q : List QItem} {next l r : Nat} {ms : List Merge}
    (h : Weighs w (a :: b :: q) next ({ left := l, right := r, weight := a.weight + b.weight } :: ms)) :
    Weighs w (qInsert { node := next, weight := a.weight + b.weight } q) (next + 1) ms := by
  obtain ⟨hq, hms⟩ := h
  refine ⟨fun x hx => ?_, fun j m hj => ?_⟩
  · rcases mem_qInsert.mp hx with rfl | hx
    · exact hms 0 _ rfl
    · exact hq x (by simp [hx])
  · rw [Nat.add_right_comm]
    exact hms (j + 1) m hj

theorem buildTree_weighs (count : CountTable) :
    Weighs (buildTree count).weightOf (leafQueue count) 257 (mergesOf count) := by
  refine ⟨fun x hx => ?_, fun j m hj => ?_⟩
  · obtain ⟨s, hs, rfl⟩ := List.mem_map.mp ((leafQueue_perm count).mem_iff.mp hx)
    exact weightOf_buildTree_leaf count (Nat.le_of_lt_succ (List.mem_range.mp hs))
  · have hlt : j < 256 := by simpa using (List.getElem?_eq_some_iff.mp hj).1
    rw [weightOf_buildTree_internal count hlt, Option.some.inj ((getElem?_mergesOf count hlt).symm.trans hj)]

section
variable {w : Nat → Nat} {q : List QItem} {next : Nat} {ms : List Merge} {root : QItem}

/-- What no queued weight is below, no weight taken out later is below. -/
theorem Merges.le_weight_children (h : Merges q next ms root) (hw : Weighs w q next ms) {k : Nat}
    (hk : ∀ x ∈ q, k ≤ x.weight) {m : Merge} (hm : m ∈ ms) : ∀ n ∈ m.children, k ≤ w n := by
  induction h with
  | done x next => cases hm
  | @pass a b q next ms root _ ih =>
    have ha : k ≤ a.weight := hk a (by simp)
    have hb : k ≤ b.weight := hk b (by simp)
    rcases List.mem_cons.mp hm with rfl | hm
    · simpa [Merge.children, hw.queued a, hw.queued b] using ⟨ha, hb⟩
    · refine ih hw.pass (fun x hx => ?_) hm
      rcases mem_qInsert.mp hx with rfl | hx
      · exact Nat.le_add_right_of_le ha
      · exact hk x (by simp [hx])

/-- From a queue in ascending order the passes take the nodes out in ascending order (R100, R101). -/
theorem Merges.children_ascending (h : Merges q next ms root) (hw : Weighs w q next ms)
    (hq : q.Pairwise fun x y => x.weight ≤ y.weight) :
    ms.Pairwise fun m m' => ∀ n ∈ m.children, ∀ n' ∈ m'.children, w n ≤ w n' := by
  induction h with
  | done x next => exact .nil
  | @pass a b q next ms root rest ih =>
    simp only [List.pairwise_cons] at hq
    obtain ⟨ha, hb, hq⟩ := hq
    have hab : a.weight ≤ b.weight := ha b (by simp)
    refine List.pairwise_cons.mpr ⟨fun m' hm' n hn n' hn' => ?_, ih hw.pass ((qInsertPlace _ q).2 hq)⟩
    have hlow : b.weight ≤ w n' := rest.le_weight_children hw.pass (fun x hx => by
      rcases mem_qInsert.mp hx with rfl | hx
      · exact Nat.le_add_left ..
      · exact hb x hx) hm' n' hn'
    have hn : n = a.node ∨ n = b.node := by simpa [Merge.children] using hn
    rcases hn with rfl | rfl
    · rw [hw.queued a (by simp)]
      exact hab.trans hlow
    · rwa [hw.queued b (by simp)]

end

theorem insertLeaves_sorted (ws : List Nat) (s : Nat) {q : List QItem} (hq : q.Pairwise fun x y => x.weight ≤ y.weight) :
    (insertLeaves ws s q).Pairwise fun x y => x.weight ≤ y.weight := by
  induction ws generalizing s q with
  | nil => exact hq
  | cons w ws ih => exact ih (s + 1) ((qInsertPlace _ q).2 hq)

/-- Of two nodes the one whose parent was created first is no heavier. -/
theorem weightOf_le_of_parentOf_lt (count : CountTable) {n m : Nat} (hn : n < 512) (hm : m < 512)
    (h : (buildTree count).parentOf n < (buildTree count).parentOf m) :
    (buildTree count).weightOf n ≤ (buildTree count).weightOf m := by
  obtain ⟨_, hmerges, _⟩ := mergesOf_merges count
  have hasc := List.pairwise_iff_getElem.mp
    (hmerges.children_ascending (buildTree_weighs count) (insertLeaves_sorted _ 0 .nil))
  obtain ⟨i, hi, hin⟩ := exists_mem_children count hn
  obtain ⟨j, hj, hjm⟩ := exists_mem_children count hm
  have hi' : i < (mergesOf count).length := by simpa using hi
  have hj' : j < (mergesOf count).length := by simpa using hj
  rw [parentOf_buildTree count hn, parentOf_buildTree count hm, parentIn_of_mem_children count hi hin,
    parentIn_of_mem_children count hj hjm] at h
  rw [mergeAt_eq_getElem hi'] at hin
  rw [mergeAt_eq_getElem hj'] at hjm
  exact hasc i j hi' hj' (by omega) n hin m hjm

/-! ## The depth of a heavier node -/

/-- Every node but the root has a sibling, with which it makes up its parent's weight. -/
theorem exists_sibling (count : CountTable) {n : Nat} (hn : n < 512) :
    ∃ n' < 512, (buildTree count).parentOf n' = (buildTree count).parentOf n ∧
      (buildTree count).weightOf ((buildTree count).parentOf n) =
        (buildTree count).weightOf n + (buildTree count).weightOf n' := by
  obtain ⟨hsum, _⟩ := weightOf_buildTree count
  obtain ⟨_, hlo, hhi, hside⟩ := (buildTree_linked count).parent n hn
  obtain ⟨hl, hr, _, hpl, hpr⟩ := (buildTree_linked count).children _ hlo hhi
  have hsum := hsum _ hlo hhi
  rcases hside with e | e <;> rw [e] at hsum
  · exact ⟨_, by omega, hpr, hsum⟩
  · exact ⟨_, by omega, hpl, hsum.trans (Nat.add_comm ..)⟩

/-- Where the parent of the lighter of two nodes was created first, it is the lighter parent: neither of the nodes in it
outweighs either of the nodes in the other. -/
theorem weightOf_parentOf_lt (count : CountTable) {n m : Nat} (hn : n < 512) (hm : m < 512)
    (hw : (buildTree count).weightOf n < (buildTree count).weightOf m)
    (h : (buildTree count).parentOf n < (buildTree count).parentOf m) :
    (buildTree count).weightOf ((buildTree count).parentOf n) <
      (buildTree count).weightOf ((buildTree count).parentOf m) := by
  obtain ⟨n', hn', hpn, hsumn⟩ := exists_sibling count hn
  obtain ⟨m', hm', hpm, hsumm⟩ := exists_sibling count hm
  have hsibling : (buildTree count).weightOf n' ≤ (buildTree count).weightOf m' :=
    weightOf_le_of_parentOf_lt count hn' hm' (by rwa [hpn, hpm])
  omega

/-- The heavier of two nodes stands no deeper. -/
theorem depth_le_of_weightOf_lt (count : CountTable) {n m : Nat} (hn : n ≤ 512) (hm : m ≤ 512)
    (hw : (buildTree count).weightOf n < (buildTree count).weightOf m) :
    (buildTree count).depth m ≤ (buildTree count).depth n := by
  have ht := buildTree_linked count
  induction hd : (buildTree count).depth m generalizing n m with
  | zero => exact Nat.zero_le _
  | succ d ih =>
    have hmroot : m ≠ 512 := by
      rintro rfl
      rw [Tree.depth_root] at hd
      cases hd
    have hnroot : n ≠ 512 := by
      rintro rfl
      rw [(weightOf_buildTree count).2] at hw
      exact absurd (weightOf_buildTree_le_tableTotal count m) (Nat.not_le.mpr hw)
    have hm' : m < 512 := by omega
    have hn' : n < 512 := by omega
    obtain ⟨_, _, hpm, _⟩ := ht.parent m hm'
    obtain ⟨_, _, hpn, _⟩ := ht.parent n hn'
    have hdm := ht.depth_parentOf hm'
    have hdn := ht.depth_parentOf hn'
    rcases Nat.lt_trichotomy ((buildTree count).parentOf n) ((buildTree count).parentOf m) with hlt | heq | hgt
    · have := ih hpn hpm (weightOf_parentOf_lt count hn' hm' hw hlt) (by omega)
      omega
    · rw [heq] at hdn
      omega
    · exact absurd (weightOf_le_of_parentOf_lt count hm' hn' hgt) (Nat.not_le.mpr hw)

/-- Settles O30: a leaf weighs its count, and its depth is its code's length. -/
theorem monotonicCodeLength : Obligations.MonotonicCodeLength := by
  intro count s u c d hs hu hc hd hlt
  rw [← weightOf_buildTree_leaf count hu, ← weightOf_buildTree_leaf count hs] at hlt
  rw [← Tree.depth_eq_length hc, ← Tree.depth_eq_length hd]
  exact depth_le_of_weightOf_lt count (by omega) (by omega) hlt

end Sys2Proof.Machine
end

section
/-! DecodeStep undoes CodeOf (42_huffman_tree.md R116, R117): the cursor follows the path that a code is, and the path meets
no leaf before its end. -/

namespace Sys2Proof.Machine

/-! ## One bit -/

section
variable {t : Tree} (ht : t.Linked) {n m : Nat} {bit : Bool}

/-- R116: the cursor moves to the child on the side of the bit, unless that is a leaf. -/
theorem decodeStep_of_child (hn : n ≤ 512) (h : t.child n bit = some m) :
    decodeStep t n bit = some (if m ≤ 256 then (512, some m) else (m, none)) := by
  rw [Tree.child, Option.ite_none_right_eq_some, Option.some.injEq] at h
  obtain ⟨hlo, rfl⟩ := h
  rw [decodeStep, if_pos ⟨hlo, hn⟩]
  exact (apply_ite some _ _ _).symm

include ht in
/-- R18: a child stands before its parent. -/
theorem Tree.Linked.child_lt (hn : n ≤ 512) (h : t.child n bit = some m) : m < n := by
  rw [Tree.child, Option.ite_none_right_eq_some, Option.some.injEq] at h
  obtain ⟨hlo, rfl⟩ := h
  obtain ⟨hl, hr, _⟩ := ht.children n hlo hn
  cases bit
  · exact hl
  · exact hr

end

/-- A bit walked that yields no symbol: the cursor after it. -/
abbrev Tree.silentStep (t : Tree) (n : Nat) (bit : Bool) : Option Nat :=
  (decodeStep t n bit).bind fun r => if r.2 = none then some r.1 else none

section
variable {t : Tree} (ht : t.Linked)
include ht

/-- R117: the bits of a path to an internal node yield no symbol and move the cursor there. -/
theorem Tree.Linked.foldlM_silentStep {n m : Nat} {path : List Bool} (hn : n ≤ 512) (hm : 257 ≤ m)
    (h : t.descend n path = some m) : path.foldlM t.silentStep n = some m := by
  induction path generalizing n with
  | nil => exact h
  | cons bit path ih =>
    rw [Tree.descend_cons, Option.bind_eq_some_iff] at h
    obtain ⟨k, hk, h⟩ := h
    have hlt := ht.child_lt hn hk
    have hinternal : ¬ k ≤ 256 := by
      intro hleaf
      rw [Tree.descend_leaf hleaf h] at h
      cases h
      omega
    rw [List.foldlM_cons, Tree.silentStep, decodeStep_of_child hn hk, if_neg hinternal]
    exact ih (by omega) h

/-- R117: the bits of a symbol's code yield the symbol at the last one, the cursor back at the root, and none before. -/
theorem Tree.Linked.decodeStep_codeOf {s : Nat} (hs : s ≤ 256) :
    ∃ (c : List Bool) (bit : Bool) (cursor : Nat), codeOf t s = some (c ++ [bit]) ∧
      c.foldlM t.silentStep 512 = some cursor ∧ decodeStep t cursor bit = some (512, some s) := by
  obtain ⟨_, hlo, hhi, _⟩ := ht.parent s (by omega)
  obtain ⟨c, hparent, hc⟩ := ht.codeOf_parentOf (n := s) (by omega)
  refine ⟨c, _, _, hc, ht.foldlM_silentStep (by omega) hlo (climb_descend ht hhi hparent), ?_⟩
  rw [decodeStep_of_child hhi (ht.child_parentOf (by omega)), if_pos hs]

end

/-! ## A sequence of bits -/

/-- What a bit sequence decodes to with the literals `bs` and `k` bits before it. -/
def Decoded.after (bs : List Byte) (k : Nat) (r : Decoded) : Decoded :=
  { r with symbols := bs ++ r.symbols, used := k + r.used }

theorem Decoded.after_after (as bs : List Byte) (j k : Nat) (r : Decoded) :
    (r.after bs k).after as j = r.after (as ++ bs) (j + k) := by
  simp [Decoded.after, Nat.add_assoc]

section
variable {t : Tree} {n m s : Nat} {bit : Bool} (bits : List Bool)

theorem decodeBits_silent (h : decodeStep t n bit = some (m, none)) :
    decodeBits t n (bit :: bits) = (decodeBits t m bits).after [] 1 := by
  simp [decodeBits, h, Decoded.after, Nat.add_comm]

theorem decodeBits_literal (h : decodeStep t n bit = some (m, some s)) (hs : s ≠ 256) :
    decodeBits t n (bit :: bits) = (decodeBits t m bits).after [BitVec.ofNat 8 s] 1 := by
  simp [decodeBits, h, hs, Decoded.after, Nat.add_comm]

theorem decodeBits_eof (h : decodeStep t n bit = some (m, some 256)) :
    decodeBits t n (bit :: bits) = { symbols := [], cursor := m, eof := true, used := 1 } := by
  simp [decodeBits, h]

theorem silentStep_eq_some : t.silentStep n bit = some m ↔ decodeStep t n bit = some (m, none) := by
  simp [Tree.silentStep, Option.bind_eq_some_iff]

/-- Bits that yield no symbol only move the cursor. -/
theorem decodeBits_silent_append {path : List Bool} (h : path.foldlM t.silentStep n = some m) :
    decodeBits t n (path ++ bits) = (decodeBits t m bits).after [] path.length := by
  induction path generalizing n with
  | nil =>
    cases h
    simp [Decoded.after]
  | cons bit path ih =>
    rw [List.foldlM_cons, Option.bind_eq_bind, Option.bind_eq_some_iff] at h
    obtain ⟨k, hk, h⟩ := h
    rw [List.cons_append, decodeBits_silent _ (silentStep_eq_some.mp hk), ih h, Decoded.after_after, List.nil_append,
      List.length_cons, Nat.add_comm]

end

/-! ## A sequence of codes -/

section
variable {t : Tree} (ht : t.Linked) (bits : List Bool)
include ht

/-- R117: a literal's code decodes to the literal, and the bits after it from the root. -/
theorem Tree.Linked.decodeBits_codeOf {b : Byte} {c : List Bool} (hc : codeOf t b.toNat = some c) :
    decodeBits t 512 (c ++ bits) = (decodeBits t 512 bits).after [b] c.length := by
  have hlt := b.isLt
  obtain ⟨path, bit, cursor, hcode, hpath, hlast⟩ := ht.decodeStep_codeOf (s := b.toNat) (by omega)
  cases hc.symm.trans hcode
  rw [List.append_assoc, decodeBits_silent_append _ hpath, List.singleton_append,
    decodeBits_literal bits hlast (by omega), Decoded.after_after, BitVec.ofNat_toNat, BitVec.setWidth_eq]
  simp

/-- R73, R75: EOF's code ends the decoding, whatever comes after it. -/
theorem Tree.Linked.decodeBits_codeOf_eof {c : List Bool} (hc : codeOf t 256 = some c) :
    decodeBits t 512 (c ++ bits) = { symbols := [], cursor := 512, eof := true, used := c.length } := by
  obtain ⟨path, bit, cursor, hcode, hpath, hlast⟩ := ht.decodeStep_codeOf (Nat.le_refl 256)
  cases hc.symm.trans hcode
  rw [List.append_assoc, decodeBits_silent_append _ hpath, List.singleton_append, decodeBits_eof bits hlast]
  simp [Decoded.after]

/-- R117: the codes of a byte sequence decode to the bytes, and the bits after them from the root. -/
theorem Tree.Linked.decodeBits_codesOf (data : List Byte) :
    ∃ codes, codesOf t data = some codes ∧
      ∀ bits, decodeBits t 512 (codes ++ bits) = (decodeBits t 512 bits).after data codes.length := by
  induction data with
  | nil => exact ⟨[], rfl, fun bits => by simp [Decoded.after]⟩
  | cons b bs ih =>
    have hlt := b.isLt
    obtain ⟨codes, hcodes, hdecode⟩ := ih
    obtain ⟨c, hc, _⟩ := ht.exists_codeOf (s := b.toNat) (by omega)
    refine ⟨c ++ codes, by simp [codesOf, hc, hcodes], fun bits => ?_⟩
    rw [List.append_assoc, ht.decodeBits_codeOf _ hc, hdecode, Decoded.after_after, List.length_append,
      List.singleton_append]

end

/-- Settles O33: a code, bit by bit; then the codes of the bytes, EOF's and the padding. -/
theorem decodeStepInvertsCodeOf : Obligations.DecodeStepInvertsCodeOf := by
  intro count
  have ht := buildTree_linked count
  refine ⟨fun s hs => ht.decodeStep_codeOf hs, fun data padding => ?_⟩
  obtain ⟨codes, hcodes, hdecode⟩ := ht.decodeBits_codesOf data
  obtain ⟨eof, heof, _⟩ := ht.exists_codeOf (Nat.le_refl 256)
  refine ⟨codes, eof, hcodes, heof, ?_⟩
  rw [List.append_assoc, hdecode, ht.decodeBits_codeOf_eof _ heof]
  simp [Decoded.after]

end Sys2Proof.Machine
end

section
/-! The tree of the all-zero table (42_huffman_tree.md R113(c)): the node that a pass creates weighs 0, so it stands at the
front of the queue and is the left child of the next pass; the literals follow as right children in descending order, and
EOF comes last. -/

namespace Sys2Proof.Machine

/-! ## The queue of leaves -/

/-- A weight of 0 goes to the front of every queue (R100). -/
theorem qInsert_of_weight_zero (n : Nat) (q : List QItem) :
    qInsert { node := n, weight := 0 } q = { node := n, weight := 0 } :: q := by
  cases q with
  | nil => rfl
  | cons y q => exact if_pos (Nat.zero_le _)

/-- The leaves of the `k` first literals with count 0, in the order of the queue. -/
def zeroLeaves : (k : Nat) → List QItem
  | 0 => []
  | k + 1 => { node := k, weight := 0 } :: zeroLeaves k

theorem insertLeaves_replicate_zero (k : Nat) (ws : List Nat) (s : Nat) :
    insertLeaves (List.replicate k 0 ++ ws) s (zeroLeaves s) = insertLeaves ws (s + k) (zeroLeaves (s + k)) := by
  induction k generalizing s with
  | zero => rfl
  | succ k ih =>
    rw [List.replicate_succ, List.cons_append, insertLeaves, qInsert_of_weight_zero]
    exact (ih (s + 1)).trans (by rw [Nat.add_right_comm, Nat.add_assoc])

theorem qInsert_zeroLeaves (k : Nat) (x : QItem) (hx : 0 < x.weight) : qInsert x (zeroLeaves k) = zeroLeaves k ++ [x] := by
  induction k with
  | zero => rfl
  | succ k ih => rw [zeroLeaves, qInsert, if_neg (Nat.not_le.mpr hx), ih, List.cons_append]

/-- R113(a): the literals in descending order, then EOF. -/
theorem leafQueue_zeros :
    leafQueue (Vector.replicate 256 0) = zeroLeaves 256 ++ [{ node := 256, weight := 1 }] := by
  rw [leafQueue, leafWeights, Vector.toList_replicate]
  exact (insertLeaves_replicate_zero 256 [1] 0).trans
    (qInsert_zeroLeaves 256 { node := 256, weight := 1 } Nat.one_pos)

/-! ## The chain of passes -/

/-- The passes that chain the literals below `k`, and EOF last, to the node `n`; `next` is the node of the first pass. -/
def zeroChain : (k n next : Nat) → List Merge
  | 0, n, _ => [{ left := n, right := 256, weight := 1 }]
  | k + 1, n, next => { left := n, right := k, weight := 0 } :: zeroChain k next (next + 1)

theorem mergeLoop_cons_cons (fuel : Nat) (a b : QItem) (q : List QItem) (next : Nat) :
    mergeLoop (fuel + 1) (a :: b :: q) next = { left := a.node, right := b.node, weight := a.weight + b.weight } ::
      mergeLoop fuel (qInsert { node := next, weight := a.weight + b.weight } q) (next + 1) := rfl

theorem mergeLoop_zeroLeaves (k n next : Nat) :
    mergeLoop (k + 1) ({ node := n, weight := 0 } :: (zeroLeaves k ++ [{ node := 256, weight := 1 }])) next =
      zeroChain k n next := by
  induction k generalizing n next with
  | zero => rfl
  | succ k ih =>
    rw [zeroLeaves, List.cons_append, mergeLoop_cons_cons, Nat.add_zero, qInsert_of_weight_zero, ih]
    rfl

theorem mergesOf_zeros : mergesOf (Vector.replicate 256 0) = zeroChain 255 255 257 := by
  rw [mergesOf, leafQueue_zeros]
  exact mergeLoop_zeroLeaves 255 255 257

section
variable (n next : Nat)

@[simp] theorem mergeAt_zeroChain_zero (k : Nat) :
    mergeAt (zeroChain (k + 1) n next) 0 = { left := n, right := k, weight := 0 } := rfl

@[simp] theorem mergeAt_zeroChain_succ (k j : Nat) :
    mergeAt (zeroChain (k + 1) n next) (j + 1) = mergeAt (zeroChain k next (next + 1)) j := rfl

variable {k j : Nat}

/-- A pass of a chain but the first takes out the node of the pass before it. -/
theorem left_mergeAt_zeroChain (hj : j < k) : (mergeAt (zeroChain k n next) (j + 1)).left = next + j := by
  induction k generalizing n next j with
  | zero => cases hj
  | succ k ih =>
    cases j with
    | zero => cases k <;> rfl
    | succ j => rw [mergeAt_zeroChain_succ, ih _ _ (Nat.lt_of_succ_lt_succ hj), Nat.add_right_comm, Nat.add_assoc]

/-- A pass of a chain but the last takes out the largest literal left. -/
theorem right_mergeAt_zeroChain (hj : j < k) : (mergeAt (zeroChain k n next) j).right + (j + 1) = k := by
  induction k generalizing n next j with
  | zero => cases hj
  | succ k ih =>
    cases j with
    | zero => rfl
    | succ j => rw [mergeAt_zeroChain_succ, ← Nat.add_assoc, ih _ _ (Nat.lt_of_succ_lt_succ hj)]

theorem right_mergeAt_zeroChain_last : (mergeAt (zeroChain k n next) k).right = 256 := by
  induction k generalizing n next with
  | zero => rfl
  | succ k ih => exact ih next (next + 1)

end

/-! ## The codes -/

section
variable {d : Nat}

/-- The root of the chain is node 512; on the left each node has the one created before it. -/
theorem leftOf_zeros (hd : d < 255) : (buildTree (Vector.replicate 256 0)).leftOf (512 - d) = 512 - (d + 1) := by
  rw [show 512 - d = 257 + (254 - d + 1) by omega, leftOf_buildTree _ (by omega), mergesOf_zeros,
    left_mergeAt_zeroChain _ _ (by omega)]
  omega

theorem rightOf_zeros (hd : d < 255) : (buildTree (Vector.replicate 256 0)).rightOf (512 - (d + 1)) = d := by
  have hright := right_mergeAt_zeroChain 255 257 (k := 255) (j := 254 - d) (by omega)
  rw [show 512 - (d + 1) = 257 + (254 - d) by omega, rightOf_buildTree _ (by omega), mergesOf_zeros]
  omega

/-- The node `512 - d` hangs `d` left branches below the root. -/
theorem codeOf_zeros_internal (hd : d ≤ 255) :
    codeOf (buildTree (Vector.replicate 256 0)) (512 - d) = some (List.replicate d false) := by
  induction d with
  | zero => exact codeOf_root _
  | succ d ih =>
    obtain ⟨hleft, _⟩ := (buildTree_linked _).codeOf_children (by omega) (by omega) (ih (by omega))
    rw [leftOf_zeros (by omega), ← List.replicate_succ'] at hleft
    exact hleft

end

/-- Settles O34: EOF hangs at the chain's root and literal 255 at its other end, the other literals along it. -/
theorem emptyTableCodes : Obligations.EmptyTableCodes := by
  have hcodes {d : Nat} (hd : d ≤ 255) :=
    (buildTree_linked (Vector.replicate 256 0)).codeOf_children (by omega) (by omega) (codeOf_zeros_internal hd)
  have heof : (buildTree (Vector.replicate 256 0)).rightOf 512 = 256 := by
    rw [show 512 = 257 + 255 from rfl, rightOf_buildTree _ (by decide), mergesOf_zeros, right_mergeAt_zeroChain_last]
  have hlast : (buildTree (Vector.replicate 256 0)).leftOf 257 = 255 := by
    rw [show 257 = 257 + 0 from rfl, leftOf_buildTree _ (by decide), mergesOf_zeros, mergeAt_zeroChain_zero]
  refine ⟨?eof, fun s hs => ?literal, ?last⟩
  case eof =>
    obtain ⟨_, h⟩ := hcodes (Nat.zero_le 255)
    rwa [Nat.sub_zero, heof] at h
  case literal =>
    obtain ⟨_, h⟩ := hcodes (d := s + 1) (by omega)
    rwa [rightOf_zeros (by omega)] at h
  case last =>
    obtain ⟨h, _⟩ := hcodes (Nat.le_refl 255)
    rw [show 512 - 255 = 257 from rfl, hlast, ← List.replicate_succ'] at h
    exact h

end Sys2Proof.Machine
end

section
/-! What is read off a built tree: the bound on its weights (42_huffman_tree.md R112) and a symbol's code as ENC_CODEOF and
DEC_CODEOF return it (R118, R119). -/

namespace Sys2Proof.Machine

/-! ## The weights -/

/-- Settles O28: the root has the whole total, which no weight passes. -/
theorem weightsBounded : Obligations.WeightsBounded := by
  intro p count ⟨⟨_, hcmax⟩, _⟩
  have hroot : (buildTree count).weightOf 512 = 1 + count.toList.sum := (weightOf_buildTree count).2
  have hle (n : Nat) : (buildTree count).weightOf n ≤ 1 + count.toList.sum := weightOf_buildTree_le_tableTotal count n
  exact ⟨hroot, fun n _ => (hle n).trans_eq hroot.symm, fun htotal n _ => (hle n).trans_lt (by omega)⟩

/-! ## A code packed for a response -/

/-- Bit `k` of a sequence of bytes is bit `k mod 8` of byte `k div 8` (20_memory.md R43). -/
theorem getLsbD_getElem_div (bytes : List Byte) {k : Nat} (hk : k < 8 * bytes.length) :
    (bytes[k / 8]?.getD 0).getLsbD (k % 8) = (bytes.flatMap byteBits)[k]?.getD false := by
  induction bytes generalizing k with
  | nil => cases hk
  | cons b bytes ih =>
    rw [List.flatMap_cons]
    by_cases h : k < 8
    · have hdiv : k / 8 = 0 := Nat.div_eq_of_lt h
      rw [List.getElem?_append_left (by simpa using h), hdiv, Nat.mod_eq_of_lt h]
      simp [byteBits, h]
    · obtain ⟨k, rfl⟩ := Nat.exists_eq_add_of_le' (Nat.le_of_not_lt h)
      rw [List.getElem?_append_right (by simp), byteBits_length, Nat.add_sub_cancel, Nat.add_mod_right,
        Nat.add_div_right k (by decide), List.getElem?_cons_succ]
      exact ih (by simpa [Nat.mul_add] using hk)

theorem getElem?_zeroPad (bits : List Bool) (k : Nat) : (zeroPad bits)[k]?.getD false = bits[k]?.getD false := by
  by_cases h : k < bits.length
  · rw [zeroPad, List.getElem?_append_left h]
  · have hk := Nat.le_of_not_lt h
    rw [zeroPad, List.getElem?_append_right hk, List.getElem?_eq_none hk, List.getElem?_replicate]
    split <;> rfl

/-- R74, R118: a packed code, its length in bytes and bit by bit. -/
theorem packCode_spec (code : List Bool) : (packCode code).length = (code.length + 7) / 8 ∧
    ∀ k < 8 * (packCode code).length, ((packCode code)[k / 8]?.getD 0).getLsbD (k % 8) = code[k]?.getD false := by
  have hbits : (packCode code).flatMap byteBits = zeroPad code := bits_pad_append_empty code
  refine ⟨length_of_flatMap_eq_zeroPad hbits, fun k hk => ?_⟩
  rw [getLsbD_getElem_div _ hk, hbits, getElem?_zeroPad]

/-- What ENC_CODEOF and DEC_CODEOF answer under a built tree. -/
theorem answerCode_buildTree_eq (count : CountTable) {symbol : Word} (hs : symbol.toNat ≤ 256) (s : State) :
    ∃ c, codeOf (buildTree count) symbol.toNat = some c ∧
      answerCode (buildTree count) symbol s = .next (s.answer .success c.length (packCode c)) := by
  obtain ⟨c, hc, _⟩ := (buildTree_linked count).exists_codeOf hs
  exact ⟨c, hc, by rw [answerCode, hc]⟩

/-- Settles O35: under the invariant the unit's tree is a built one. -/
theorem codeofReturnsCode : Obligations.CodeofReturnsCode := by
  intro s symbol hinv hs
  refine ⟨fun hp => ?enc, fun hp => ?dec⟩
  case enc =>
    obtain ⟨c, hc, hanswer⟩ := answerCode_buildTree_eq s.enc.count hs s
    obtain ⟨hlen, hbit⟩ := packCode_spec c
    rw [← (hinv.enc.session hp).tree_eq] at hc hanswer
    exact ⟨c, packCode c, hc, hlen, hbit, (exec_encCodeof_of_legal hp hs).trans hanswer⟩
  case dec =>
    obtain ⟨c, hc, hanswer⟩ := answerCode_buildTree_eq s.dec.count hs s
    obtain ⟨hlen, hbit⟩ := packCode_spec c
    obtain ⟨_, htree, _⟩ := hinv.dec.built hp
    rw [← htree] at hc hanswer
    exact ⟨c, packCode c, hc, hlen, hbit, (exec_decCodeof_of_legal hp hs).trans hanswer⟩

end Sys2Proof.Machine
end

section
/-! Room in the encoder's buffer (43_stream_encoder.md R131): the capacity at which the doubling loop ends, and with it the
outcome of EncReserve. -/

namespace Sys2Proof.Machine

/-! ## The doubling loop in closed form -/

/-- R131: the loop ends at the first capacity that suffices, unless that takes a doubling and passes BUF_MAX. -/
theorem growCap_eq {bufMax need fuel cap k : Nat} (hk : need ≤ cap * 2 ^ k) (hleast : ∀ j < k, cap * 2 ^ j < need)
    (hfuel : k ≤ fuel) :
    growCap bufMax need fuel cap = if k = 0 ∨ cap * 2 ^ k ≤ bufMax then .fits (cap * 2 ^ k) else .pastGuard := by
  induction k generalizing fuel cap with
  | zero =>
    have hfits : ¬ cap < need := by simpa using hk
    cases fuel <;> simp [growCap, hfits]
  | succ k ih =>
    obtain ⟨fuel, rfl⟩ := Nat.exists_eq_add_of_le' (Nat.one_le_of_lt hfuel)
    have hdouble (j : Nat) : cap * 2 ^ (j + 1) = 2 * cap * 2 ^ j := by ring
    have hlt : cap < need := by simpa using hleast 0 k.succ_pos
    rw [growCap, if_pos hlt, hdouble]
    by_cases hguard : bufMax < 2 * cap
    · have hpast : bufMax < 2 * cap * 2 ^ k := hguard.trans_le (Nat.le_mul_of_pos_right _ (Nat.two_pow_pos k))
      rw [if_pos hguard, if_neg (by omega)]
    · rw [if_neg hguard, ih (hdouble k ▸ hk) (fun j hj => hdouble j ▸ hleast (j + 1) (Nat.succ_lt_succ hj))
        (Nat.le_of_succ_le_succ hfuel)]
      by_cases h0 : k = 0
      · subst h0
        rw [if_pos (.inl rfl), if_pos (.inr (by simpa using hguard))]
      · simp only [h0, Nat.succ_ne_zero, false_or]

/-- The rule's bound on the passes is not reached: a capacity of at least 1 doubled `k` times is at least `k + 1`. -/
theorem doublings_le_need {need cap k : Nat} (hcap : 1 ≤ cap) (hleast : ∀ j < k, cap * 2 ^ j < need) : k ≤ need := by
  cases k with
  | zero => exact Nat.zero_le _
  | succ k =>
    calc k + 1
      _ ≤ 2 ^ k := Nat.lt_two_pow_self
      _ ≤ cap * 2 ^ k := Nat.le_mul_of_pos_left _ hcap
      _ ≤ need := (hleast k k.lt_succ_self).le

/-! ## EncReserve -/

/-- R131 counts in bits what the capacity holds in bytes. -/
theorem BitBuf.need_le_iff {b : BitBuf} {l cap : Nat} : b.need l ≤ cap ↔ 8 * b.nbytes + b.nbits.val + l ≤ 8 * cap := by
  rw [BitBuf.need, ceil8]
  omega

section
variable {s t : State} {l k : Nat}

/-- R131: with room already there nothing is asked and nothing changes. -/
theorem encReserve_of_room (h : s.enc.buf.need l ≤ s.enc.cap) : encReserve l s = .ok s := by
  have hgrow := growCap_eq (bufMax := s.params.bufMax) (fuel := s.enc.buf.need l) (k := 0) (by simpa using h) nofun
    (Nat.zero_le _)
  rw [if_pos (.inl rfl), Nat.pow_zero, Nat.mul_one] at hgrow
  simp only [encReserve, hgrow, if_pos]

/-- A growth request whose answer decides between a capacity and OutOfMemory (R131). -/
def askGrowth (cap : Nat) (s : State) : EncStep :=
  if s.grantAnswer then .ok { s.afterGrant with enc := { s.enc with cap := cap } } else .fail .outOfMemory s.afterGrant

/-- R131: where doublings are wanted, the size guard stands before the one request. -/
theorem encReserve_of_doublings (hcap : 1 ≤ s.enc.cap) (hk : s.enc.buf.need l ≤ s.enc.cap * 2 ^ k)
    (hleast : ∀ j < k, s.enc.cap * 2 ^ j < s.enc.buf.need l) (hpos : 0 < k) :
    encReserve l s =
      if s.enc.cap * 2 ^ k ≤ s.params.bufMax then askGrowth (s.enc.cap * 2 ^ k) s else .fail .tooMuchData s := by
  have hgrow := growCap_eq (bufMax := s.params.bufMax) hk hleast (doublings_le_need hcap hleast)
  have hne : s.enc.cap * 2 ^ k ≠ s.enc.cap := by
    have hlarger := Nat.mul_lt_mul_of_pos_left (Nat.one_lt_two_pow hpos.ne') hcap
    omega
  simp only [hpos.ne', false_or] at hgrow
  by_cases hmax : s.enc.cap * 2 ^ k ≤ s.params.bufMax <;> simp [encReserve, hgrow, hmax, hne, askGrowth]

/-- R131: there is room, already or by one granted growth, so EncReserve makes it. -/
theorem encReserve_of_roomFor (hcap : 1 ≤ s.enc.cap) (h : s.roomFor l) : ∃ t, encReserve l s = .ok t := by
  by_cases hroom : s.enc.buf.need l ≤ s.enc.cap
  · exact ⟨s, encReserve_of_room hroom⟩
  · obtain ⟨hgrant, hk⟩ := h.resolve_left hroom
    have hanswer : s.grantAnswer = true := by rw [State.grantAnswer, hgrant]; rfl
    have hfits : ∃ k, s.enc.buf.need l ≤ s.enc.cap * 2 ^ k := hk.imp fun _ h => h.1
    obtain ⟨k, hneed, hmax⟩ := hk
    have hpos : 0 < Nat.find hfits := (Nat.find_pos hfits).mpr (by simpa using hroom)
    have hguard : s.enc.cap * 2 ^ Nat.find hfits ≤ s.params.bufMax :=
      le_trans (Nat.mul_le_mul_left _ (Nat.pow_le_pow_right two_pos (Nat.find_min' hfits hneed))) hmax
    rw [encReserve_of_doublings hcap (Nat.find_spec hfits) (fun j hj => Nat.not_le.mp (Nat.find_min hfits hj)) hpos,
      if_pos hguard, askGrowth, if_pos hanswer]
    exact ⟨_, rfl⟩

/-- R131: the two ways in which room cannot be made. -/
theorem encReserve_fail_status {status : Status} (h : encReserve l s = .fail status t) :
    status = .tooMuchData ∨ status = .outOfMemory := by
  rcases encReserve_cases l s with ⟨e, _⟩ | ⟨_, _, _, _, e⟩ | ⟨_, e⟩ | e | e <;> cases e.symm.trans h
  · exact .inr rfl
  · exact .inl rfl

/-- R131: room is made by doublings, none where it is there already. -/
theorem encReserve_ok_cap (h : encReserve l s = .ok t) : ∃ k, t.enc.cap = s.enc.cap * 2 ^ k := by
  rcases encReserve_cases l s with ⟨e, _⟩ | ⟨k, _, _, _, e⟩ | ⟨_, e⟩ | e | e <;> cases e.symm.trans h
  · exact ⟨0, (Nat.mul_one _).symm⟩
  · exact ⟨k, rfl⟩

end

/-! ## The statement -/

/-- Settles O37: with the room counted in bytes, the case without doublings and the case with them. -/
theorem encReserveOutcome : Obligations.EncReserveOutcome := by
  intro s l k hcap hk hleast
  have hneed : s.enc.buf.need l ≤ s.enc.cap * 2 ^ k := BitBuf.need_le_iff.mpr hk
  have hshort (j : Nat) (hj : j < k) : s.enc.cap * 2 ^ j < s.enc.buf.need l :=
    Nat.not_le.mp (mt BitBuf.need_le_iff.mp (Nat.not_le.mpr (hleast j hj)))
  have hgrowth := encReserve_of_doublings hcap hneed hshort
  refine ⟨?room, fun hpos hpast => ?guard, fun hpos hmax => ⟨fun hgranted => ?granted, fun hrefused => ?refused⟩⟩
  case room =>
    rintro rfl
    exact encReserve_of_room (by simpa using hneed)
  case guard => rw [hgrowth hpos, if_neg (Nat.not_le.mpr hpast)]
  case granted =>
    rw [hgrowth hpos, if_pos hmax, askGrowth, if_pos hgranted]
    rfl
  case refused =>
    rw [hgrowth hpos, if_pos hmax, askGrowth, hrefused]
    rfl

end Sys2Proof.Machine
end

section
/-! ENC_FEED (43_stream_encoder.md R132, R133): which bytes it counts, what it appends and what it leaves, whatever becomes
of it; then a feed for which there is room, and one that fails at its first byte. -/

namespace Sys2Proof.Machine

/-! ## One symbol -/

section
variable {sym : Nat} {s t : State} {c : List Bool}

theorem encSymbol_of_reserve_ok (hc : codeOf s.enc.tree sym = some c) (h : encReserve c.length s = .ok t) :
    encSymbol sym s = .ok (encAppend c t) := by
  simp only [encSymbol, hc, h]

theorem encSymbol_of_reserve_fail {status : Status} (hc : codeOf s.enc.tree sym = some c)
    (h : encReserve c.length s = .fail status t) : encSymbol sym s = .fail status t := by
  simp only [encSymbol, hc, h]

/-- R131, R184: a symbol's step that fails does so for want of room, and changes no unit. -/
theorem encSymbol_fail_cases {status : Status} (h : encSymbol sym s = .fail status t) :
    (status = .tooMuchData ∨ status = .outOfMemory) ∧ t.enc = s.enc ∧ t.ft = s.ft ∧ t.dec = s.dec ∧
      t.responses = s.responses := by
  have hstep := encSymbol_leaves sym s
  rw [h] at hstep
  obtain ⟨_, hft, hdec, _, hresponses⟩ := State.EncoderStep.frame hstep
  refine ⟨?_, encSymbol_fail h, hft, hdec, hresponses⟩
  rcases encSymbol_cases sym s with ⟨_, e⟩ | ⟨c, _, ⟨_, _, e⟩ | ⟨_, _, hr, e⟩ | ⟨_, _, e⟩⟩ <;> cases e.symm.trans h
  exact encReserve_fail_status hr

/-- R139: a symbol's step that goes on has doubled the capacity, if it has changed it. -/
theorem encSymbol_ok_cap (h : encSymbol sym s = .ok t) : ∃ k, t.enc.cap = s.enc.cap * 2 ^ k := by
  rcases encSymbol_cases sym s with ⟨_, e⟩ | ⟨c, _, ⟨_, hr, e⟩ | ⟨_, _, _, e⟩ | ⟨_, _, e⟩⟩ <;> cases e.symm.trans h
  simpa using encReserve_ok_cap hr

end

/-! ## A feed, whatever becomes of it -/

/-- `u` is `s` after the first `k` bytes of `data` have been encoded and the feed has ended with `status`, the response not
yet given. -/
structure State.Fed (s : State) (data : List Byte) (u : State) (status : Status) (k : Nat) : Prop where
  step : s.EncoderStep u
  codes : ∃ codes, codesOf s.enc.tree (data.take k) = some codes ∧ s.enc.appended codes u.enc
  cap : ∃ j, u.enc.cap = s.enc.cap * 2 ^ j
  ends : (status = .success ∧ k = data.length) ∨ ((status = .tooMuchData ∨ status = .outOfMemory) ∧ k < data.length)

theorem State.Fed.nil (s : State) : s.Fed [] s .success 0 where
  step := .refl s
  codes := ⟨[], rfl, s.enc.cap, rfl⟩
  cap := ⟨0, (Nat.mul_one _).symm⟩
  ends := .inl ⟨rfl, rfl⟩

section
variable {s t u : State} {b : Byte} {bs : List Byte} {status : Status} {k : Nat}

/-- R133: a feed ends at the first byte for which there is no room. -/
theorem State.Fed.of_fail (h : encSymbol b.toNat s = .fail status t) : s.Fed (b :: bs) t status 0 := by
  obtain ⟨hstatus, henc, _⟩ := encSymbol_fail_cases h
  have hstep := encSymbol_leaves b.toNat s
  rw [h] at hstep
  exact ⟨hstep, ⟨[], rfl, s.enc.cap, henc⟩, ⟨0, by rw [henc, Nat.pow_zero, Nat.mul_one]⟩, .inr ⟨hstatus, Nat.succ_pos _⟩⟩

/-- R133: one byte encoded, and then the rest of the feed. -/
theorem State.Fed.cons (h : encSymbol b.toNat s = .ok t) (hrest : t.Fed bs u status k) :
    s.Fed (b :: bs) u status (k + 1) where
  step := by
    have hstep := encSymbol_leaves b.toNat s
    rw [h] at hstep
    exact State.EncoderStep.trans hstep hrest.step
  codes := by
    obtain ⟨c, hc, happ⟩ := encSymbol_ok h
    obtain ⟨codes, hcodes, happ'⟩ := hrest.codes
    rw [happ.tree_eq] at hcodes
    exact ⟨c ++ codes, by simp only [List.take_succ_cons, codesOf, hc, hcodes], happ.trans happ'⟩
  cap := by
    obtain ⟨i, hi⟩ := encSymbol_ok_cap h
    obtain ⟨j, hj⟩ := hrest.cap
    exact ⟨i + j, by rw [hj, hi, Nat.mul_assoc, Nat.pow_add]⟩
  ends := by simpa using hrest.ends

end

/-- R133: what a feed that is answered has done. -/
theorem encFeedLoop_fed {data : List Byte} {n : Nat} {s t : State} (h : encFeedLoop data n s = .next t) :
    ∃ u status k, s.Fed data u status k ∧ t = u.answer status (n + k) [] := by
  induction data generalizing n s with
  | nil =>
    cases h
    exact ⟨s, .success, 0, .nil s, rfl⟩
  | cons b bs ih =>
    rw [encFeedLoop] at h
    cases he : encSymbol b.toNat s with
    | ok v =>
      rw [he] at h
      obtain ⟨u, status, k, hfed, rfl⟩ := ih h
      exact ⟨u, status, k + 1, hfed.cons he, by rw [Nat.add_assoc, Nat.add_comm 1]⟩
    | fail status v =>
      rw [he] at h
      cases h
      exact ⟨v, status, 0, .of_fail he, rfl⟩
    | stuck f =>
      rw [he] at h
      cases h

/-- R132: an encoder with codes appended has their bits after its own, and keeps all but its capacity and its buffer. -/
theorem Enc.appended.bits_frame {p : Params} {e f : Enc} {codes : List Bool} (hinv : e.Inv p) (h : e.appended codes f) :
    f.buf.bits = e.buf.bits ++ codes ∧ f = { e with cap := f.cap, buf := f.buf } := by
  obtain ⟨_, rfl⟩ := h
  exact ⟨(e.buf.append_bits codes hinv.part_lt).1, rfl⟩

/-- Settles O38: under the invariant the feed is answered, and what it has done is what every feed that is answered has. -/
theorem encFeedAppendsCodes : Obligations.EncFeedAppendsCodes := by
  intro s data hinv hp _
  obtain ⟨t, ht, _⟩ := exec_inv (.encFeed data) hinv
  obtain ⟨u, status, k, hfed, rfl⟩ := encFeedLoop_fed (exec_encFeed_of_active hp data ▸ ht)
  obtain ⟨codes, hcodes, happ⟩ := hfed.codes
  obtain ⟨hbits, henc⟩ := happ.bits_frame hinv.enc
  obtain ⟨_, _, _, rfl⟩ := hfed.step
  exact ⟨_, status, k, codes, ht, by rw [State.answer_responses, Nat.zero_add], hfed.ends, hcodes, hbits, henc, rfl⟩

/-! ## A feed with room for all its codes -/

/-- R131, R132: the room for two codes together is the room for the second once the first is in the buffer. -/
theorem BitBuf.need_append_add {b : BitBuf} (h : b.part.toNat < 2 ^ b.nbits.val) (c : List Bool) (l : Nat) :
    (b.append c).need l = b.need (c.length + l) := by
  have hlen := congrArg List.length (b.append_bits c h).1
  rw [BitBuf.bits_length, List.length_append, BitBuf.bits_length] at hlen
  rw [BitBuf.need, BitBuf.need, hlen, Nat.add_assoc]

theorem BitBuf.need_mono (b : BitBuf) {l m : Nat} (h : l ≤ m) : b.need l ≤ b.need m :=
  Nat.div_le_div_right (by omega)

theorem codesOf_cons {t : Tree} {b : Byte} {bs : List Byte} {codes : List Bool} (h : codesOf t (b :: bs) = some codes) :
    ∃ c cs, codeOf t b.toNat = some c ∧ codesOf t bs = some cs ∧ codes = c ++ cs := by
  rw [codesOf] at h
  split at h
  · next c cs hc hcs => exact ⟨c, cs, hc, hcs, (Option.some.inj h).symm⟩
  · cases h

theorem encAppend_encAppend (c d : List Bool) (s : State) : encAppend d (encAppend c s) = encAppend (c ++ d) s := by
  simp [encAppend, BitBuf.append]

/-- R133: with room for all the codes no byte of the feed asks for growth. -/
theorem encFeedLoop_of_room {data : List Byte} {codes : List Bool} {n : Nat} {s : State}
    (hpart : s.enc.buf.part.toNat < 2 ^ s.enc.buf.nbits.val) (hcodes : codesOf s.enc.tree data = some codes)
    (hroom : s.enc.buf.need codes.length ≤ s.enc.cap) :
    encFeedLoop data n s = .next ((encAppend codes s).answer .success (n + data.length) []) := by
  induction data generalizing codes n s with
  | nil =>
    cases hcodes
    rfl
  | cons b bs ih =>
    obtain ⟨c, cs, hc, hcs, rfl⟩ := codesOf_cons hcodes
    rw [List.length_append] at hroom
    have hfirst := encReserve_of_room ((s.enc.buf.need_mono (Nat.le_add_right _ _)).trans hroom)
    have hrest := ih (n := n + 1) (s := encAppend c s) (s.enc.buf.append_bits c hpart).2 hcs
      ((BitBuf.need_append_add hpart c cs.length).trans_le hroom)
    rw [encFeedLoop, encSymbol_of_reserve_ok hc hfirst]
    rw [encAppend_encAppend, Nat.add_assoc, Nat.add_comm 1] at hrest
    exact hrest

/-- Settles O39: the loop with room, from the count 0. -/
theorem encFeedCompletes : Obligations.EncFeedCompletes := by
  intro s data codes hinv hp _ hcodes hroom
  refine ⟨s.enc.buf.append codes, (s.enc.buf.append_bits codes hinv.enc.part_lt).1, ?_⟩
  rw [exec_encFeed_of_active hp, encFeedLoop_of_room hinv.enc.part_lt hcodes hroom, Nat.zero_add]
  rfl

/-! ## A feed that fails at its first byte -/

/-- Settles O40: EncReserve's failure is the symbol's, and the symbol's is the feed's. -/
theorem encFeedStopsAtFailure : Obligations.EncFeedStopsAtFailure := by
  intro s t b rest c status hp hc hreserve
  have hsymbol := encSymbol_of_reserve_fail hc hreserve
  obtain ⟨hstatus, henc, hft, hdec, hresponses⟩ := encSymbol_fail_cases hsymbol
  refine ⟨hstatus, henc, hft, hdec, ?_⟩
  rw [exec_encFeed_of_active hp, encFeedLoop, hsymbol, ← hresponses]
  rfl

end Sys2Proof.Machine
end

section
/-! ENC_END (43_stream_encoder.md R134): with room for the EOF code it pads the buffer and ends the session; without, it
changes nothing. -/

namespace Sys2Proof.Machine

/-! ## With room -/

/-- R134: the payload padded to whole bytes. -/
theorem encFinish_append_bits {s t : State} {c : List Bool} (hpart : s.enc.buf.part.toNat < 2 ^ s.enc.buf.nbits.val)
    (h : s.enc.appended c t.enc) :
    (encFinish t).enc.buf.nbits = 0 ∧ (encFinish t).enc.buf.bits = zeroPad (s.enc.buf.bits ++ c) := by
  obtain ⟨_, ht⟩ := h
  obtain ⟨hbits, hpart'⟩ := s.enc.buf.append_bits c hpart
  obtain ⟨hpad, hnbits⟩ := (s.enc.buf.append c).pad_bits hpart'
  rw [encFinish_enc, ht]
  exact ⟨hnbits, hpad.trans (congrArg zeroPad hbits)⟩

/-- R134: ENC_END keeps all of the unit but its phase, its capacity and its buffer. -/
theorem encFinish_appended_frame {s t : State} {c : List Bool} (h : s.enc.appended c t.enc) :
    (encFinish t).enc = { s.enc with phase := .ended, cap := (encFinish t).enc.cap, buf := (encFinish t).enc.buf } := by
  obtain ⟨_, ht⟩ := h
  rw [encFinish_enc, ht]

/-- Settles O41: EncReserve makes the room, so the EOF code's step goes on. -/
theorem encEndCompletes : Obligations.EncEndCompletes := by
  intro s c hinv hp hc hroom
  obtain ⟨_, _, hcap, _, _⟩ := hinv.enc.session (by rw [hp]; exact nofun)
  obtain ⟨r, hr⟩ := encReserve_of_roomFor hcap hroom
  have hsymbol := encSymbol_of_reserve_ok hc hr
  have hstep := encSymbol_leaves 256 s
  obtain ⟨c', hc', happ⟩ := encSymbol_ok hsymbol
  cases hc'.symm.trans hc
  rw [hsymbol] at hstep
  obtain ⟨hnbits, hbits⟩ := encFinish_append_bits hinv.enc.part_lt happ
  have hframe := encFinish_appended_frame happ
  have hexec := exec_encEnd_of_active hp
  rw [hsymbol] at hexec
  generalize encAppend c r = u at hstep hnbits hbits hframe hexec
  obtain ⟨_, _, _, rfl⟩ := hstep
  exact ⟨_, hexec, rfl, rfl, hnbits, hbits, hframe, rfl⟩

/-! ## Without room -/

/-- Settles O42: the EOF code's step goes on, or it fails and the command with it. -/
theorem encEndFailureChangesNothing : Obligations.EncEndFailureChangesNothing := by
  intro s t hp h
  have hstep := encSymbol_leaves 256 s
  rw [exec_encEnd_of_active hp] at h
  cases he : encSymbol 256 s with
  | ok u =>
    rw [he] at h hstep
    cases h
    obtain ⟨_, _, _, _, hresponses⟩ := State.EncoderStep.frame hstep
    exact .inl ⟨_, _, congrArg (· ++ _) hresponses⟩
  | fail status u =>
    rw [he] at h
    cases h
    obtain ⟨hstatus, henc, hft, hdec, hresponses⟩ := encSymbol_fail_cases he
    exact .inr ⟨status, hstatus, congrArg (· ++ _) hresponses, henc, hft, hdec⟩
  | stuck f =>
    rw [he] at h
    cases h

end Sys2Proof.Machine
end

section
/-! The other commands of the StreamEncoder (43_stream_encoder.md R130, R135, R136), and the capacity through every command
(R139). -/

namespace Sys2Proof.Machine

/-! ## ENC_INIT, ENC_READY and ENC_DRAIN -/

/-- Settles O36: a legal hint constructs the encoder, any other breaks the contract. -/
theorem encInitConstructs : Obligations.EncInitConstructs := fun s hint =>
  ⟨fun hlo hhi => ⟨Enc.constructed s.ft.count hint.toNat, rfl, rfl, rfl, rfl, rfl, rfl, rfl,
    exec_encInit_of_legal ⟨hlo, hhi⟩⟩, fun h => exec_of_violates h⟩

/-- Settles O44: under the invariant the number of bytes ready fits the response's word. -/
theorem encReadyCounts : Obligations.EncReadyCounts := by
  refine fun s hinv => ⟨fun hp => ?_, fun hp => exec_of_violates hp⟩
  have hlt := (hinv.ready_lt hp).trans (show 0xFFFFFFFF < 2 ^ 32 by decide)
  exact ⟨BitVec.ofNat 32 s.enc.ready, Nat.mod_eq_of_lt hlt, exec_encReady_of_ne_idle hp⟩

/-- The bytes ready to drain, in the order in which they are drained (R135, R136). -/
def Enc.waiting (e : Enc) : List Byte := headerBytes e.count (1024 - e.hdrRem.val) e.hdrRem.val ++ e.buf.bytes

section
variable (e : Enc) {k : Nat}

theorem Enc.front_ready : e.front e.ready = e.waiting := by
  have hmin : min e.ready e.hdrRem.val = e.hdrRem.val := Nat.min_eq_right (Nat.le_add_right ..)
  have hpayload : e.ready - e.hdrRem.val = e.buf.bytes.length := Nat.add_sub_cancel_left ..
  rw [Enc.front, hmin, hpayload, Enc.drained, List.take_length, Enc.waiting]

theorem Enc.length_front (hk : k ≤ e.ready) : (e.front k).length = k := by
  have hready : e.ready = e.hdrRem.val + e.buf.bytes.length := rfl
  simp only [Enc.front, Enc.drained, headerBytes, List.length_append, List.length_map, List.length_range, List.length_take]
  omega

/-- R136: what is drained and what is then left are together what was ready. -/
theorem Enc.front_append_waiting (hk : k ≤ e.ready) : e.front k ++ (e.dropFront k).waiting = e.waiting := by
  rw [← Enc.front_ready, Enc.ready_dropFront, Enc.front_append, Nat.add_sub_cancel' hk, Enc.front_ready]

theorem Enc.front_eq_take (hk : k ≤ e.ready) : e.front k = e.waiting.take k := by
  rw [← e.front_append_waiting hk, List.take_left' (e.length_front hk)]

theorem Enc.waiting_dropFront (hk : k ≤ e.ready) : (e.dropFront k).waiting = e.waiting.drop k := by
  rw [← e.front_append_waiting hk, List.drop_left' (e.length_front hk)]

theorem Enc.hdrRem_dropFront : (e.dropFront k).hdrRem.val = e.hdrRem.val - k := by
  rw [Enc.dropFront, Enc.afterDrain_hdrRem_val]
  omega

end

/-- Settles O45: the drain takes the front of what is ready. -/
theorem encDrainTakesPrefix : Obligations.EncDrainTakesPrefix := by
  refine fun s maxLen _ => ⟨fun hp => ?_, fun hp => exec_of_violates hp⟩
  have hk : min maxLen.toNat s.enc.ready ≤ s.enc.ready := Nat.min_le_right ..
  have hexec := exec_encDrain_eq hp maxLen
  rw [Enc.front_eq_take _ hk] at hexec
  exact ⟨_, s.enc.dropFront _, rfl, hexec, s.enc.waiting_dropFront hk, s.enc.hdrRem_dropFront, rfl⟩

/-! ## The capacity -/

/-- The encoder's capacity has been doubled, or not, and its session goes on (R139). -/
def Enc.doubled (e f : Enc) : Prop := f.phase ≠ .idle ∧ ∃ k, f.cap = e.cap * 2 ^ k

theorem Enc.doubled_of_eq {e f : Enc} (hp : e.phase ≠ .idle) (h : f = e) : e.doubled f :=
  h.symm ▸ ⟨hp, 0, (Nat.mul_one _).symm⟩

theorem Enc.appended.phase_eq {e f : Enc} {c : List Bool} (h : e.appended c f) : f.phase = e.phase := by
  obtain ⟨_, rfl⟩ := h
  rfl

section
variable {s t : State} (hp : s.enc.phase ≠ .idle)
include hp

theorem encFeedLoop_doubled {data : List Byte} {n : Nat} (h : encFeedLoop data n s = .next t) : s.enc.doubled t.enc := by
  obtain ⟨u, status, k, hfed, rfl⟩ := encFeedLoop_fed h
  obtain ⟨codes, _, happ⟩ := hfed.codes
  exact ⟨happ.phase_eq.trans_ne hp, hfed.cap⟩

theorem encEndAnswer_doubled (h : encEndAnswer (encSymbol 256 s) = .next t) : s.enc.doubled t.enc := by
  cases he : encSymbol 256 s with
  | ok u =>
    have hcap := encSymbol_ok_cap he
    rw [he] at h
    cases h
    exact ⟨nofun, hcap⟩
  | fail status u =>
    have henc := encSymbol_fail he
    rw [he] at h
    cases h
    exact Enc.doubled_of_eq hp henc
  | stuck f =>
    rw [he] at h
    cases h

/-- R139: only ENC_INIT and the reset event give the encoder another capacity than a doubled one. -/
theorem exec_doubled {i : Instr} (hreset : i ≠ .sysReset) (hinit : ∀ hint, i ≠ .encInit hint) (h : exec i s = .next t) :
    s.enc.doubled t.enc := by
  by_cases hv : violates i s
  · cases (exec_of_violates hv).symm.trans h
    exact Enc.doubled_of_eq hp rfl
  · cases i with
    | sysReset => exact absurd rfl hreset
    | encInit hint => exact absurd rfl (hinit hint)
    | encFeed data => exact encFeedLoop_doubled hp (exec_encFeed_of_active (not_not.mp hv) data ▸ h)
    | encEnd => exact encEndAnswer_doubled hp (exec_encEnd_of_active (not_not.mp hv) ▸ h)
    | encDrain maxLen =>
      cases (exec_encDrain_eq hp maxLen).symm.trans h
      exact ⟨hp, 0, (Nat.mul_one _).symm⟩
    | sysStatus | encReady | encCodeof _ =>
      obtain ⟨_, _, _, rfl⟩ := exec_read_next (by simp [Instr.mnemonic]) h
      exact Enc.doubled_of_eq hp rfl
    | ftInit | ftFeed _ | ftCount _ | ftTotal => exact Enc.doubled_of_eq hp (exec_ft_keeps rfl h).1
    | decInit _ | decFeed _ | decReady | decDrain _ | decCodeof _ =>
      exact Enc.doubled_of_eq hp (exec_dec_keeps rfl h).2

end

/-- Settles O43: the capacity has been doubled, and the invariant that the command keeps bounds it. -/
theorem capacityOnlyDoubles : Obligations.CapacityOnlyDoubles := by
  intro i s t hinv hp hreset hinit h
  obtain ⟨hphase, k, hcap⟩ := exec_doubled hp hreset hinit h
  obtain ⟨u, hu, huinv⟩ := exec_inv i hinv
  cases hu.symm.trans h
  obtain ⟨hparams, _⟩ := exec_keeps_port h
  exact ⟨k, hcap, hparams ▸ (huinv.enc.session hphase).cap_le⟩

end Sys2Proof.Machine
end

section
/-! DEC_FEED in phase PAYLOAD (44_stream_decoder.md R152, R154, R155) against the bit sequence that the latch and the input
are (42_huffman_tree.md R117). Whatever a feed walks goes to the output buffer, and what is left, in the latch and in the
input not consumed, decodes to the rest; the feed ends where the input is used up, at EOF, or at a literal without room. -/

namespace Sys2Proof.Machine

/-! ## What a unit and its input decode to -/

/-- What the latched bits and after them those of the input decode to. -/
def Dec.decoded (d : Dec) (data : List Byte) : Decoded :=
  decodeBits d.tree d.cursor (d.latchedBits ++ data.flatMap byteBits)

section
variable {d : Dec}

theorem Dec.latchedBits_of_spent (h : d.bitsLeft.val = 0) : d.latchedBits = [] :=
  List.drop_eq_nil_of_le (by rw [byteBits_length, h])

/-- R31: the next bit comes out of the latch first. -/
theorem Dec.latchedBits_eq_cons (h : 0 < d.bitsLeft.val) : d.latchedBits = d.nextBit :: d.spendBit.latchedBits := by
  have hlt := d.bitsLeft.isLt
  have hnext : 8 - (d.bitsLeft.val - 1) = 8 - d.bitsLeft.val + 1 := by omega
  rw [Dec.latchedBits, List.drop_eq_getElem_cons (by rw [byteBits_length]; omega), Dec.latchedBits,
    Dec.spendBit_bitsLeft_val, hnext]
  simp [byteBits, Dec.nextBit]

theorem Dec.decoded_eq_cons (h : 0 < d.bitsLeft.val) (data : List Byte) : d.decoded data =
    decodeBits d.tree d.cursor (d.nextBit :: (d.spendBit.latchedBits ++ data.flatMap byteBits)) := by
  rw [Dec.decoded, Dec.latchedBits_eq_cons h, List.cons_append]

/-- With no bit left nothing is decoded. -/
theorem Dec.decoded_nil_of_spent (h : d.bitsLeft.val = 0) :
    d.decoded [] = { symbols := [], cursor := d.cursor, eof := false, used := 0 } := by
  rw [Dec.decoded, Dec.latchedBits_of_spent h]
  rfl

/-- R152: a byte taken into the empty latch is walked next. -/
theorem Dec.decoded_cons_of_spent (h : d.bitsLeft.val = 0) (b : Byte) (data : List Byte) :
    d.decoded (b :: data) = ({ d with cur := b, bitsLeft := 8 } : Dec).decoded data := by
  rw [Dec.decoded, Dec.latchedBits_of_spent h]
  rfl

end

/-! ## Walking -/

/-- Walking takes the unit `d` with the input `data` to `m` with the input `rest`: the literals `bs` go to the buffer, and
what `m` and `rest` decode to is what comes after them. The bits walked and those still waiting are the bits there were. -/
structure Dec.Walks (d : Dec) (data bs : List Byte) (m : Dec) (rest : List Byte) : Prop where
  decoded : ∃ used, d.decoded data = (m.decoded rest).after bs used ∧
    used + (m.bitsLeft.val + 8 * rest.length) = d.bitsLeft.val + 8 * data.length
  unit : m = { d with cursor := m.cursor, cur := m.cur, bitsLeft := m.bitsLeft, out := d.out ++ bs }

theorem Dec.Walks.refl (d : Dec) (data : List Byte) : d.Walks data [] d data where
  decoded := ⟨0, by simp [Decoded.after], Nat.zero_add _⟩
  unit := by simp

theorem Dec.Walks.trans {d m e : Dec} {data rest last bs cs : List Byte} (h : d.Walks data bs m rest)
    (h' : m.Walks rest cs e last) : d.Walks data (bs ++ cs) e last := by
  obtain ⟨⟨j, hj, hjbits⟩, hm⟩ := h
  obtain ⟨⟨k, hk, hkbits⟩, he⟩ := h'
  refine ⟨⟨j + k, by rw [hj, hk, Decoded.after_after], by omega⟩, ?_⟩
  rw [he, hm, List.append_assoc]

/-- Where the walking of a DEC_FEED ends, at the unit `m` with the input `rest`, and the status and the unit it leaves. -/
inductive Dec.Ends (m : Dec) (rest : List Byte) : Status → Dec → Prop
  /-- R152: no bit is left. -/
  | success (hbits : m.bitsLeft.val = 0) (hrest : rest = []) : m.Ends rest .success m
  /-- R154: the next bit is the last one of EOF. -/
  | done (hbits : 0 < m.bitsLeft.val)
      (heof : m.decoded rest = { symbols := [], cursor := 512, eof := true, used := 1 }) :
      m.Ends rest .done { m with cursor := 512, bitsLeft := 0, phase := .done }
  /-- R154: the next bit is the last one of a literal that finds no room. -/
  | outputFull {b : Byte} (hroom : m.cap ≤ m.nout)
      (hheld : m.decoded rest = (({ m.spendBit with cursor := 512 } : Dec).decoded rest).after [b] 1) :
      m.Ends rest .outputFull { m.spendBit with cursor := 512, pend := b, pendValid := true }

/-- A step that consumes no input goes on by walking, or ends the command where walking has come to. -/
def Walk.walked (d : Dec) (data : List Byte) : Walk → Prop
  | .go m => ∃ bs, d.Walks data bs m data
  | .stop status d' => ∃ bs m, d.Walks data bs m data ∧ m.Ends data status d'
  | .off => True

theorem Dec.Walks.walked {d m : Dec} {data bs : List Byte} {w : Walk} (h : d.Walks data bs m data)
    (hw : w.walked m data) : w.walked d data := by
  cases w with
  | go e =>
    obtain ⟨cs, hcs⟩ := hw
    exact ⟨bs ++ cs, h.trans hcs⟩
  | stop status e =>
    obtain ⟨cs, n, hcs, hend⟩ := hw
    exact ⟨bs ++ cs, n, h.trans hcs, hend⟩
  | off => trivial

/-- R116: at a leaf the cursor returns to the root. -/
theorem cursor_of_decodeStep_leaf {t : Tree} {cursor n s : Nat} {bit : Bool}
    (h : decodeStep t cursor bit = some (n, some s)) : n = 512 := by
  rcases decodeStep_cases t cursor bit with ⟨_, e⟩ | ⟨_, _, _, _, e⟩ | ⟨_, _, _, _, e⟩ <;> rw [e] at h <;> cases h
  rfl

theorem bitStep_walked {d : Dec} (h : 0 < d.bitsLeft.val) (data : List Byte) : (bitStep d).walked d data := by
  have hbits := d.decoded_eq_cons h data
  have hcount : 1 + (d.spendBit.bitsLeft.val + 8 * data.length) = d.bitsLeft.val + 8 * data.length := by
    rw [Dec.spendBit_bitsLeft_val]
    omega
  rcases bitStep_cases d with ⟨_, e⟩ | ⟨n, hs, e⟩ | ⟨n, hs, e⟩ | ⟨n, sym, hsym, hs, ⟨_, e⟩ | ⟨hroom, e⟩⟩ <;> rw [e]
  · trivial
  · exact ⟨[], ⟨1, hbits.trans (decodeBits_silent _ hs), hcount⟩, by simp [Dec.spendBit]⟩
  · rw [decodeBits_eof _ hs] at hbits
    cases cursor_of_decodeStep_leaf hs
    exact ⟨[], d, .refl d data, .done h hbits⟩
  · exact ⟨_, ⟨1, hbits.trans (decodeBits_literal _ hs hsym), hcount⟩, rfl⟩
  · rw [decodeBits_literal _ hs hsym] at hbits
    cases cursor_of_decodeStep_leaf hs
    exact ⟨[], d, .refl d data, .outputFull hroom hbits⟩

theorem walkBits_walked {n : Nat} {d : Dec} (h : d.bitsLeft.val = n) (data : List Byte) :
    (walkBits n d).walked d data := by
  induction n generalizing d with
  | zero => exact ⟨[], .refl d data⟩
  | succ n ih =>
    have hb := bitStep_walked (d := d) (by omega) data
    rw [walkBits]
    cases hs : bitStep d with
    | go m =>
      rw [hs] at hb
      obtain ⟨bs, hm⟩ := hb
      obtain ⟨_, hbits⟩ := bitStep_go hs
      exact hm.walked (ih (by omega))
    | stop status m => rwa [hs] at hb
    | off => trivial

theorem walkBits_spends {n : Nat} {d m : Dec} (h : d.bitsLeft.val = n) (hw : walkBits n d = .go m) :
    m.bitsLeft.val = 0 := by
  induction n generalizing d with
  | zero =>
    cases hw
    exact h
  | succ n ih =>
    rw [walkBits] at hw
    cases hs : bitStep d with
    | go e =>
      rw [hs] at hw
      obtain ⟨_, hbits⟩ := bitStep_go hs
      exact ih (by omega) hw
    | stop status e => rw [hs] at hw; cases hw
    | off => rw [hs] at hw; cases hw

/-! ## The loop and the command -/

theorem takeByte_of_payload {d : Dec} (hp : d.phase = .payload) (p : Params) (b : Byte) :
    takeByte p b d = .go { d with cur := b, bitsLeft := 8 } := by
  simp only [takeByte, hp]

/-- R152: where the first byte is taken the loop goes on with the others, one byte counted. -/
theorem decFeedLoop_cons_eq_fin {p : Params} {b : Byte} {data : List Byte} {d m e d' : Dec} {status : Status} {k : Nat}
    (hw : walkLatched d = .go m) (ht : takeByte p b m = .go e)
    (h : decFeedLoop p (b :: data) 0 d = .fin status k d') :
    ∃ j, k = j + 1 ∧ decFeedLoop p data 0 e = .fin status j d' := by
  have hadd := decFeedLoop_add p data 1 0 e
  simp only [decFeedLoop, hw, ht] at h
  rw [Nat.zero_add, ← Nat.add_zero 1, hadd] at h
  cases hl : decFeedLoop p data 0 e with
  | fin status' j d'' =>
    rw [hl] at h
    cases h
    exact ⟨j, Nat.add_comm 1 j, rfl⟩
  | off => rw [hl] at h; cases h

/-- R152: the count of a loop is what it starts from and at most the bytes of its input. -/
theorem decFeedLoop_count {p : Params} {data : List Byte} {n k : Nat} {d d' : Dec} {status : Status}
    (h : decFeedLoop p data n d = .fin status k d') : n ≤ k ∧ k ≤ n + data.length := by
  induction data generalizing n d with
  | nil =>
    rw [decFeedLoop] at h
    cases hw : walkLatched d with
    | go m | stop status m => rw [hw] at h; cases h; exact ⟨Nat.le_refl _, Nat.le_refl _⟩
    | off => rw [hw] at h; cases h
  | cons b data ih =>
    rw [decFeedLoop] at h
    rw [List.length_cons]
    cases hw : walkLatched d with
    | go m =>
      rw [hw] at h
      dsimp only at h
      cases ht : takeByte p b m with
      | go e =>
        rw [ht] at h
        obtain ⟨hlo, hhi⟩ := ih h
        omega
      | stop status m => rw [ht] at h; cases h; omega
      | off => rw [ht] at h; cases h
    | stop status m => rw [hw] at h; cases h; omega
    | off => rw [hw] at h; cases h

/-- R152: the loop ends where walking ends, and what it has not counted is the input left there. -/
theorem decFeedLoop_walked {p : Params} {data : List Byte} {d d' : Dec} {status : Status} {k : Nat}
    (hp : d.phase = .payload) (h : decFeedLoop p data 0 d = .fin status k d') :
    ∃ bs m, d.Walks data bs m (data.drop k) ∧ m.Ends (data.drop k) status d' := by
  induction data generalizing d k with
  | nil =>
    have hw := walkBits_walked rfl (d := d) []
    simp only [decFeedLoop, walkLatched, hp] at h
    cases hs : walkBits d.bitsLeft.val d with
    | go m =>
      rw [hs] at h hw
      cases h
      obtain ⟨bs, hm⟩ := hw
      exact ⟨bs, _, hm, .success (walkBits_spends rfl hs) rfl⟩
    | stop status m =>
      rw [hs] at h hw
      cases h
      exact hw
    | off => rw [hs] at h; cases h
  | cons b data ih =>
    have hlatched : walkLatched d = walkBits d.bitsLeft.val d := by simp only [walkLatched, hp]
    have hw := walkBits_walked rfl (d := d) (b :: data)
    cases hs : walkBits d.bitsLeft.val d with
    | go m =>
      rw [hs] at hw hlatched
      obtain ⟨bs, hm⟩ := hw
      have hspent := walkBits_spends rfl hs
      have hmp : m.phase = .payload := (congrArg Dec.phase hm.unit).trans hp
      have hbyte : m.Walks (b :: data) [] { m with cur := b, bitsLeft := 8 } data :=
        ⟨⟨0, by simp [Dec.decoded_cons_of_spent hspent, Decoded.after], by simp [hspent]; omega⟩, by simp⟩
      obtain ⟨j, rfl, hl⟩ := decFeedLoop_cons_eq_fin hlatched (takeByte_of_payload hmp p b) h
      obtain ⟨cs, n, hn, hend⟩ := ih (by exact hmp) hl
      exact ⟨_, n, (hm.trans hbyte).trans hn, hend⟩
    | stop status m =>
      simp only [decFeedLoop, hlatched, hs] at h
      rw [hs] at hw
      cases h
      exact hw
    | off =>
      simp only [decFeedLoop, hlatched, hs] at h
      cases h

/-- The unit with its pending literal, if there is one, in the buffer (R155). -/
def Dec.flushed (d : Dec) : Dec := { d with out := d.out ++ d.pendingBytes, pendValid := false }

theorem flushPending_of_room {d : Dec} (hp : d.phase = .payload) (hroom : d.pendValid = true → d.nout < d.cap) :
    flushPending d = some d.flushed := by
  rcases flushPending_cases d with ⟨hn, e⟩ | ⟨_, hv, _, e⟩ | ⟨_, hv, hfull, _⟩
  · have hv : d.pendValid = false := by simpa [hp] using hn
    rw [e, Dec.flushed, Dec.pendingBytes, hv, if_neg nofun, List.append_nil, ← hv]
  · rw [e, Dec.flushed, Dec.pendingBytes, if_pos hv]
  · exact absurd (hroom hv) (Nat.not_lt.mpr hfull)

/-- The unit with all that was decoded in the buffer and no bit left. -/
def Dec.emptied (d : Dec) (phase : DecPhase) (cur : Byte) (r : Decoded) : Dec :=
  { d with phase := phase, cursor := r.cursor, cur := cur, bitsLeft := 0, out := d.out ++ r.symbols }

/-- The three ends of a feed from PAYLOAD, in terms of what the unit and the input decode to: the status, the count and the
unit left (R152, R154). -/
inductive Dec.Feeds (d : Dec) (data : List Byte) : Status → Nat → Dec → Prop
  | success (cur : Byte) (heof : (d.decoded data).eof = false) :
      d.Feeds data .success data.length (d.emptied d.phase cur (d.decoded data))
  | done (cur : Byte) (heof : (d.decoded data).eof = true) (hcursor : (d.decoded data).cursor = 512) :
      d.Feeds data .done (((d.decoded data).used - d.bitsLeft.val + 7) / 8) (d.emptied .done cur (d.decoded data))
  | outputFull {k used : Nat} {d' : Dec} {bs : List Byte} (hfull : d'.cap ≤ d'.nout) (hpend : d'.pendValid = true)
      (hcursor : d'.cursor = 512) (hleft : d.decoded data = (d'.decoded (data.drop k)).after (bs ++ [d'.pend]) used)
      (hunit : { d with
        cursor := d'.cursor, cur := d'.cur, bitsLeft := d'.bitsLeft, out := d.out ++ bs, pend := d'.pend
        pendValid := true } = d') :
      d.Feeds data .outputFull k d'

/-- Where the walking ends says what the whole input decoded to. -/
theorem Dec.Walks.feeds {d m d' : Dec} {data bs : List Byte} {k : Nat} {status : Status}
    (h : d.Walks data bs m (data.drop k)) (hend : m.Ends (data.drop k) status d') (hk : k ≤ data.length) :
    d.Feeds data status k d' := by
  obtain ⟨⟨used, hdecoded, hcount⟩, hm⟩ := h
  cases hend with
  | success hbits hrest =>
    rw [hrest, Dec.decoded_nil_of_spent hbits] at hdecoded
    have hlen : k = data.length := Nat.le_antisymm hk (List.drop_eq_nil_iff.mp hrest)
    have hspent : m.bitsLeft = 0 := Fin.ext hbits
    have hunit : d.emptied d.phase m.cur (d.decoded data) = m := by
      rw [hm, hspent, hdecoded]
      simp [Dec.emptied, Decoded.after]
    exact hunit ▸ hlen ▸ .success m.cur (by rw [hdecoded]; rfl)
  | done hbits heof =>
    rw [heof] at hdecoded
    rw [List.length_drop] at hcount
    have hlt := m.bitsLeft.isLt
    have hused : ((d.decoded data).used - d.bitsLeft.val + 7) / 8 = k := by
      rw [hdecoded]
      simp only [Decoded.after]
      omega
    have hunit : d.emptied .done m.cur (d.decoded data) = { m with cursor := 512, bitsLeft := 0, phase := .done } := by
      rw [hm, hdecoded]
      simp [Dec.emptied, Decoded.after]
    exact hunit ▸ hused ▸ .done m.cur (by rw [hdecoded]; rfl) (by rw [hdecoded]; rfl)
  | outputFull hfull hheld =>
    refine .outputFull (used := used + 1) (bs := bs) hfull rfl rfl ?_ (by rw [hm]; rfl)
    rw [hdecoded, hheld, Decoded.after_after]
    rfl

/-- R152: the loop from PAYLOAD always comes to one of the three ends. -/
theorem decFeedLoop_feeds {p : Params} {d : Dec} (h : d.FeedInv p) (hp : d.phase = .payload) (data : List Byte) :
    ∃ status k d', decFeedLoop p data 0 d = .fin status k d' ∧ d'.Inv p ∧ k ≤ data.length ∧ d.Feeds data status k d' := by
  obtain ⟨status, k, d', hl, hd⟩ := decFeedLoop_ends h data 0
  obtain ⟨bs, m, hm, hend⟩ := decFeedLoop_walked hp hl
  have hk := Nat.zero_add data.length ▸ (decFeedLoop_count hl).2
  exact ⟨status, k, d', hl, hd, hk, hm.feeds hend hk⟩

/-- R152, R155: a DEC_FEED that finds room for what is pending puts that in the buffer and feeds from there. -/
theorem decFeed_feeds {s : State} (hinv : s.Inv) (hp : s.dec.phase = .payload)
    (hroom : s.dec.pendValid = true → s.dec.nout < s.dec.cap) (data : List Byte) :
    ∃ status k d, exec (.decFeed data) s = .next (({ s with dec := d } : State).answer status k []) ∧
      d.Inv s.params ∧ k ≤ data.length ∧ s.dec.flushed.Feeds data status k d := by
  have hf := flushPending_of_room hp hroom
  obtain ⟨status, k, d, hl, hrest⟩ :=
    decFeedLoop_feeds (flushPending_keeps hinv.dec (.inr hp) hf) (by exact hp) data
  exact ⟨status, k, d, by rw [exec_decFeed_of_feeding (.inr hp), hf, decFeedFlushed, hl, decFeedAnswer], hrest⟩

/-! ## The statements -/

/-- Settles O54: a feed that ended for want of room would have had more to decode than fits. -/
theorem decFeedDecodes : Obligations.DecFeedDecodes := by
  intro s data r hinv hp _ hr hfits
  have hroom : s.dec.pendValid = true → s.dec.nout < s.dec.cap := fun hv => by
    rw [Dec.pendingBytes, if_pos hv, List.length_append, List.length_append, List.length_singleton] at hfits
    rw [Dec.nout]
    omega
  replace hr : r = s.dec.flushed.decoded data := hr
  subst hr
  obtain ⟨status, k, d, he, _, _, hfeeds⟩ := decFeed_feeds hinv hp hroom data
  cases hfeeds with
  | success cur heof =>
    exact ⟨s.dec.flushed.emptied _ cur _, rfl, rfl, rfl, rfl, rfl, fun _ => ⟨hp, he⟩,
      fun h => absurd (heof.symm.trans h) nofun⟩
  | done cur heof hcursor =>
    exact ⟨s.dec.flushed.emptied _ cur _, rfl, rfl, rfl, rfl, rfl, fun h => absurd (heof.symm.trans h) nofun,
      fun _ => ⟨rfl, hcursor, he⟩⟩
  | outputFull hfull hpend hcursor hleft hunit =>
    rw [hleft] at hfits
    rw [← hunit] at hfull
    simp only [Decoded.after, Dec.flushed, Dec.nout, List.length_append, List.length_singleton] at hfits hfull
    omega

/-- Settles O55: a feed that ended with Success or Done would have put all the literals decoded in the buffer, and the
invariant says that it holds no more than fit. -/
theorem decFeedPausesWithoutLoss : Obligations.DecFeedPausesWithoutLoss := by
  intro s data r hinv hp _ hroom hr hlong
  replace hr : r = s.dec.flushed.decoded data := hr
  subst hr
  obtain ⟨status, k, d, he, hd, hk, hfeeds⟩ := decFeed_feeds hinv hp hroom data
  cases hfeeds with
  | success cur heof => exact absurd (hd.session (hp ▸ nofun : s.dec.phase ≠ .idle)).2.2 (Nat.not_le.mpr hlong)
  | done cur heof hcursor => exact absurd (hd.session nofun).2.2 (Nat.not_le.mpr hlong)
  | outputFull hfull hpend hcursor hleft hunit =>
    have hcap : d.cap = s.dec.cap := (congrArg Dec.cap hunit).symm
    have hnout : d.nout = d.cap := Nat.le_antisymm (hd.session (hunit ▸ hp ▸ nofun)).2.2 hfull
    refine ⟨d, k, hk, he, hunit ▸ hp, hpend, hnout, hcap, hcursor, hunit ▸ rfl, hunit ▸ rfl, hunit ▸ rfl, ?_⟩
    rw [hleft, ← hunit]
    simp [Decoded.after, Dec.flushed, Dec.decoded]

end Sys2Proof.Machine
end

section
/-! DEC_FEED in phase HEADER (44_stream_decoder.md R151, R153): the bytes absorbed one by one are the bytes absorbed together,
and the last one completes the header. -/

namespace Sys2Proof.Machine

/-! ## Header bytes absorbed -/

/-- The unit with the header bytes `data` absorbed, each merged at its position (R151, R72). -/
def Dec.absorbed (d : Dec) (data : List Byte) : Dec :=
  { d with
    count := (data.zipIdx (1024 - d.hdrRem.val)).foldl (fun c (x : Byte × Nat) => mergeHeaderByte c x.2 x.1) d.count
    hdrRem := ⟨d.hdrRem.val - data.length, by omega⟩ }

section
variable {d : Dec} {data : List Byte}

/-- R151: nothing but the counters and the number of header bytes left is written. -/
theorem Dec.absorbed_eq (d : Dec) (data : List Byte) : d.absorbed data =
    { d with hdrRem := (d.absorbed data).hdrRem, count := (d.absorbed data).count } := rfl

theorem Dec.absorbed_append {a b : List Byte} (h : a.length ≤ d.hdrRem.val) :
    (d.absorbed a).absorbed b = d.absorbed (a ++ b) := by
  have hlt := d.hdrRem.isLt
  have hpos : 1024 - (d.hdrRem.val - a.length) = 1024 - d.hdrRem.val + a.length := by omega
  simp only [Dec.absorbed, hpos, List.zipIdx_append, List.foldl_append, List.length_append, Nat.sub_sub]

theorem Dec.absorbed_hdrRem_of_length_eq (h : data.length = d.hdrRem.val) : (d.absorbed data).hdrRem = 0 :=
  Fin.ext (Nat.sub_eq_zero_of_le h.ge)

theorem absorbHeaderByte_eq_some (h : 0 < d.hdrRem.val) (b : Byte) : absorbHeaderByte b d = some (d.absorbed [b]) :=
  if_neg (Nat.ne_of_gt h)

theorem walkLatched_of_header (h : d.phase = .header) : walkLatched d = .go d := by
  simp only [walkLatched, h]

/-! ## The loop -/

/-- R152: within the header the loop absorbs every byte. -/
theorem decFeedLoop_absorbs (p : Params) (hp : d.phase = .header) (h : data.length < d.hdrRem.val) (more : List Byte)
    (n : Nat) : decFeedLoop p (data ++ more) n d = decFeedLoop p more (n + data.length) (d.absorbed data) := by
  induction data generalizing d n with
  | nil => rfl
  | cons b data ih =>
    rw [List.length_cons] at h
    have hrem : (d.absorbed [b]).hdrRem.val = d.hdrRem.val - 1 := rfl
    have htake : takeByte p b d = .go (d.absorbed [b]) := by
      simp only [takeByte, hp, absorbHeaderByte_eq_some (Nat.zero_lt_of_lt h), hrem]
      exact if_neg (by omega)
    have hrest := ih (d := d.absorbed [b]) hp (by omega) (n + 1)
    rw [Dec.absorbed_append (a := [b]) (Nat.zero_lt_of_lt h)] at hrest
    simp only [List.cons_append, decFeedLoop, walkLatched_of_header hp, htake]
    rw [hrest, List.length_cons, Nat.add_right_comm, Nat.add_assoc]
    rfl

/-- How the loop goes on after a pass that took one byte, with the input `more` and `n` bytes consumed (R152). -/
def Walk.feedOn (p : Params) (more : List Byte) (n : Nat) : Walk → FeedEnd
  | .go d => decFeedLoop p more n d
  | .stop status d => .fin status n d
  | .off => .off

/-- R153: the last header byte completes the header. -/
theorem decFeedLoop_completes (p : Params) (hp : d.phase = .header) (hrem : 0 < d.hdrRem.val)
    (h : data.length = d.hdrRem.val) (more : List Byte) :
    decFeedLoop p (data ++ more) 0 d = (completeHeader p (d.absorbed data)).feedOn p more data.length := by
  obtain rfl | ⟨init, b, rfl⟩ := data.eq_nil_or_concat'
  · exact absurd h hrem.ne
  · rw [List.length_append, List.length_singleton] at h
    have hlast : 0 < (d.absorbed init).hdrRem.val := Nat.sub_pos_of_lt (by omega)
    have hzero : (d.absorbed (init ++ [b])).hdrRem = 0 := Dec.absorbed_hdrRem_of_length_eq (by simpa using h)
    have htake : takeByte p b (d.absorbed init) = completeHeader p (d.absorbed (init ++ [b])) := by
      simp only [takeByte, show (d.absorbed init).phase = .header from hp, absorbHeaderByte_eq_some hlast,
        Dec.absorbed_append (show init.length ≤ d.hdrRem.val by omega), hzero]
      rfl
    rw [List.append_assoc, decFeedLoop_absorbs p hp (by omega), List.singleton_append, decFeedLoop,
      walkLatched_of_header (by exact hp), Nat.zero_add, List.length_append, List.length_singleton]
    simp only [htake]
    rfl

end

theorem tableValid_iff {cmax : Nat} {count : CountTable} : tableValid cmax count = true ↔
    (∀ i, (h : i < 256) → count[i] ≤ cmax) ∧ 1 + count.toList.sum ≤ cmax := by
  simp [tableValid, tableTotal]

/-! ## The statements -/

theorem exec_decFeed_of_header {s : State} (hp : s.dec.phase = .header) (data : List Byte) :
    exec (.decFeed data) s = decFeedAnswer s (decFeedLoop s.params data 0 s.dec) := by
  simp only [exec_decFeed_of_feeding (.inl hp), flushPending, hp, decFeedFlushed]

/-- Settles O51: the loop is left with no byte and with the header not complete. -/
theorem decFeedWithinHeader : Obligations.DecFeedWithinHeader := by
  intro s data hp h
  have hl := decFeedLoop_absorbs s.params hp h [] 0
  rw [List.append_nil, Nat.zero_add] at hl
  refine ⟨s.dec.absorbed data, rfl, rfl, rfl, ?_⟩
  rw [exec_decFeed_of_header hp, hl, decFeedLoop, walkLatched_of_header (by exact hp)]
  rfl

/-- Settles O52: the last byte completes the header; a valid table leaves the loop with an empty latch to walk. -/
theorem decFeedCompletesHeader : Obligations.DecFeedCompletesHeader := by
  intro s data count hinv hp h hcount
  obtain ⟨hrem, hbits, _⟩ := hinv.dec.header hp
  have hl := decFeedLoop_completes s.params hp hrem h
  have habsorbed : s.dec.absorbed data = { s.dec with hdrRem := 0, count := count } := by
    rw [hcount, ← Dec.absorbed_hdrRem_of_length_eq h]
    rfl
  rw [habsorbed, completeHeader] at hl
  rw [← tableValid_iff]
  refine ⟨fun hvalid => ?_, fun hvalid rest => ?_⟩
  · have hl := hl []
    rw [if_pos hvalid, List.append_nil] at hl
    simp only [exec_decFeed_of_header hp, hl, Walk.feedOn, decFeedLoop, walkLatched, hbits, Fin.val_zero, walkBits]
    rfl
  · rw [exec_decFeed_of_header hp, hl, if_neg hvalid]
    rfl

end Sys2Proof.Machine
end

section
/-! The other commands of the StreamDecoder (44_stream_decoder.md R150, R156, R157), a decoder that is held (R155), and the
progress of DEC_FEED (R159). -/

namespace Sys2Proof.Machine

/-! ## DEC_INIT, DEC_READY and DEC_DRAIN -/

/-- The decoder that DEC_INIT constructs over `d` (R150). -/
def Dec.constructed (d : Dec) (cap : Nat) : Dec :=
  { d with
    phase := .header, count := Vector.replicate 256 0, hdrRem := 1024, cap := cap, out := [], pendValid := false
    bitsLeft := 0 }

/-- Settles O50: the constructed decoder has the values of R150, and what it does not write of the one before. -/
theorem decInitConstructs : Obligations.DecInitConstructs := fun s hint =>
  ⟨fun hlo hhi => ⟨s.dec.constructed hint.toNat, rfl, fun _ h => Vector.getElem_replicate h, rfl, rfl, rfl, rfl, rfl, rfl,
    rfl, rfl, rfl, exec_decInit_of_legal ⟨hlo, hhi⟩⟩, fun h => exec_of_violates h⟩

/-- R32: the buffer's bytes fit its capacity, and with it one drain of the largest length. -/
theorem State.Inv.nout_lt {s : State} (h : s.Inv) (hp : s.dec.phase ≠ .idle) : s.dec.nout < 0xFFFFFFFF := by
  obtain ⟨_, hcap, hnout⟩ := h.dec.session hp
  obtain ⟨_, _, _, hmax⟩ := h.params
  omega

/-- R156: in HEADER and FAULT the buffer is empty. -/
theorem Dec.Inv.out_eq_nil {p : Params} {d : Dec} (h : d.Inv p) (hp : d.phase = .header ∨ d.phase = .fault) :
    d.out = [] := by
  rcases hp with hp | hp
  · exact (h.headerInv hp).out
  · obtain ⟨_, _, _, hout, _⟩ := h.fault hp
    exact hout

/-- Settles O58: under the invariant the number of bytes fits the response's word. -/
theorem decReadyCounts : Obligations.DecReadyCounts := by
  refine fun s hinv => ⟨fun hp => ?_, fun hp => exec_of_violates hp⟩
  have hlt := (hinv.nout_lt hp).trans (show 0xFFFFFFFF < 2 ^ 32 by decide)
  refine ⟨BitVec.ofNat 32 s.dec.nout, Nat.mod_eq_of_lt hlt, fun hempty => ?_, exec_decReady_of_ne_idle hp⟩
  rw [Dec.nout, hinv.dec.out_eq_nil hempty]
  rfl

/-- Settles O59: the drain takes the front of the buffer and writes nothing else. -/
theorem decDrainTakesPrefix : Obligations.DecDrainTakesPrefix := fun _ maxLen _ =>
  ⟨fun hp => ⟨_, rfl, exec_decDrain_of_ne_idle hp maxLen⟩, fun hp => exec_of_violates hp⟩

/-! ## Held -/

/-- R155: a held decoder answers every DEC_FEED with OutputFull and nothing else. -/
theorem exec_decFeed_of_held {s : State} (hp : s.dec.phase = .payload) (hv : s.dec.pendValid = true)
    (hfull : s.dec.cap ≤ s.dec.nout) (data : List Byte) : exec (.decFeed data) s = .next (s.answer .outputFull 0 []) := by
  have hf : flushPending s.dec = none := by
    rcases flushPending_cases s.dec with ⟨hn, _⟩ | ⟨_, _, hroom, _⟩ | ⟨_, _, _, e⟩
    · exact absurd ⟨hp, hv⟩ hn
    · exact absurd hroom (Nat.not_lt.mpr hfull)
    · exact e
  rw [exec_decFeed_of_feeding (.inr hp), hf]
  rfl

/-- Settles O53: a DEC_FEED does not change the held decoder, DEC_READY and DEC_CODEOF read it, and the other units'
commands do not write it. -/
theorem decFeedHeld : Obligations.DecFeedHeld := by
  intro s data hp hv hfull
  refine ⟨exec_decFeed_of_held hp hv hfull data, ?standing, fun i t hi h => ?keeps⟩
  case standing => simp [Dec.standing, Dec.hasRoom, hp, hv, hfull]
  case keeps =>
    cases i with
    | sysReset | decInit _ | decDrain _ => simp [Instr.mnemonic] at hi
    | decFeed data =>
      cases (exec_decFeed_of_held hp hv hfull data).symm.trans h
      rfl
    | sysStatus | decReady | decCodeof _ =>
      obtain ⟨_, _, _, rfl⟩ := exec_read_next (by simp [Instr.mnemonic]) h
      rfl
    | ftInit | ftFeed _ | ftCount _ | ftTotal => exact (exec_ft_keeps rfl h).2
    | encInit _ | encFeed _ | encEnd | encReady | encDrain _ | encCodeof _ => exact (exec_enc_keeps rfl h).2

/-! ## Progress -/

/-- R159: with nothing latched the first byte of the input is taken. -/
theorem decFeedLoop_takes {p : Params} {b : Byte} {data : List Byte} {k : Nat} {d d' : Dec} {status : Status}
    (hw : walkLatched d = .go d) (h : decFeedLoop p (b :: data) 0 d = .fin status k d') : 0 < k := by
  simp only [decFeedLoop, hw] at h
  cases ht : takeByte p b d with
  | go e =>
    rw [ht] at h
    exact (decFeedLoop_count h).1
  | stop status e => rw [ht] at h; cases h; exact Nat.one_pos
  | off => rw [ht] at h; cases h

theorem Dec.Feeds.out_append {d d' : Dec} {data : List Byte} {status : Status} {k : Nat} (h : d.Feeds data status k d') :
    ∃ bs, d'.out = d.out ++ bs := by
  cases h with
  | success cur heof | done cur heof hcursor => exact ⟨_, rfl⟩
  | outputFull hfull hpend hcursor hleft hunit => exact ⟨_, (congrArg Dec.out hunit).symm⟩

/-- With nothing pending the latch of a decoder that may be fed is empty. -/
theorem Dec.Inv.spentInv {p : Params} {d : Dec} (h : d.Inv p) (hp : d.phase = .header ∨ d.phase = .payload)
    (hv : d.pendValid = false) : d.SpentInv p := by
  rcases hp with hp | hp
  · exact .inl (h.headerInv hp)
  · refine .inr ⟨h.payloadInv hp, hv, ?_⟩
    by_contra hbits
    exact absurd (hv.symm.trans ((h.latch hp).2 (Nat.pos_of_ne_zero hbits))) nofun

theorem Dec.SpentInv.bitsLeft_eq_zero {p : Params} {d : Dec} (h : d.SpentInv p) : d.bitsLeft = 0 := by
  rcases h with h | ⟨_, _, hbits⟩
  · exact h.bitsLeft
  · exact Fin.ext hbits

/-- Settles O57: a pending literal that finds room goes to the buffer; with nothing pending the latch is empty, and the first
byte of the input is taken. -/
theorem decFeedProgress : Obligations.DecFeedProgress := by
  intro s t data r hinv hp hlt h hr
  cases hv : s.dec.pendValid with
  | true =>
    obtain ⟨hpay, _⟩ := hinv.dec.pending hv
    by_cases hfull : s.dec.cap ≤ s.dec.nout
    · exact .inr (.inr (.inr ⟨rfl, hfull⟩))
    · obtain ⟨status, k, d, he, _, _, hfeeds⟩ := decFeed_feeds hinv hpay (fun _ => Nat.not_le.mp hfull) data
      cases he.symm.trans h
      obtain ⟨bs, hout⟩ := hfeeds.out_append
      refine .inr (.inl fun hsame => ?_)
      have hlen := congrArg (fun d : Dec => d.out.length) hsame
      simp [hout, Dec.flushed, Dec.pendingBytes, hv] at hlen
  | false =>
    have hspent := hinv.dec.spentInv hp hv
    rw [exec_decFeed_of_feeding hp, hspent.flushPending_eq, decFeedFlushed] at h
    cases data with
    | nil => exact .inr (.inr (.inl ⟨rfl, hspent.bitsLeft_eq_zero, rfl⟩))
    | cons b data =>
      refine .inl ?_
      cases hl : decFeedLoop s.params (b :: data) 0 s.dec with
      | off => rw [hl] at h; cases h
      | fin status k d =>
        rw [hl] at h
        cases h
        cases eq_of_answer_responses rfl hr
        have hk := (decFeedLoop_count hl).2
        have hpos := decFeedLoop_takes hspent.walkLatched_eq hl
        rw [BitVec.toNat_ofNat, Nat.mod_eq_of_lt (by omega)]
        exact hpos

end Sys2Proof.Machine
end

section
/-! The round trip (44_stream_decoder.md R158; 30_encoding.md R78). A feed either ends with Done and all that was left to put
out in the buffer, or pauses with at least one byte there and still owes the rest; so DECODE_ALL's loop comes to an end, and
what it drains is the data encoded. -/

namespace Sys2Proof.Machine

/-! ## What a decoder owes -/

/-- In PAYLOAD with the buffer empty: the pending literal and what the latch and the wire decode to are `data`, then EOF. -/
structure Dec.Owes (d : Dec) (wire data : List Byte) : Prop where
  phase : d.phase = .payload
  out : d.out = []
  symbols : d.pendingBytes ++ (d.decoded wire).symbols = data
  eof : (d.decoded wire).eof = true

/-- How a feed of `wire` ends that `data` is to come out of: with Done and all of it in the buffer, or held with some of it
there, owing the rest. -/
inductive Dec.Delivers (wire data : List Byte) : Status → Nat → Dec → Prop
  | done {k : Nat} {d : Dec} (hp : d.phase = .done) (hout : d.out = data) : Dec.Delivers wire data .done k d
  | outputFull {k : Nat} {d : Dec} {rest : List Byte} (hout : d.out ≠ []) (hdata : d.out ++ rest = data)
      (howes : ({ d with out := [] } : Dec).Owes (wire.drop k) rest) : Dec.Delivers wire data .outputFull k d

/-- R155: a feed that comes to EOF or to a full buffer delivers what the unit and the input decode to. -/
theorem Dec.Feeds.delivers {p : Params} {d d' : Dec} {wire : List Byte} {status : Status} {k : Nat}
    (h : d.Feeds wire status k d') (hp : d.phase = .payload) (heof : (d.decoded wire).eof = true) (hd' : d'.Inv p) :
    Dec.Delivers wire (d.out ++ (d.decoded wire).symbols) status k d' := by
  cases h with
  | success cur hno => exact absurd (hno.symm.trans heof) nofun
  | done cur _ hcursor => exact .done rfl rfl
  | @outputFull k used d' bs hfull hpend hcursor hleft hunit =>
    have hp' : d'.phase = .payload := (congrArg Dec.phase hunit).symm.trans hp
    have hout : d'.out = d.out ++ bs := (congrArg Dec.out hunit).symm
    rw [hleft] at heof ⊢
    obtain ⟨hcap, _⟩ := hd'.session (by rw [hp']; exact nofun)
    refine .outputFull (rest := d'.pend :: (d'.decoded (wire.drop k)).symbols) ?_ ?_ ⟨hp', rfl, ?_, heof⟩
    · exact List.ne_nil_of_length_pos (hcap.trans hfull)
    · simp [hout, Decoded.after]
    · simp only [Dec.pendingBytes, hpend]
      rfl

theorem Dec.Delivers.append_left {bytes data : List Byte} {status : Status} {k : Nat} {d : Dec}
    (h : Dec.Delivers bytes data status k d) (pre : List Byte) :
    Dec.Delivers (pre ++ bytes) data status (pre.length + k) d := by
  cases h with
  | done hp hout => exact .done hp hout
  | outputFull hout hdata howes =>
    refine .outputFull hout hdata ?_
    rwa [← List.drop_drop, List.drop_left]

/-- A feed of `wire` ends, and delivers `data`. -/
def State.Delivering (s : State) (wire data : List Byte) : Prop :=
  ∃ status k d, exec (.decFeed wire) s = .next (({ s with dec := d } : State).answer status k []) ∧ k ≤ wire.length ∧
    Dec.Delivers wire data status k d

theorem Dec.Owes.delivering {s : State} {wire data : List Byte} (h : s.dec.Owes wire data) (hinv : s.Inv) :
    s.Delivering wire data := by
  obtain ⟨hp, hout, hsymbols, heof⟩ := h
  obtain ⟨hcap, _⟩ := hinv.dec.session (by rw [hp]; exact nofun)
  have hroom : s.dec.nout < s.dec.cap := by
    rw [Dec.nout, hout]
    exact hcap
  obtain ⟨status, k, d, he, hd, hk, hfeeds⟩ := decFeed_feeds hinv hp (fun _ => hroom) wire
  have hdelivers := hfeeds.delivers hp heof hd
  have hall : s.dec.flushed.out ++ (s.dec.flushed.decoded wire).symbols = data := by
    rw [← hsymbols, Dec.flushed, hout]
    rfl
  exact ⟨status, k, d, he, hk, hall ▸ hdelivers⟩

/-! ## The loop of DECODE_ALL -/

/-- R78: the largest drain empties the buffer. -/
theorem exec_decDrain_all {s : State} (hinv : s.Inv) (hp : s.dec.phase ≠ .idle) : exec (.decDrain 0xFFFFFFFF) s =
    .next (({ s with dec := { s.dec with out := [] } } : State).answer .success s.dec.nout s.dec.out) := by
  have hall : min (0xFFFFFFFF : Word).toNat s.dec.nout = s.dec.nout := Nat.min_eq_right (hinv.nout_lt hp).le
  rw [exec_decDrain_of_ne_idle hp, hall, Dec.dropFront, Dec.nout, List.drop_length, List.take_length]

/-- R78: one round of the loop, a feed and the drain after it. -/
theorem decodeLoop_succ {fuel : Nat} {wire : List Byte} {s t u : State} {r x : Response}
    (ht : exec (.decFeed wire) s = .next t) (hu : exec (.decDrain 0xFFFFFFFF) t = .next u)
    (hr : t.lastResponse = some r) (hx : u.lastResponse = some x) :
    (r.status = .done → decodeLoop (fuel + 1) wire s = some (x.data, .done)) ∧
    (r.status = .outputFull → decodeLoop (fuel + 1) wire s =
      (decodeLoop fuel (wire.drop r.val.toNat) u).map fun y => (x.data ++ y.1, y.2)) := by
  constructor <;> intro hs <;> simp only [decodeLoop, ht, hu, hr, hx, hs] <;> rfl

theorem State.lastResponse_answer (s : State) (status : Status) (v : Nat) (b : List Byte) :
    (s.answer status v b).lastResponse = some ⟨status, BitVec.ofNat 32 v, b⟩ :=
  List.getLast?_concat

/-- R78, R155: every round but the last drains a byte at least, so the loop ends within a round for each byte and one more. -/
theorem State.Delivering.decodeLoop_eq {fuel : Nat} {s : State} {wire data : List Byte} (hinv : s.Inv)
    (h : s.Delivering wire data) (hwire : wire.length < 2 ^ 32) (hfuel : data.length < fuel) :
    decodeLoop fuel wire s = some (data, .done) := by
  induction fuel generalizing s wire data with
  | zero => exact absurd hfuel (Nat.not_lt_zero _)
  | succ fuel ih =>
    obtain ⟨status, k, d, he, hk, hdelivers⟩ := h
    obtain ⟨t, ht, htinv⟩ := exec_inv (.decFeed wire) hinv
    cases he.symm.trans ht
    have hp : d.phase ≠ .idle := by
      cases hdelivers with
      | done hp hout => rw [hp]; exact nofun
      | outputFull hout hdata howes => rw [show d.phase = _ from howes.phase]; exact nofun
    have hdrain := exec_decDrain_all htinv hp
    have hround := decodeLoop_succ (fuel := fuel) he hdrain (State.lastResponse_answer ..) (State.lastResponse_answer ..)
    cases hdelivers with
    | done _ hout => exact (hround.1 rfl).trans (by rw [← hout]; rfl)
    | @outputFull _ _ rest hout hdata howes =>
      obtain ⟨u, hu, huinv⟩ := exec_inv (.decDrain 0xFFFFFFFF) htinv
      cases hdrain.symm.trans hu
      have hlen := congrArg List.length hdata
      have hpos := List.length_pos_iff.mpr hout
      rw [List.length_append] at hlen
      have hval : (BitVec.ofNat 32 k).toNat = k := Nat.mod_eq_of_lt (by omega)
      have hrest := ih huinv (Dec.Owes.delivering howes huinv) (by rw [List.length_drop]; omega) (by omega)
      refine (hround.2 rfl).trans ?_
      rw [hval, hrest, ← hdata]
      rfl

/-! ## The first feed -/

/-- The decoder constructed over `d` that has absorbed the header of the table `count` (R150, R153). -/
def Dec.started (d : Dec) (cap : Nat) (count : CountTable) : Dec :=
  { d.constructed cap with hdrRem := 0, count := count, tree := buildTree count, cursor := 512, phase := .payload }

theorem length_headerBytes (count : CountTable) (h n : Nat) : (headerBytes count h n).length = n := by
  simp [headerBytes]

section
variable {p : Params} {count : CountTable} (hmax : p.cmax < 2 ^ 32) (htotal : tableTotal count ≤ p.cmax)
  (d : Dec) (cap : Nat)
include hmax htotal

/-- R72, R153: a table's header, absorbed by a newly constructed decoder, gives the table, which is valid. -/
theorem completeHeader_headerBytes :
    completeHeader p ((d.constructed cap).absorbed (headerBytes count 0 1024)) = .go (d.started cap count) := by
  have hle : ∀ i, (h : i < 256) → count[i] + 1 ≤ p.cmax := fun i hi =>
    countOf_eq count i hi ▸ (countOf_succ_le_tableTotal count i).trans htotal
  have hcount : ((d.constructed cap).absorbed (headerBytes count 0 1024)).count = count := by
    have htable := headerReproducesTable count fun i hi => (hle i hi).trans hmax.le
    generalize headerBytes count 0 1024 = bytes at htable ⊢
    exact htable
  have hrem : ((d.constructed cap).absorbed (headerBytes count 0 1024)).hdrRem = 0 :=
    Dec.absorbed_hdrRem_of_length_eq (length_headerBytes ..)
  have hvalid : tableValid p.cmax count = true :=
    tableValid_iff.mpr ⟨fun i hi => Nat.le_of_succ_le (hle i hi), htotal⟩
  have habsorbed : (d.constructed cap).absorbed (headerBytes count 0 1024) =
      { d.constructed cap with hdrRem := 0, count := count } := by
    rw [Dec.absorbed_eq, hrem, hcount]
  rw [habsorbed, completeHeader, if_pos hvalid]
  rfl

/-- R152: the payload after the header is fed to the decoder that the header has started. -/
theorem decFeedLoop_headerBytes (bytes : List Byte) :
    decFeedLoop p (headerBytes count 0 1024 ++ bytes) 0 (d.constructed cap) =
      (decFeedLoop p bytes 0 (d.started cap count)).after 1024 := by
  have hl := decFeedLoop_completes (d := d.constructed cap) p rfl (show 0 < (1024 : Fin 1025).val by decide)
    (length_headerBytes count 0 1024) bytes
  rw [completeHeader_headerBytes hmax htotal, length_headerBytes] at hl
  exact hl.trans (decFeedLoop_add p bytes 1024 0 _)

end

/-- R158: a newly constructed decoder fed a table's header and a payload delivers what the payload decodes to, up to EOF. -/
theorem delivering_of_constructed {s : State} (hinv : s.Inv) {d : Dec} {cap : Nat} (hd : s.dec = d.constructed cap)
    {count : CountTable} (htotal : tableTotal count ≤ s.params.cmax) {bytes data : List Byte} {used : Nat}
    (hdecoded : decodeBits (buildTree count) 512 (bytes.flatMap byteBits) =
      { symbols := data, cursor := 512, eof := true, used := used }) :
    s.Delivering (headerBytes count 0 1024 ++ bytes) data := by
  have hp : s.dec.phase = .header := congrArg Dec.phase hd
  obtain ⟨⟨_, hmax⟩, _⟩ := hinv.params
  obtain ⟨hlo, hhi, _⟩ := hd ▸ hinv.dec.session (by rw [hp]; exact nofun)
  have hfeed : (d.started cap count).FeedInv s.params :=
    .inr ⟨0, ⟨rfl, hlo, hhi, Nat.zero_le _, rfl, rfl, htotal, show 257 ≤ 512 ∧ 512 ≤ 512 by decide⟩, rfl, rfl⟩
  have hall : (d.started cap count).decoded bytes = { symbols := data, cursor := 512, eof := true, used := used } := by
    rw [Dec.decoded, Dec.latchedBits_of_spent rfl]
    exact hdecoded
  obtain ⟨status, k, e, he, heinv, hk, hfeeds⟩ := decFeedLoop_feeds hfeed rfl bytes
  have hdelivers := hfeeds.delivers rfl (by rw [hall]) heinv
  rw [hall] at hdelivers
  refine ⟨status, (headerBytes count 0 1024).length + k, e, ?_, ?_, hdelivers.append_left _⟩
  · rw [exec_decFeed_of_header hp, hd, decFeedLoop_headerBytes (by omega) htotal, he, length_headerBytes]
    rfl
  · rw [List.length_append]
    omega

/-! ## The session -/

theorem tableTotal_tableOf (data : List Byte) : tableTotal (tableOf data) = 1 + data.length := by
  rw [tableOf, tableTotal_foldl_countByte, tableTotal_replicate_zero]

/-- R117: a session's payload bytes decode to the data encoded, then EOF. -/
theorem decodeBits_payload {count : CountTable} {data bytes : List Byte} {codes eof : List Bool}
    (hcodes : codesOf (buildTree count) data = some codes) (heof : codeOf (buildTree count) 256 = some eof)
    (hbits : bytes.flatMap byteBits = zeroPad (codes ++ eof)) :
    decodeBits (buildTree count) 512 (bytes.flatMap byteBits) =
      { symbols := data, cursor := 512, eof := true, used := (codes ++ eof).length } := by
  obtain ⟨_, hinverts⟩ := decodeStepInvertsCodeOf count
  obtain ⟨codes', eof', hcodes', heof', hdecoded⟩ := hinverts data
    (List.replicate ((8 - (codes ++ eof).length % 8) % 8) false)
  cases hcodes.symm.trans hcodes'
  cases heof.symm.trans heof'
  rw [hbits]
  exact hdecoded

/-- Settles O60: the constructed decoder delivers the data encoded, and the loop drains all that is delivered. -/
theorem roundTrip : Obligations.RoundTrip := by
  intro s t d hint dhint counted data wire k hinv hdinv _ _ h hr htotal hlo hhi
  obtain ⟨codes, eof, bytes, hcodes, heof, hbits, hwire, _, hlt⟩ := encodeSession_wire hinv h hr
  obtain ⟨u, hu, huinv⟩ := exec_inv (.decInit dhint) hdinv
  have hu' := exec_decInit_of_legal (s := d) ⟨hlo, hhi⟩
  cases hu'.symm.trans hu
  rw [← tableTotal_tableOf] at htotal
  have hdelivering := delivering_of_constructed huinv rfl htotal (decodeBits_payload hcodes heof hbits)
  rw [decodeAll, hu]
  refine hwire ▸ hdelivering.decodeLoop_eq huinv ?_ (Nat.lt_succ_self _)
  rw [List.length_append, length_headerBytes]
  exact hlt

end Sys2Proof.Machine
end

section
/-! The system commands SYS_RESET and SYS_STATUS, and the refusal of a reserved opcode (45_system_commands.md R170 to
R172): the ranges of R66 against the opcode map, and the fields of the STATUS word as quotients and remainders of its
number. -/

namespace Sys2Proof.Machine

/-! ## Reserved opcodes (30_encoding.md R66) -/

/-- The ranges of R66, as numbers. -/
abbrev opcodeReserved (op : Nat) : Prop :=
  op = 0x00 ∨ (0x03 ≤ op ∧ op ≤ 0x0F) ∨ (0x14 ≤ op ∧ op ≤ 0x1F) ∨ (0x26 ≤ op ∧ op ≤ 0x2F) ∨ op = 0x32 ∨
    (0x36 ≤ op ∧ op ≤ 0xFF)

theorem not_opcodeReserved_opcode (m : Mnemonic) : ¬ opcodeReserved m.opcode.toNat := by
  cases m <;> decide

theorem mnemonicOf_eq_none_of_reserved {cw : CmdWord} (h : opcodeReserved (opcodeField cw).toNat) :
    mnemonicOf cw = none := by
  refine Option.eq_none_iff_forall_ne_some.mpr fun m hm => not_opcodeReserved_opcode m ?_
  rwa [← mnemonicOf_eq_some_iff.mp hm]

theorem decode_of_reserved {c : Command} (h : opcodeReserved (opcodeField c.word).toNat) :
    decode c = .error (.reservedOpcode (opcodeField c.word)) := by
  rw [decode, mnemonicOf_eq_none_of_reserved h]

/-! ## The fields of the STATUS word (10_state.md R16) -/

theorem EncPhase.code_lt (p : EncPhase) : p.code < 4 := by
  cases p <;> decide

theorem DecPhase.code_lt (p : DecPhase) : p.code < 8 := by
  cases p <;> decide

/-- The field of `len` bits from bit `lo` of a word given as a number. -/
theorem extractLsb'_ofNat_eq {w n lo len x : Nat} (hlen : lo + len ≤ w) (h : n / 2 ^ lo % 2 ^ len = x) :
    (BitVec.ofNat w n).extractLsb' lo len = BitVec.ofNat len x := by
  obtain ⟨above, rfl⟩ := Nat.exists_eq_add_of_le hlen
  apply BitVec.eq_of_toNat_eq
  calc ((BitVec.ofNat (lo + len + above) n).extractLsb' lo len).toNat
    _ = n % 2 ^ (lo + len + above) / 2 ^ lo % 2 ^ len := by
      rw [BitVec.extractLsb'_toNat, BitVec.toNat_ofNat, Nat.shiftRight_eq_div_pow]
    _ = n / 2 ^ lo % 2 ^ len := by
      rw [Nat.add_assoc, Nat.pow_add, Nat.mod_mul_right_div_self, Nat.pow_add, Nat.mod_mul_right_mod]
    _ = (BitVec.ofNat len x).toNat := by
      rw [← h, BitVec.toNat_ofNat, Nat.mod_mod]

/-! ## The statements -/

/-- Settles O4: no row of the opcode map lies in R66's ranges, so the record is rejected by its opcode, and the refusal
writes nothing but the response. -/
theorem reservedOpcodeRefused : Obligations.ReservedOpcodeRefused := by
  intro s c rest hinbox hop
  have hpop : s.popInbox = { s with inbox := rest } := by simp [State.popInbox, hinbox]
  calc step s
    _ = rejectCommand (.reservedOpcode (opcodeField c.word)) s.popInbox := by
      simp only [step, hinbox, decode_of_reserved hop]
    _ = .next s.popInbox.refuse := rfl
    _ = .next ({ s with inbox := rest } : State).refuse := by rw [hpop]

/-- Settles O9: a field is what is left of the word's number when the fields below it are divided out and those above it
are reduced away, for each is smaller than its range. -/
theorem sysStatusFields : Obligations.SysStatusFields := by
  intro s
  have henc := s.enc.phase.code_lt
  have hdec := s.dec.phase.code_lt
  have hpend := s.dec.pendValid.toNat_lt
  have hleft := s.dec.bitsLeft.isLt
  have hnbits := s.enc.buf.nbits.isLt
  have hword : statusWord s = s.enc.phase.code + 16 * s.dec.phase.code + 256 * s.dec.pendValid.toNat +
    4096 * s.dec.bitsLeft.val + 65536 * s.enc.buf.nbits.val := rfl
  have hpendBit : BitVec.ofBool s.dec.pendValid = BitVec.ofNat 1 s.dec.pendValid.toNat := by
    cases s.dec.pendValid <;> rfl
  refine ⟨BitVec.ofNat 32 (statusWord s), rfl, extractLsb'_ofNat_eq (by decide) ?_,
    extractLsb'_ofNat_eq (x := 0) (by decide) ?_, extractLsb'_ofNat_eq (by decide) ?_,
    extractLsb'_ofNat_eq (x := 0) (by decide) ?_, hpendBit ▸ extractLsb'_ofNat_eq (by decide) ?_,
    extractLsb'_ofNat_eq (x := 0) (by decide) ?_, extractLsb'_ofNat_eq (by decide) ?_,
    extractLsb'_ofNat_eq (by decide) ?_, extractLsb'_ofNat_eq (x := 0) (by decide) ?_⟩ <;> omega

/-- Settles O8: each value is the one that `Ft.reset`, `Enc.reset` or `Dec.reset` writes out. -/
theorem sysResetResets : Obligations.SysResetResets := fun s =>
  ⟨s.resetUnits.answer .success 0 [], rfl, fun _ hi => Vector.getElem_replicate hi, rfl, rfl, rfl, rfl, rfl, rfl, rfl, rfl,
    rfl, rfl, rfl⟩

end Sys2Proof.Machine
end

section
/-! The statuses of commands (60_exceptions.md R181, R182), in every state, whether it has the invariant or not: a command
that breaks the contract is refused, and any other is answered with a status of its row that is not ContractViolation. At
the end the two steps that run no command: idle (R193) and the reset event (70_reset_and_hazards.md R200). -/

namespace Sys2Proof.Machine

/-! ## How a DEC_FEED ends (44_stream_decoder.md R152) -/

section
variable {p : Params} {status : Status} {d d' : Dec}

theorem bitStep_stop_status (h : bitStep d = .stop status d') : status = .done ∨ status = .outputFull := by
  rcases bitStep_cases d with ⟨_, e⟩ | ⟨_, _, e⟩ | ⟨_, _, e⟩ | ⟨_, _, _, _, ⟨_, e⟩ | ⟨_, e⟩⟩ <;> cases e.symm.trans h
  · exact .inl rfl
  · exact .inr rfl

theorem walkBits_stop_status {n : Nat} (h : walkBits n d = .stop status d') : status = .done ∨ status = .outputFull := by
  induction n generalizing d with
  | zero => cases h
  | succ n ih =>
    rw [walkBits] at h
    cases hs : bitStep d with
    | go e =>
      rw [hs] at h
      exact ih h
    | stop status' e =>
      rw [hs] at h
      exact bitStep_stop_status (hs.trans h)
    | off =>
      rw [hs] at h
      cases h

theorem walkLatched_stop_status (h : walkLatched d = .stop status d') : status = .done ∨ status = .outputFull := by
  unfold walkLatched at h
  split at h
  · exact walkBits_stop_status h
  all_goals cases h

theorem takeByte_stop_status {b : Byte} (h : takeByte p b d = .stop status d') : status = .overflow := by
  rcases takeByte_cases p b d with ⟨_, e⟩ | ⟨_, _, e⟩ | ⟨_, _, d₁, _, ⟨_, e⟩ | ⟨_, e⟩⟩
  case inr.inr.inr =>
    have h' : completeHeader p d₁ = .stop status d' := e.symm.trans h
    unfold completeHeader at h'
    split at h' <;> cases h'
    rfl
  all_goals cases e.symm.trans h

/-- R152: a feed ends with its bytes, at a bit that is walked, or at the end of the header. -/
theorem decFeedLoop_status {data : List Byte} {n k : Nat} (h : decFeedLoop p data n d = .fin status k d') :
    status = .success ∨ status = .overflow ∨ status = .done ∨ status = .outputFull := by
  induction data generalizing n d with
  | nil =>
    rw [decFeedLoop] at h
    cases hs : walkLatched d with
    | go e =>
      rw [hs] at h
      cases h
      exact .inl rfl
    | stop status' e =>
      rw [hs] at h
      cases h
      exact .inr (.inr (walkLatched_stop_status hs))
    | off =>
      rw [hs] at h
      cases h
  | cons b bs ih =>
    rw [decFeedLoop] at h
    cases hs : walkLatched d with
    | go e =>
      rw [hs] at h
      dsimp only at h
      cases hb : takeByte p b e with
      | go e' =>
        rw [hb] at h
        exact ih h
      | stop status' e' =>
        rw [hb] at h
        cases h
        exact .inr (.inl (takeByte_stop_status hb))
      | off =>
        rw [hb] at h
        cases h
    | stop status' e =>
      rw [hs] at h
      cases h
      exact .inr (.inr (walkLatched_stop_status hs))
    | off =>
      rw [hs] at h
      cases h

end

/-! ## Commands that keep the contract -/

theorem success_mem_allowedStatuses (i : Instr) : .success ∈ allowedStatuses i := by
  cases i <;> exact List.mem_cons_self

/-- R181: the command has added one response, whose status stands in its row and is not ContractViolation. -/
def Accepted (i : Instr) (s t : State) : Prop :=
  ∃ r, t.responses = s.responses ++ [r] ∧ r.status ∈ allowedStatuses i ∧ r.status ≠ .contractViolation

section
variable {i : Instr} {s t u : State} {status : Status} {v : Nat} {b : List Byte}

theorem accepted_of_answer (hu : u.responses = s.responses) (hmem : status ∈ allowedStatuses i)
    (hne : status ≠ .contractViolation) : Accepted i s (u.answer status v b) :=
  ⟨_, congrArg (· ++ _) hu, hmem, hne⟩

theorem accepted_of_success (he : exec i s = .next (u.answer .success v b)) (hu : u.responses = s.responses)
    (h : exec i s = .next t) : Accepted i s t := by
  cases he.symm.trans h
  exact accepted_of_answer hu (success_mem_allowedStatuses i) nofun

theorem answerCode_accepted {tree : Tree} {symbol : Word} (h : answerCode tree symbol s = .next t) : Accepted i s t := by
  unfold answerCode at h
  split at h
  · cases h
    exact accepted_of_answer rfl (success_mem_allowedStatuses i) nofun
  · cases h

theorem exec_ftFeed_accepted {data : List Byte} (h : exec (.ftFeed data) s = .next t) : Accepted (.ftFeed data) s t := by
  rcases Nat.lt_or_ge s.params.cmax (s.ft.total + data.length) with hover | hroom
  · cases (exec_ftFeed_of_overflow hover).symm.trans h
    exact accepted_of_answer rfl (by simp [allowedStatuses]) nofun
  · exact accepted_of_success (exec_ftFeed_of_room hroom) rfl h

/-- R131: what a symbol that finds no room answers. -/
theorem accepted_of_no_room (hi : i = .encEnd ∨ ∃ data, i = .encFeed data) (hu : u.responses = s.responses)
    (hstatus : status = .tooMuchData ∨ status = .outOfMemory) : Accepted i s (u.answer status v b) := by
  refine accepted_of_answer hu ?mem ?ne
  case mem => rcases hi with rfl | ⟨_, rfl⟩ <;> rcases hstatus with rfl | rfl <;> simp [allowedStatuses]
  case ne => rcases hstatus with rfl | rfl <;> exact nofun

theorem encFeedLoop_accepted {data : List Byte} (h : encFeedLoop data 0 s = .next t) : Accepted (.encFeed data) s t := by
  obtain ⟨u, status, k, hfed, rfl⟩ := encFeedLoop_fed h
  obtain ⟨_, _, _, _, hresponses⟩ := hfed.step.frame
  rcases hfed.ends with ⟨rfl, _⟩ | ⟨hstatus, _⟩
  · exact accepted_of_answer hresponses (success_mem_allowedStatuses _) nofun
  · exact accepted_of_no_room (.inr ⟨data, rfl⟩) hresponses hstatus

theorem encEndAnswer_accepted (h : encEndAnswer (encSymbol 256 s) = .next t) : Accepted .encEnd s t := by
  cases he : encSymbol 256 s with
  | ok u =>
    have hstep := encSymbol_leaves 256 s
    rw [he] at h hstep
    obtain ⟨_, _, _, _, hresponses⟩ := State.EncoderStep.frame hstep
    cases h
    exact accepted_of_answer hresponses (success_mem_allowedStatuses _) nofun
  | fail status u =>
    obtain ⟨hstatus, _, _, _, hresponses⟩ := encSymbol_fail_cases he
    rw [he] at h
    cases h
    exact accepted_of_no_room (.inl rfl) hresponses hstatus
  | stuck f =>
    rw [he] at h
    cases h

theorem decFeedFlushed_accepted {data : List Byte} {o : Option Dec} (h : decFeedFlushed data s o = .next t) :
    Accepted (.decFeed data) s t := by
  cases o with
  | none =>
    cases h
    exact accepted_of_answer rfl (by simp [allowedStatuses]) nofun
  | some d =>
    rw [decFeedFlushed] at h
    cases hl : decFeedLoop s.params data 0 d with
    | fin status k d' =>
      rw [hl] at h
      cases h
      refine accepted_of_answer rfl ?mem ?ne
      case mem => rcases decFeedLoop_status hl with rfl | rfl | rfl | rfl <;> simp [allowedStatuses]
      case ne => rcases decFeedLoop_status hl with rfl | rfl | rfl | rfl <;> exact nofun
    | off =>
      rw [hl] at h
      cases h

/-- R181, R182: a command without one of the causes is answered with a status of its row, and not with
ContractViolation. -/
theorem exec_accepted (hv : ¬ violates i s) (h : exec i s = .next t) : Accepted i s t := by
  cases i with
  | sysReset | sysStatus | ftInit | ftTotal => exact accepted_of_success rfl rfl h
  | ftFeed data => exact exec_ftFeed_accepted h
  | ftCount symbol => exact accepted_of_success (exec_ftCount_of_legal (Nat.not_lt.mp hv)) rfl h
  | encInit hint => exact accepted_of_success (exec_encInit_of_legal (hint_legal_of_encInit hv)) rfl h
  | encFeed data => exact encFeedLoop_accepted (exec_encFeed_of_active (not_not.mp hv) data ▸ h)
  | encEnd => exact encEndAnswer_accepted (exec_encEnd_of_active (not_not.mp hv) ▸ h)
  | encReady => exact accepted_of_success (exec_encReady_of_ne_idle hv) rfl h
  | encDrain maxLen => exact accepted_of_success (exec_encDrain_eq hv maxLen) rfl h
  | encCodeof symbol =>
    obtain ⟨hp, hs⟩ := not_or.mp hv
    exact answerCode_accepted (exec_encCodeof_of_legal hp (Nat.not_lt.mp hs) ▸ h)
  | decInit hint => exact accepted_of_success (exec_decInit_of_legal (hint_legal_of_decInit hv)) rfl h
  | decFeed data => exact decFeedFlushed_accepted (exec_decFeed_of_feeding (feeding_of_decFeed hv) data ▸ h)
  | decReady => exact accepted_of_success (exec_decReady_of_ne_idle hv) rfl h
  | decDrain maxLen => exact accepted_of_success (exec_decDrain_of_ne_idle hv maxLen) rfl h
  | decCodeof symbol =>
    obtain ⟨hp, hs⟩ := built_of_decCodeof hv
    exact answerCode_accepted (exec_decCodeof_of_legal hp hs ▸ h)

/-- R182: a command that can break the contract has ContractViolation in its row of R181. -/
theorem contractViolation_mem_of_violates (hv : violates i s) : .contractViolation ∈ allowedStatuses i := by
  cases i with
  | sysReset | sysStatus | ftInit | ftFeed _ | ftTotal => exact hv.elim
  | _ => simp [allowedStatuses]

end

/-! ## The statements -/

/-- Settles O16: a command with a cause of R182 is refused, and its row allows that; any other is accepted. -/
theorem statusesOfCommands : Obligations.StatusesOfCommands := by
  intro i s t h
  by_cases hv : violates i s
  · cases (exec_of_violates hv).symm.trans h
    exact ⟨_, s.refuse_responses, contractViolation_mem_of_violates hv⟩
  · obtain ⟨r, hr, hmem, _⟩ := exec_accepted hv h
    exact ⟨r, hr, hmem⟩

/-- Settles O17: a command with a cause is refused, and one without is accepted, the one response being another. -/
theorem contractViolationExactly : Obligations.ContractViolationExactly := by
  refine ⟨fun i s hv => exec_of_violates hv, fun i s t r h hr hstatus => by_contra fun hv => ?_⟩
  obtain ⟨r', hr', _, hne⟩ := exec_accepted hv h
  cases List.singleton_inj.mp (List.append_cancel_left (hr.symm.trans hr'))
  exact hne hstatus

/-- Settles O6: the reset event takes itself out of the inbox and writes the units that SYS_RESET writes. -/
theorem idleAndResetEvent : Obligations.IdleAndResetEvent := by
  refine ⟨fun s hinbox => ?idle, fun s rest hinbox => ?reset⟩
  case idle => simp only [step, hinbox]
  case reset =>
    have hstep : step s = .next s.popInbox.resetUnits := by simp only [step, hinbox]
    have hrest : s.popInbox.resetUnits.inbox = rest := congrArg List.tail hinbox
    exact ⟨_, _, hstep, rfl, rfl, rfl, rfl, rfl, hrest, rfl, rfl, rfl⟩

end Sys2Proof.Machine
end

section
/-! The phase transition table (70_reset_and_hazards.md R203): each unit's phase is moved by its own commands and the reset
only, and of these each is traced to the row that its status selects. -/

namespace Sys2Proof.Machine

/-! ## The table -/

section
variable {i : Instr} {status : Status}

/-- R203: the rows of ENC are for the reset and for ENC's own commands. -/
theorem encPhaseAfter_of_other_unit (hi : unitOf i = .ft ∨ unitOf i = .dec) (before : EncPhase) :
    encPhaseAfter i status before = before := by
  cases i with
  | sysReset | sysStatus | encInit _ | encFeed _ | encEnd | encReady | encDrain _ | encCodeof _ => simp [unitOf] at hi
  | _ => rfl

/-- R203: the rows of DEC are for the reset and for DEC's own commands. -/
theorem decPhaseAfter_of_other_unit (hi : unitOf i = .ft ∨ unitOf i = .enc) (before : DecPhase) (rem : Nat) :
    decPhaseAfter i status before rem = before := by
  cases i with
  | sysReset | sysStatus | decInit _ | decFeed _ | decReady | decDrain _ | decCodeof _ => simp [unitOf] at hi
  | _ => rfl

/-- R203: no row of a refused command moves a phase. -/
theorem phaseAfter_contractViolation (hi : i ≠ .sysReset) (before : EncPhase) (before' : DecPhase) (rem : Nat) :
    encPhaseAfter i .contractViolation before = before ∧ decPhaseAfter i .contractViolation before' rem = before' := by
  cases i with
  | sysReset => exact absurd rfl hi
  | _ => exact ⟨rfl, rfl⟩

end

/-! ## Refused commands -/

section
variable {s t : State} {r : Response} {status : Status}

/-- R203: a command that breaks the contract leaves both phases, as its row says. -/
theorem phases_of_violates {i : Instr} (hv : violates i s) (h : exec i s = .next t)
    (hr : t.responses = s.responses ++ [r]) (rem : Nat) :
    t.enc.phase = encPhaseAfter i r.status s.enc.phase ∧ t.dec.phase = decPhaseAfter i r.status s.dec.phase rem := by
  cases (exec_of_violates hv).symm.trans h
  have hi : i ≠ .sysReset := fun e => (e ▸ hv : violates .sysReset s).elim
  obtain ⟨henc, hdec⟩ := phaseAfter_contractViolation hi s.enc.phase s.dec.phase rem
  cases eq_of_answer_responses rfl hr
  exact ⟨henc.symm, hdec.symm⟩

/-! ## ENC's phase -/

/-- R134: ENC_END ends the session if there is room for the EOF code, and leaves it otherwise. -/
theorem encEndAnswer_phase (h : encEndAnswer (encSymbol 256 s) = .next t) (hr : t.responses = s.responses ++ [r]) :
    t.enc.phase = encPhaseAfter .encEnd r.status s.enc.phase := by
  cases he : encSymbol 256 s with
  | ok w =>
    have hstep := encSymbol_leaves 256 s
    rw [he] at h hstep
    obtain ⟨_, _, _, _, hresponses⟩ := State.EncoderStep.frame hstep
    cases h
    cases eq_of_answer_responses hresponses hr
    rfl
  | fail status w =>
    obtain ⟨hstatus, henc, _, _, hresponses⟩ := encSymbol_fail_cases he
    rw [he] at h
    cases h
    cases eq_of_answer_responses hresponses hr
    rcases hstatus with rfl | rfl <;> exact congrArg Enc.phase henc
  | stuck f =>
    rw [he] at h
    cases h

/-- R203, the rows of ENC's own commands. -/
theorem exec_enc_phase {i : Instr} (hi : unitOf i = .enc) (h : exec i s = .next t)
    (hr : t.responses = s.responses ++ [r]) : t.enc.phase = encPhaseAfter i r.status s.enc.phase := by
  by_cases hv : violates i s
  · exact (phases_of_violates hv h hr 0).1
  · cases i with
    | encInit hint =>
      cases (exec_encInit_of_legal (hint_legal_of_encInit hv)).symm.trans h
      cases eq_of_answer_responses rfl hr
      rfl
    | encFeed data =>
      obtain ⟨_, _, _, hfed, rfl⟩ := encFeedLoop_fed (exec_encFeed_of_active (not_not.mp hv) data ▸ h)
      obtain ⟨_, _, happ⟩ := hfed.codes
      exact happ.phase_eq
    | encEnd => exact encEndAnswer_phase (exec_encEnd_of_active (not_not.mp hv) ▸ h) hr
    | encDrain maxLen =>
      cases (exec_encDrain_eq hv maxLen).symm.trans h
      rfl
    | encReady | encCodeof _ =>
      obtain ⟨_, _, _, rfl⟩ := exec_read_next (by simp [Instr.mnemonic]) h
      rfl
    | _ => cases hi

/-! ## DEC's phase -/

/-- R151, R153: under the invariant a decoder that can be fed is in HEADER just as long as header bytes are left. -/
theorem Dec.Inv.phase_of_feeding {p : Params} {d : Dec} (h : d.Inv p) (hp : d.phase = .header ∨ d.phase = .payload) :
    d.phase = if d.hdrRem.val = 0 then .payload else .header := by
  rcases hp with hp | hp
  · obtain ⟨hrem, _⟩ := h.header hp
    rw [hp, if_neg (Nat.ne_of_gt hrem)]
  · obtain ⟨hrem, _⟩ := h.built (.inl hp)
    rw [hp, hrem]
    rfl

/-- The phases in which a decoder has a standing (R187). -/
def Standing.phases : Standing → DecPhase → Prop
  | .none, phase => phase = .idle
  | .held, phase | .unfinished, phase => phase = .header ∨ phase = .payload
  | .faulted, phase => phase = .fault
  | .finished, phase => phase = .done

theorem Dec.standing_phases (d : Dec) : d.standing.phases d.phase := by
  cases hp : d.phase <;> simp only [Dec.standing, hp]
  case header => exact .inl rfl
  case payload => split <;> exact .inr rfl
  all_goals rfl

/-- R203, the rows of a DEC_FEED that is accepted, from the standing in which its status leaves the decoder (R187). -/
theorem Dec.Inv.phase_of_standsAfter {p : Params} {d : Dec} (h : d.Inv p) (hs : standsAfter status d)
    (data : List Byte) (before : DecPhase) : d.phase = decPhaseAfter (.decFeed data) status before d.hdrRem.val := by
  have hphases := d.standing_phases
  cases status with
  | success | outputFull =>
    rw [show d.standing = _ from hs] at hphases
    exact h.phase_of_feeding hphases
  | done | overflow =>
    rw [show d.standing = _ from hs] at hphases
    exact hphases
  | outOfMemory | tooMuchData | contractViolation => exact hs.elim

theorem exec_decFeed_phase {data : List Byte} (hinv : s.Inv) (hp : s.dec.phase = .header ∨ s.dec.phase = .payload)
    (h : exec (.decFeed data) s = .next t) (hr : t.responses = s.responses ++ [r]) :
    t.dec.phase = decPhaseAfter (.decFeed data) r.status s.dec.phase t.dec.hdrRem.val := by
  obtain ⟨r', hr', hstands⟩ := decFeed_stands hinv hp h
  cases List.singleton_inj.mp (List.append_cancel_left (hr.symm.trans hr'))
  obtain ⟨t', ht', hinv'⟩ := exec_inv (.decFeed data) hinv
  cases ht'.symm.trans h
  exact hinv'.dec.phase_of_standsAfter hstands data s.dec.phase

/-- R203, the rows of DEC's own commands. -/
theorem exec_dec_phase {i : Instr} (hinv : s.Inv) (hi : unitOf i = .dec) (h : exec i s = .next t)
    (hr : t.responses = s.responses ++ [r]) :
    t.dec.phase = decPhaseAfter i r.status s.dec.phase t.dec.hdrRem.val := by
  by_cases hv : violates i s
  · exact (phases_of_violates hv h hr _).2
  · cases i with
    | decInit hint =>
      cases (exec_decInit_of_legal (hint_legal_of_decInit hv)).symm.trans h
      cases eq_of_answer_responses rfl hr
      rfl
    | decFeed data => exact exec_decFeed_phase hinv (feeding_of_decFeed hv) h hr
    | decDrain maxLen =>
      cases (exec_decDrain_of_ne_idle hv maxLen).symm.trans h
      rfl
    | decReady | decCodeof _ =>
      obtain ⟨_, _, _, rfl⟩ := exec_read_next (by simp [Instr.mnemonic]) h
      rfl
    | _ => cases hi

end

/-! ## The statement -/

/-- Settles O18, unit by unit: a unit's commands move its own phase as its rows say, and write no other unit. -/
theorem phaseTransitions : Obligations.PhaseTransitions := by
  intro i s t r hinv h hr
  cases hi : unitOf i with
  | system =>
    cases i with
    | sysReset | sysStatus => cases h; exact ⟨rfl, rfl⟩
    | _ => cases hi
  | ft =>
    obtain ⟨henc, hdec⟩ := exec_ft_keeps hi h
    rw [encPhaseAfter_of_other_unit (.inl hi), decPhaseAfter_of_other_unit (.inl hi)]
    exact ⟨congrArg Enc.phase henc, congrArg Dec.phase hdec⟩
  | enc =>
    obtain ⟨_, hdec⟩ := exec_enc_keeps hi h
    rw [decPhaseAfter_of_other_unit (.inr hi)]
    exact ⟨exec_enc_phase hi h hr, congrArg Dec.phase hdec⟩
  | dec =>
    obtain ⟨_, henc⟩ := exec_dec_keeps hi h
    rw [encPhaseAfter_of_other_unit (.inr hi)]
    exact ⟨congrArg Enc.phase henc, exec_dec_phase hinv hi h hr⟩

end Sys2Proof.Machine
end
